-- ==== Sys2Proof/Word.lean ====
section
/-!
DEFINITION. The two word types of the block: bytes of the buffers (00_scope.md R7) and the 32-bit registers (R5 `XLEN`).
-/

namespace Sys2Proof

/-- A byte of a buffer: 8 bits, unsigned (R7). -/
abbrev Byte := BitVec 8

/-- A register of the block: 32 bits, unsigned (R5, `XLEN`; R21). -/
abbrev Word := BitVec 32

end Sys2Proof
end

