-- ==== Sys2Proof/Syntax.lean ====
section
/-!
DEFINITION. The syntax of the command set: the fifteen commands of 30_encoding.md R72, the one word format C (R70), and
the names that commands and errors speak of (formats R71, tags R120, error codes R301).
-/

namespace Sys2Proof

/-- The commands, one constructor per legal word of R72. A command takes no written operands (R77): its operands are
whatever the registers and `IBUF` hold when it is issued. -/
inductive Instr where
  /-- `HDR_BUILD.RGBA`, 0x00000001. -/
  | hdrBuildRgba
  /-- `HDR_BUILD.DXT1`, 0x00000101. -/
  | hdrBuildDxt1
  /-- `HDR_BUILD.DXT5`, 0x00000201. -/
  | hdrBuildDxt5
  /-- `HDR_PARSE`, 0x00000002. -/
  | hdrParse
  /-- `FCC_RESOLVE`, 0x00000003. -/
  | fccResolve
  /-- `BC1_ENC`, 0x00000010. -/
  | bc1Enc
  /-- `BC3A_ENC`, 0x00000011. -/
  | bc3aEnc
  /-- `PACK2`, 0x00000020. -/
  | pack2
  /-- `PACK3`, 0x00000021. -/
  | pack3
  /-- `UNPACK2`, 0x00000022. -/
  | unpack2
  /-- `UNPACK3`, 0x00000023. -/
  | unpack3
  /-- `ENC_FRAME.RGBA`, 0x00000030. -/
  | encFrameRgba
  /-- `ENC_FRAME.DXT1`, 0x00000130. -/
  | encFrameDxt1
  /-- `ENC_FRAME.DXT5`, 0x00000230. -/
  | encFrameDxt5
  /-- `DEC_FRAME`, 0x00000031. -/
  | decFrame
deriving DecidableEq, Repr

/-- The three fields of a command word, format C (R70): `ZERO` [31:10], `FMT` [9:8], `OPC` [7:0]. -/
structure CmdFields where
  /-- Bits [31:10], must be 0. -/
  zero : BitVec 22
  /-- Bits [9:8], the format code of R71. -/
  fmt : BitVec 2
  /-- Bits [7:0], the operation code of R72. -/
  opc : BitVec 8
deriving DecidableEq, Repr

/-- The formats of an encode, the three `FMT` names of R71. -/
inductive Fmt where
  /-- `FMT = 0`, lossless. -/
  | rgba
  /-- `FMT = 1`, BC1. -/
  | dxt1
  /-- `FMT = 2`, BC3. -/
  | dxt5
deriving DecidableEq, Repr

/-- The three supported compressed tags, the ones `DECOMP` has a function for (R120, R262). -/
inductive CompTag where
  /-- "DXT1". -/
  | dxt1
  /-- "DXT3". -/
  | dxt3
  /-- "DXT5". -/
  | dxt5
deriving DecidableEq, Repr

/-- The set KNOWN of tags the resolver recognises (R120). -/
inductive Tag where
  /-- A supported compressed tag. -/
  | comp (c : CompTag)
  /-- The extended-header tag "DX10", recognised only to be refused (R254). -/
  | dx10
deriving DecidableEq, Repr

/-- The errors a command can raise (R301). -/
inductive Err where
  /-- Code 1. -/
  | format
  /-- Code 2. -/
  | size
  /-- Code 3. -/
  | encode
  /-- Code 4. -/
  | illegalCommand
  /-- Code 5. -/
  | capacity
deriving DecidableEq, Repr

end Sys2Proof
end

