-- ==== Sys2Proof/WellFormed.lean ====
section
/-!
DEFINITION. Which command words are well formed (30_encoding.md R74). A command has no operands (R73, R77), so every term
of `Instr` is well formed, and the checks stand on the fields of a word: `ZERO` is 0, `OPC` is assigned, `FMT` is one
that R72 allows for that `OPC`.
-/

namespace Sys2Proof

/-- The `FMT` values R72 allows for an `OPC`, none for an unassigned `OPC`. -/
def fmtsAllowed (opc : BitVec 8) : List (BitVec 2) :=
  if opc = 0x01#8 ∨ opc = 0x30#8 then [0#2, 1#2, 2#2]
  else if opc ∈ [0x02#8, 0x03#8, 0x10#8, 0x11#8, 0x20#8, 0x21#8, 0x22#8, 0x23#8, 0x31#8] then [0#2]
  else []

/-- `word[31:10] = 0` (R74). -/
def CmdFields.zeroOk (f : CmdFields) : Bool := f.zero == 0#22

/-- `word[7:0]` is one of the eleven `OPC` values of R72 (R74). -/
def CmdFields.opcOk (f : CmdFields) : Bool := !(fmtsAllowed f.opc).isEmpty

/-- `word[9:8]` is one of the `FMT` values R72 allows for that `OPC` (R71, R74). -/
def CmdFields.fmtOk (f : CmdFields) : Bool := (fmtsAllowed f.opc).contains f.fmt

/-- The word of these fields is legal (R74). -/
def CmdFields.wellFormed (f : CmdFields) : Bool := f.zeroOk && f.opcOk && f.fmtOk

end Sys2Proof
end

