-- ==== Sys2Proof/Decode.lean ====
section
/-!
DEFINITION. The decoder of the command word (30_encoding.md R70 to R76), total on all 2^32 words, and the encoder.
-/

namespace Sys2Proof

/-- The fields of a word (R70). -/
def CmdFields.ofWord (w : Word) : CmdFields where
  zero := w.extractLsb' 10 22
  fmt := w.extractLsb' 8 2
  opc := w.extractLsb' 0 8

/-- The word of three fields (R70). -/
def CmdFields.toWord (f : CmdFields) : Word := f.zero ++ f.fmt ++ f.opc

/-- Why a word is no legal command (R74). The block reports `IllegalCommand` for each. -/
inductive DecodeError where
  /-- A bit of `ZERO` [31:10] is 1. -/
  | reservedBits
  /-- `OPC` is unassigned. -/
  | opcode
  /-- `FMT` is reserved, or non-zero for an operation without formats. -/
  | format
deriving DecidableEq, Repr

/-- An operation that has formats: `FMT` selects RGBA, DXT1 or DXT5, and 3 is reserved (R71). -/
def withFmt (fmt : BitVec 2) (rgba dxt1 dxt5 : Instr) : Except DecodeError Instr :=
  match fmt with
  | 0#2 => .ok rgba
  | 1#2 => .ok dxt1
  | 2#2 => .ok dxt5
  | _ => .error .format

/-- An operation without formats: `FMT` must be 0 (R71). -/
def noFmt (fmt : BitVec 2) (i : Instr) : Except DecodeError Instr :=
  if fmt = 0#2 then .ok i else .error .format

/-- The opcode map of R72 on the fields of a word. -/
def decodeFields (f : CmdFields) : Except DecodeError Instr :=
  if f.zero ≠ 0#22 then .error .reservedBits
  else match f.opc with
    | 0x01#8 => withFmt f.fmt .hdrBuildRgba .hdrBuildDxt1 .hdrBuildDxt5
    | 0x02#8 => noFmt f.fmt .hdrParse
    | 0x03#8 => noFmt f.fmt .fccResolve
    | 0x10#8 => noFmt f.fmt .bc1Enc
    | 0x11#8 => noFmt f.fmt .bc3aEnc
    | 0x20#8 => noFmt f.fmt .pack2
    | 0x21#8 => noFmt f.fmt .pack3
    | 0x22#8 => noFmt f.fmt .unpack2
    | 0x23#8 => noFmt f.fmt .unpack3
    | 0x30#8 => withFmt f.fmt .encFrameRgba .encFrameDxt1 .encFrameDxt5
    | 0x31#8 => noFmt f.fmt .decFrame
    | _ => .error .opcode

/-- The command a word encodes, or the reason it is illegal (R72, R74). The decoder needs nothing but the word (R70). -/
def decode (w : Word) : Except DecodeError Instr := decodeFields (CmdFields.ofWord w)

/-- The `OPC` and `FMT` of a command (R72), with `ZERO` 0. -/
def encodeFields : Instr → CmdFields
  | .hdrBuildRgba => ⟨0#22, 0#2, 0x01#8⟩
  | .hdrBuildDxt1 => ⟨0#22, 1#2, 0x01#8⟩
  | .hdrBuildDxt5 => ⟨0#22, 2#2, 0x01#8⟩
  | .hdrParse => ⟨0#22, 0#2, 0x02#8⟩
  | .fccResolve => ⟨0#22, 0#2, 0x03#8⟩
  | .bc1Enc => ⟨0#22, 0#2, 0x10#8⟩
  | .bc3aEnc => ⟨0#22, 0#2, 0x11#8⟩
  | .pack2 => ⟨0#22, 0#2, 0x20#8⟩
  | .pack3 => ⟨0#22, 0#2, 0x21#8⟩
  | .unpack2 => ⟨0#22, 0#2, 0x22#8⟩
  | .unpack3 => ⟨0#22, 0#2, 0x23#8⟩
  | .encFrameRgba => ⟨0#22, 0#2, 0x30#8⟩
  | .encFrameDxt1 => ⟨0#22, 1#2, 0x30#8⟩
  | .encFrameDxt5 => ⟨0#22, 2#2, 0x30#8⟩
  | .decFrame => ⟨0#22, 0#2, 0x31#8⟩

/-- The word of a command (R72). -/
def encode (i : Instr) : Word := (encodeFields i).toWord

/-- The command of a word given as the bits of an opcode-table row: bit 0 is the least significant bit of the command
word, bits at or above `nbits` are 0. None where the decoder refuses, and for bits beyond the 32 of a word (R70). -/
def decodeTableWord (nbits w : Nat) : Option Instr :=
  let bits := w % 2 ^ nbits
  if bits < 2 ^ 32 then
    match decode (BitVec.ofNat 32 bits) with
    | .ok i => some i
    | .error _ => none
  else none

end Sys2Proof
end

