-- ==== Sys2Proof/Machine/Flags.lean ====
section
/-!
DEFINITION. The block has no flags (10_state.md R25): the only outcome indicator is `STATUS` (R28), whose fields and
values are computed here.
-/

namespace Sys2Proof.Machine

/-- The code of an error (60_exceptions.md R301). -/
def errCode : Err → BitVec 3
  | .format => 1
  | .size => 2
  | .encode => 3
  | .illegalCommand => 4
  | .capacity => 5

/-- `STATUS` after a command that ended with this `ERR`: `DONE` is 1, `BUSY` is 0, the reserved bits read 0
(R28, R303, R304). -/
def statusWord (code : BitVec 3) : Word := 0#24 ++ 1#1 ++ 0#1 ++ 0#3 ++ code

/-- `STATUS` after a successful command, `ERR = 0` (R303). -/
def statusOk : Word := statusWord 0

/-- `STATUS` after a command that raised an error (R304). -/
def statusErr (e : Err) : Word := statusWord (errCode e)

/-- `STATUS.ERR`, bits [2:0] (R28). -/
def statusErrField (w : Word) : BitVec 3 := w.extractLsb' 0 3

/-- `STATUS.BUSY`, bit 6 (R28). -/
def statusBusy (w : Word) : Bool := w.getLsbD 6

/-- `STATUS.DONE`, bit 7 (R28). -/
def statusDone (w : Word) : Bool := w.getLsbD 7

end Sys2Proof.Machine
end

