-- ==== Sys2Proof/Machine/Operands.lean ====
section
/-!
DEFINITION. The operand arithmetic of the spec (00_scope.md R7, R8, R10): little-endian assembly, sub-byte fields, the
rounding and selection primitives, exact rationals, and triples of colour components. All of it is on mathematical
integers (R23).
-/

namespace Sys2Proof.Machine

/-- The little-endian integer of a byte list, lowest byte first (R8 `LE16`, `LE32`, `LE48`). -/
def le : List Byte → Nat
  | [] => 0
  | b :: bs => b.toNat + 256 * le bs

/-- `bytesLE(v, n)`: the `n` bytes of `v`, lowest byte first (R8). -/
def bytesLE (v n : Nat) : List Byte :=
  (List.range n).map fun j => BitVec.ofNat 8 (v >>> (8 * j))

/-- The bytes `bs[o .. o+n)` of a list. -/
def slice (bs : List Byte) (o n : Nat) : List Byte := (bs.drop o).take n

/-- `ceil4(n) = floor((n + 3) / 4)` (R10). -/
def ceil4 (n : Nat) : Nat := (n + 3) / 4

/-- `rdiv(n, d)`, `d` in 3, 5, 7: `n / d` rounded to the nearest integer, `floor((n + (d-1)/2) / d)` (R10). -/
def rdiv (n d : Nat) : Nat := (n + (d - 1) / 2) / d

/-- The least of a list, 0 for the empty list. -/
def minNat : List Nat → Nat
  | [] => 0
  | a :: as => as.foldl min a

/-- The greatest of a list, 0 for the empty list. -/
def maxNat : List Nat → Nat
  | [] => 0
  | a :: as => as.foldl max a

/-- The least of a list of integers, 0 for the empty list. -/
def minInt : List Int → Int
  | [] => 0
  | a :: as => as.foldl min a

/-- The greatest of a list of integers, 0 for the empty list. -/
def maxInt : List Int → Int
  | [] => 0
  | a :: as => as.foldl max a

/-- `argmin_k f(k)` over `costs = f(0), f(1), ...`: the smallest index at which the least cost stands (R10). -/
def argmin (costs : List Nat) : Nat := costs.idxOf (minNat costs)

/-- The sum over `i` of `v_i << (w * i)`: the packed field of `w`-bit values (R200, R201, R154, R185). -/
def packFields (w : Nat) (vs : List Nat) : Nat :=
  (vs.zipIdx.map fun vi => vi.1 <<< (w * vi.2)).sum

/-- The 16 values `(word >> (w * i)) & (2^w - 1)` (R200, R201). -/
def unpackFields (w word : Nat) : List Nat :=
  (List.range 16).map fun i => (word >>> (w * i)) &&& (2 ^ w - 1)

/-- The exact rational `num / den`, `den > 0` (R148: integers and one rational division for each component). -/
structure Ratio where
  /-- The numerator. -/
  num : Int
  /-- The denominator, positive in every use. -/
  den : Nat
deriving DecidableEq, Repr

/-- `rhu(clamp255(q))`: clamp to 0 .. 255 first, then round half up (R10, R149). -/
def Ratio.toByte (q : Ratio) : Nat :=
  if q.num < 0 then 0
  else if 255 * (q.den : Int) < q.num then 255
  else ((2 * q.num + q.den) / (2 * q.den)).toNat

/-- Three colour components. -/
structure V3 (α : Type) where
  /-- Red. -/
  r : α
  /-- Green. -/
  g : α
  /-- Blue. -/
  b : α
deriving DecidableEq, Repr, Inhabited

/-- The same function on each component. -/
def V3.map {α β : Type} (f : α → β) (p : V3 α) : V3 β := ⟨f p.r, f p.g, f p.b⟩

/-- A function of two triples, component by component. -/
def V3.zip {α β γ : Type} (f : α → β → γ) (p : V3 α) (q : V3 β) : V3 γ :=
  ⟨f p.r q.r, f p.g q.g, f p.b q.b⟩

/-- The dot product of two integer triples. -/
def V3.dot (p q : V3 Int) : Int := p.r * q.r + p.g * q.g + p.b * q.b

/-- The componentwise sum of integer triples. -/
def V3.sum (ps : List (V3 Int)) : V3 Int := ps.foldr (V3.zip (· + ·)) ⟨0, 0, 0⟩

/-- A sample of a colour block: integers 0 to 255 (R140). -/
abbrev Rgb := V3 Nat

end Sys2Proof.Machine
end

