-- ==== Sys2Proof/Config.lean ====
section
/-!
DEFINITION. What an instance of the block fixes (00_scope.md R5), and the free values: what the spec leaves unspecified
(10_state.md R31, R35), the evaluations of the line fit it leaves to the instance (41_bc1.md R148), and the external
primitive it takes as uninterpreted (45_frame_decode.md R262). The free values
have no body, so nothing can be proved of their values.
-/

namespace Sys2Proof

/-- The capacity of a buffer, OPEN: `128 <= bytes < 2^32` (R5, decision D4). -/
structure Capacity where
  /-- The number of bytes of the buffer. -/
  bytes : Nat
  /-- Every header operation fits. -/
  lower : 128 ≤ bytes
  /-- A length fits a 32-bit register (R23). -/
  upper : bytes < 2 ^ 32
deriving DecidableEq, Repr

/-- `ALT_FOURCC_OFF`, OPEN: one of 80 or 88 (R5, decision D15). -/
inductive AltOffset where
  /-- The neighbour below the canonical offset. -/
  | at80
  /-- The neighbour above the canonical offset. -/
  | at88
deriving DecidableEq, Repr

/-- The absolute offset `ALT_FOURCC_OFF`. -/
def AltOffset.off : AltOffset → Nat
  | .at80 => 80
  | .at88 => 88

/-- The value of the configuration function `BC1_FIT` (R5, R148, decision D18): the exact reference definition, or another
evaluation of steps 1 to 5 (93_implementation_defined.md U3), under a number of its own. -/
inductive FitChoice where
  /-- The reference definition of R148. -/
  | reference
  /-- The evaluation `Config.otherFit n`. -/
  | other (n : Nat)
deriving DecidableEq, Repr

/-- The build-time constants of one instance (R5, R26): the OPEN parameters and the configuration function. -/
structure Instance where
  /-- `IBUF_BYTES`. -/
  ibuf : Capacity
  /-- `OBUF_BYTES`. -/
  obuf : Capacity
  /-- `ALT_FOURCC_OFF`. -/
  alt : AltOffset
  /-- `BC1_FIT`. -/
  fit : FitChoice
deriving DecidableEq, Repr

/-- FREE VALUE (log entry 1): what a byte of `IBUF` that the host has not written since the last reset holds, by the number
of resets and the offset (R35, U11). No command that reads one takes a step (R343). -/
opaque Config.ibufByte : Nat → Nat → Byte

/-- FREE VALUE (log entry 2): what a byte of `OBUF` that the last successful command did not define reads as, by a count
of the resets and successful commands and the offset (R31, R345). -/
opaque Config.obufByte : Nat → Nat → Byte

/-- Another evaluation of `BC1_FIT` (R148, U3; log entry 8): for each number, an uninterpreted total function from the
samples to the two endpoints. A component `(a, k)` is the rational `a / (k + 1)`, so every rational can be one. -/
opaque Config.otherFit : Nat → List Machine.Rgb → Machine.V3 (Int × Nat) × Machine.V3 (Int × Nat)

/-- The external primitive `DECOMP` (R262, log entry 7): an uninterpreted total function of (packed bytes, width,
height), whose answer is a byte list, or none for the token `decode error`. -/
opaque Config.decomp : CompTag → List Byte → Nat → Nat → Option (List Byte)

end Sys2Proof
end

