-- ==== Sys2Proof/Machine/State.lean ====
section
/-!
DEFINITION. The state of one codec block (10_state.md R20), as plain data, and its reset (R35, 70_reset_and_hazards.md
R340). Beside the spec's own state it holds the instance's parameters, the host's actions to come, and two counters that
name the free values of unspecified buffer bytes.
-/

namespace Sys2Proof.Machine

/-- A buffer's defined bytes: (offset, byte) pairs, offsets strictly rising. An offset that is not listed has no value of
its own: it holds a free value (log entries 1, 2 and 13). -/
abbrev Memory := List Host.Cell

/-- The canonical form: offsets strictly rising, so that no offset is listed twice. -/
abbrev Memory.wf (m : Memory) : Prop := m.Pairwise fun p q => p.1 < q.1

/-- The operand and result registers `x[0]` to `x[6]` under the aliases of R21. -/
structure Regs where
  /-- `x[0]`, WIDTH. -/
  width : Word
  /-- `x[1]`, HEIGHT. -/
  height : Word
  /-- `x[2]`, INLEN: the number of valid bytes of `IBUF`. -/
  inlen : Word
  /-- `x[3]`, OUTLEN: the number of valid bytes of `OBUF`. -/
  outlen : Word
  /-- `x[4]`, FOURCC. -/
  fourcc : Word
  /-- `x[5]`, BITCOUNT. -/
  bitcount : Word
  /-- `x[6]`, PROBE (R125). -/
  probe : Word
deriving DecidableEq, Repr

/-- What the host can do to the block between two commands (R22, R27, R28, R30, R31, R79, R340). -/
inductive HostAction where
  /-- `SET xN, v`: write `v` to `x[N]` (R22, R79). -/
  | setX (i : Fin 7) (v : Word)
  /-- Write one byte of `IBUF` (R30). -/
  | writeIbuf (k : Nat) (b : Byte)
  /-- Write one byte of `OBUF`, which the block ignores (R31). -/
  | writeObuf (k : Nat) (b : Byte)
  /-- Write `STATUS`, which the block ignores (R28). -/
  | writeStatus (w : Word)
  /-- Write `CMD`: start the command that `w` encodes and run it to completion (R27). -/
  | writeCmd (w : Word)
  /-- `LOAD b0 b1 ...`: write the bytes to `IBUF` from offset 0 and their number to `x[2]` (R79). -/
  | load (bs : List Byte)
  /-- `MOVE n`: copy `OBUF[0..n)` to `IBUF[0..n)` and write `n` to `x[2]` (R79). -/
  | move (n : Nat)
  /-- Apply the reset signal (R340). -/
  | reset
deriving DecidableEq, Repr

/-- The state of the block. -/
structure State where
  /-- `x[0]` to `x[6]` (R21). -/
  x : Regs
  /-- `STATUS` (R28). -/
  status : Word
  /-- `IBUF` (R30): the bytes the host has written since the last reset. -/
  ibuf : Memory
  /-- `OBUF` (R31): the bytes the last successful command defined. -/
  obuf : Memory
  /-- The parameters of the instance (R5); no step changes them. -/
  inst : Instance
  /-- The host's actions to come, oldest first (R58, R79); `CMD` holds nothing itself (R27). -/
  host : List HostAction
  /-- Names the free value of the `IBUF` bytes that are not listed (log entry 1). -/
  ibufEpoch : Nat
  /-- Names the free value of the `OBUF` bytes that are not listed (log entry 2). -/
  obufEpoch : Nat
deriving DecidableEq, Repr

/-- Why the machine stops. A command whose input bytes the host has written never stops: it ends in success or in one of
its own errors (R300). -/
inductive Fault where
  /-- Raised by a host action (`writeIbuf`, `writeObuf`, `load`, `move`) that names an offset the buffer does not have
  (R30, R31; log entry 4). Safe: the model stops where the spec gives no behaviour. -/
  | hostOffset
  /-- Raised by a command that reads a byte of `IBUF` the host has not written since the last reset: "a model gives such a
  byte no value and the command no step (stuck)" (R343, U15; log entry 1). Safe: the spec leaves the result unspecified. -/
  | unwrittenInput
deriving DecidableEq, Repr

/-- Why the machine refuses. -/
inductive Refusal where
  /-- Raised by `exec` for an instruction that has no meaning yet; there is none left. Safe. -/
  | notModelled (mnemonic : String)
deriving DecidableEq, Repr

/-- Every register 0 (R35). -/
def Regs.zero : Regs := ⟨0, 0, 0, 0, 0, 0, 0⟩

/-- The block of an instance right after reset (R35, R340): registers and `STATUS` 0, no buffer byte with a value, no
host action to come. -/
def State.resetOf (inst : Instance) : State where
  x := Regs.zero
  status := 0
  ibuf := []
  obuf := []
  inst := inst
  host := []
  ibufEpoch := 0
  obufEpoch := 0

/-- The instance `State.reset` is of. DESIGN CHOICE (log entries 3 and 8): the spec leaves three parameters OPEN and
makes `BC1_FIT` a configuration function, whose reference definition this takes; statements range over all states and so
over all instances. -/
def Instance.reference : Instance where
  ibuf := ⟨4294967294, by decide, by decide⟩
  obuf := ⟨4294967294, by decide, by decide⟩
  alt := .at80
  fit := .reference

/-- The machine right after reset, on the reference instance. -/
def State.reset : State := State.resetOf Instance.reference

end Sys2Proof.Machine
end

