-- ==== Sys2Proof/Machine/Ops.lean ====
section
/-!
DEFINITION. The named operations on registers and buffers, the outcome of a command as one shared operation (`done` and
`raise` of 60_exceptions.md R303, R304), and what the host reads.
-/

namespace Sys2Proof.Machine

/-! ## Buffers -/

/-- The byte listed at an offset, none where it has no value of its own. -/
def Memory.get? : Memory → Nat → Option Byte
  | [], _ => none
  | c :: m, k => if c.1 = k then some c.2 else Memory.get? m k

/-- Gives the byte at one offset a value and keeps the canonical form. -/
def Memory.write : Memory → Nat → Byte → Memory
  | [], k, b => [(k, b)]
  | c :: m, k, b =>
    if k < c.1 then (k, b) :: c :: m
    else if k = c.1 then (k, b) :: m
    else c :: Memory.write m k b

/-- Gives the bytes from offset `o` upward these values. -/
def Memory.writeBytes (m : Memory) (o : Nat) : List Byte → Memory
  | [] => m
  | b :: bs => Memory.writeBytes (m.write o b) (o + 1) bs

/-- The buffer whose bytes from offset `o` upward have these values and no other byte has one. -/
def Memory.ofBytes (o : Nat) : List Byte → Memory
  | [] => []
  | b :: bs => (o, b) :: Memory.ofBytes (o + 1) bs

/-- The host has written `IBUF[k]` since the last reset (R343). -/
def State.written (s : State) (k : Nat) : Bool := (s.ibuf.get? k).isSome

/-- `IN[k]` (R9): a byte the host wrote, or the free value of one it has not written (U11, log entry 1). -/
def State.inByte (s : State) (k : Nat) : Byte :=
  (s.ibuf.get? k).getD (Config.ibufByte s.ibufEpoch k)

/-- `IN[o .. o+n)` (R9). -/
def State.inBytes (s : State) (o n : Nat) : List Byte :=
  (List.range' o n).map s.inByte

/-- `MemRead(IBUF+o, n)`: the little-endian integer of `n` bytes (R54, R64). -/
def State.memRead (s : State) (o n : Nat) : Nat := le (s.inBytes o n)

/-! ## Registers -/

/-- `x[i]` by number (R21). -/
def Regs.get (x : Regs) (i : Fin 7) : Word :=
  match i with
  | 0 => x.width
  | 1 => x.height
  | 2 => x.inlen
  | 3 => x.outlen
  | 4 => x.fourcc
  | 5 => x.bitcount
  | 6 => x.probe

/-- `x[i] <- v` by number (R21). -/
def Regs.set (x : Regs) (i : Fin 7) (v : Word) : Regs :=
  match i with
  | 0 => { x with width := v }
  | 1 => { x with height := v }
  | 2 => { x with inlen := v }
  | 3 => { x with outlen := v }
  | 4 => { x with fourcc := v }
  | 5 => { x with bitcount := v }
  | 6 => { x with probe := v }

/-- The image width operand `x[0]` as an integer. -/
def State.width (s : State) : Nat := s.x.width.toNat

/-- The image height operand `x[1]` as an integer. -/
def State.height (s : State) : Nat := s.x.height.toNat

/-- The input length operand `x[2]` as an integer. -/
def State.inlen (s : State) : Nat := s.x.inlen.toNat

/-- A value of 0 to 2^32 - 1 as a register value (R9). -/
def reg (v : Nat) : Word := BitVec.ofNat 32 v

/-! ## The outcome of a command -/

/-- What a successful command commits, apart from `x[3]`: the registers with its out-registers written, and the bytes it
puts in `OBUF` from offset 0. -/
structure Result where
  /-- The registers after the command, but for `x[3]`. -/
  x : Regs
  /-- `OBUF[0 .. length)` after the command. -/
  out : List Byte
deriving DecidableEq, Repr

/-- `done(n)`, `n` the number of bytes of the output (R303): the registers and the output take effect at once,
`x[3] <- n`, `STATUS` reports success. Bytes of `OBUF` at or beyond `n` become unspecified (R31). -/
def State.done (s : State) (r : Result) : State :=
  { s with
    x := { r.x with outlen := reg r.out.length }
    obuf := Memory.ofBytes 0 r.out
    obufEpoch := s.obufEpoch + 1
    status := statusOk }

/-- `raise <Error>`, the block's exception entry (R304): `STATUS` takes the code and nothing else changes. -/
def State.raise (s : State) (e : Err) : State := { s with status := statusErr e }

/-- The end of every command: success commits, an error is raised (R300). There is no return from an error: the next
command's outcome replaces it (R307). -/
def State.finish (s : State) : Except Err Result → State
  | .ok r => s.done r
  | .error e => s.raise e

/-- A command, from the offsets of `IBUF` it reads (R344) and its result: it ends as the result says if the host has
written every byte it reads, and takes no step if not (R343, U15; log entry 1). -/
def State.run (s : State) (reads : List Nat) (r : Except Err Result) : Host.Outcome State Fault Refusal :=
  if reads.all s.written then .next (s.finish r) else .fault .unwrittenInput

/-- The offsets read by a command whose checks all come before its first read of `IBUF`: none if a check fails (R344). -/
def readsAfterChecks (r : Except Err Result) (offs : List Nat) : List Nat :=
  match r with
  | .ok _ => offs
  | .error _ => []

/-! ## What the host reads (no read has a side effect, R56) -/

/-- A host read of `x[i]` (R22). -/
def State.hostReadX (s : State) (i : Fin 7) : Word := s.x.get i

/-- A host read of `CMD`, which holds nothing (R27). -/
def State.hostReadCmd (_ : State) : Word := 0

/-- A host read of `STATUS` (R28). -/
def State.hostReadStatus (s : State) : Word := s.status

/-- A host read of `OBUF[k]`: a byte the last successful command defined, or an unspecified one (R31, R345). DESIGN CHOICE
(log entry 4): for an offset at or beyond `OBUF_BYTES`, which `OBUF` does not have and of which the spec says nothing, this
answers a free value too; the host action `move` never reads there, it faults. -/
def State.hostReadObuf (s : State) (k : Nat) : Byte :=
  (s.obuf.get? k).getD (Config.obufByte s.obufEpoch k)

/-- A host read of `OBUF[0..n)`. -/
def State.hostReadObufBytes (s : State) (n : Nat) : List Byte :=
  (List.range n).map s.hostReadObuf

/-- Reset (R340): registers, `STATUS` and buffers as R35 says, the instance unchanged; the contents of the buffers are
unspecified anew, and the host's later actions still come. -/
def State.applyReset (s : State) : State :=
  { State.resetOf s.inst with
    host := s.host
    ibufEpoch := s.ibufEpoch + 1
    obufEpoch := s.obufEpoch + 1 }

end Sys2Proof.Machine
end

