-- ==== Sys2Proof/Machine/Header.lean ====
section
/-!
DEFINITION. The header codec (40_header.md): HDR_BUILD (R100 to R107), HDR_PARSE (R110, R111) and FCC_RESOLVE
(R120 to R126). Offsets are absolute (90_conflicts.md C1).
-/

namespace Sys2Proof.Machine

/-! ## Flag constants (R101, log entry 9) -/

/-- `DDSD_CAPS`. -/
def ddsdCaps : Nat := 0x1
/-- `DDSD_HEIGHT`. -/
def ddsdHeight : Nat := 0x2
/-- `DDSD_WIDTH`. -/
def ddsdWidth : Nat := 0x4
/-- `DDSD_PITCH`. -/
def ddsdPitch : Nat := 0x8
/-- `DDSD_PIXELFORMAT`. -/
def ddsdPixelFormat : Nat := 0x1000
/-- `DDSD_LINEARSIZE`. -/
def ddsdLinearSize : Nat := 0x80000
/-- `DDSCAPS_TEXTURE`. -/
def ddscapsTexture : Nat := 0x1000
/-- `DDPF_FOURCC`. -/
def ddpfFourCC : Nat := 0x4
/-- `DDPF_RGB_ALPHAPIXELS`. -/
def ddpfRgbAlphaPixels : Nat := 0x41

/-- `FLAGS_UNCOMP` (R101). -/
def flagsUncomp : Nat := ddsdCaps ||| ddsdHeight ||| ddsdWidth ||| ddsdPixelFormat ||| ddsdPitch

/-- `FLAGS_COMP` (R101). -/
def flagsComp : Nat := ddsdCaps ||| ddsdHeight ||| ddsdWidth ||| ddsdPixelFormat ||| ddsdLinearSize

/-! ## Sizes (R107) -/

/-- `NBLOCKS(W, H)`. -/
def nblocks (w h : Nat) : Nat := ceil4 w * ceil4 h

/-- `BLOCKBYTES(f)`; the lossless format has no blocks (R71). -/
def blockBytes : Fmt → Nat
  | .rgba => 0
  | .dxt1 => 8
  | .dxt5 => 16

/-- `LINEARSIZE(W, H, f)`. -/
def linearSize (w h : Nat) (f : Fmt) : Nat := nblocks w h * blockBytes f

/-- `PITCH(W)`. -/
def pitch (w : Nat) : Nat := 4 * w

/-! ## Tags (R8, R120) -/

/-- The magic "DDS ", `44 44 53 20` (R8, R111). -/
def magic : List Byte := [0x44, 0x44, 0x53, 0x20]

/-- The four bytes of a compressed tag, in string order (R120). -/
def compTagBytes : CompTag → List Byte
  | .dxt1 => [0x44, 0x58, 0x54, 0x31]
  | .dxt3 => [0x44, 0x58, 0x54, 0x33]
  | .dxt5 => [0x44, 0x58, 0x54, 0x35]

/-- The four bytes of a known tag (R120). -/
def tagBytes : Tag → List Byte
  | .comp c => compTagBytes c
  | .dx10 => [0x44, 0x58, 0x31, 0x30]

/-- `TAG(t)`, the tag as `LE32` of its bytes (R8). -/
def tagWord (t : Tag) : Nat := le (tagBytes t)

/-- KNOWN, in the order of R120. -/
def knownTags : List Tag := [.comp .dxt1, .comp .dxt3, .comp .dxt5, .dx10]

/-- The tag a 4-byte window matches, if any (R120). -/
def matchTag (window : List Byte) : Option Tag := knownTags.find? fun t => tagBytes t == window

/-! ## HDR_BUILD -/

/-- The value of `pitchOrLinearSize` (R103, R104). -/
def pitchOrLinearSize (w h : Nat) : Fmt → Nat
  | .rgba => pitch w
  | .dxt1 => linearSize w h .dxt1
  | .dxt5 => linearSize w h .dxt5

/-- The 32-byte pixel-format block, absolute bytes 76 to 107 (R103, R104): size, flags, FourCC, bit count, masks. -/
def pixelFormat : Fmt → List Byte
  | .rgba =>
    bytesLE 32 4 ++ bytesLE ddpfRgbAlphaPixels 4 ++ bytesLE 0 4 ++ bytesLE 32 4 ++ bytesLE 0x000000FF 4
      ++ bytesLE 0x0000FF00 4 ++ bytesLE 0x00FF0000 4 ++ bytesLE 0xFF000000 4
  | .dxt1 => bytesLE 32 4 ++ bytesLE ddpfFourCC 4 ++ compTagBytes .dxt1 ++ List.replicate 20 0
  | .dxt5 => bytesLE 32 4 ++ bytesLE ddpfFourCC 4 ++ compTagBytes .dxt5 ++ List.replicate 20 0

/-- The flags field (R103, R104). -/
def headerFlags : Fmt → Nat
  | .rgba => flagsUncomp
  | .dxt1 => flagsComp
  | .dxt5 => flagsComp

/-- `BuildHeader(W, H, f)`, 128 bytes (R100, R103 to R105). -/
def buildHeader (w h : Nat) (f : Fmt) : List Byte :=
  magic ++ bytesLE 124 4 ++ bytesLE (headerFlags f) 4 ++ bytesLE h 4 ++ bytesLE w 4
    ++ bytesLE (pitchOrLinearSize w h f) 4 ++ List.replicate 52 0 ++ pixelFormat f
    ++ bytesLE ddscapsTexture 4 ++ List.replicate 16 0

/-- HDR_BUILD of a format (R102): the checks of R106 in order, then the header. -/
def hdrBuild (f : Fmt) (s : State) : Except Err Result :=
  if s.width = 0 ∨ s.height = 0 then .error .encode
  else if 2 ^ 32 ≤ pitchOrLinearSize s.width s.height f then .error .encode
  else .ok { x := s.x, out := buildHeader s.width s.height f }

/-- HDR_BUILD.RGBA (R102, R103). -/
def execHdrBuildRgba (s : State) : Host.Outcome State Fault Refusal := s.run [] (hdrBuild .rgba s)

/-- HDR_BUILD.DXT1 (R102, R104). -/
def execHdrBuildDxt1 (s : State) : Host.Outcome State Fault Refusal := s.run [] (hdrBuild .dxt1 s)

/-- HDR_BUILD.DXT5 (R102, R104). -/
def execHdrBuildDxt5 (s : State) : Host.Outcome State Fault Refusal := s.run [] (hdrBuild .dxt5 s)

/-! ## HDR_PARSE -/

/-- What `ParseHeader` reports (R110). -/
structure Header where
  /-- `width@16`. -/
  width : Nat
  /-- `height@12`. -/
  height : Nat
  /-- The four bytes at the canonical offset 84, as `LE32`, unresolved. -/
  fourCC : Nat
  /-- `pf.rgbBitCount@88`. -/
  bitCount : Nat
  /-- The pixel-format block, bytes 76 to 107. -/
  pf : List Byte
deriving DecidableEq, Repr

/-- `ParseHeader(bytes)` (R110): the length and the magic are checked and nothing else (R111). -/
def parseHeader (bs : List Byte) : Except Err Header :=
  if bs.length < 128 then .error .format
  else if slice bs 0 4 ≠ magic then .error .format
  else .ok
    { width := le (slice bs 16 4)
      height := le (slice bs 12 4)
      fourCC := le (slice bs 84 4)
      bitCount := le (slice bs 88 4)
      pf := slice bs 76 32 }

/-- The first 128 bytes of the input, or all of a shorter one. -/
def State.headerBytes (s : State) : List Byte := s.inBytes 0 (min s.inlen 128)

/-- The entry of HDR_PARSE, FCC_RESOLVE and DEC_FRAME (R110, R124, R251 lines 1 to 4): input capacity, short header, bad
magic, in that order. -/
def inputHeader (s : State) : Except Err Header :=
  if s.inlen > s.inst.ibuf.bytes then .error .capacity else parseHeader s.headerBytes

/-- The offsets HDR_PARSE, FCC_RESOLVE and DEC_FRAME read (R344): the magic once the input is long enough, and on an
accepted header those that `after` names. -/
def headerReads (after : Header → List Nat) (s : State) : List Nat :=
  (if s.inlen > s.inst.ibuf.bytes ∨ s.inlen < 128 then [] else List.range 4) ++
    match inputHeader s with
    | .ok h => after h
    | .error _ => []

/-- HDR_PARSE (R110). -/
def hdrParse (s : State) : Except Err Result :=
  match inputHeader s with
  | .error e => .error e
  | .ok h => .ok
    { x := { s.x with
        width := reg h.width, height := reg h.height, fourcc := reg h.fourCC, bitcount := reg h.bitCount, probe := 0 }
      out := h.pf }

/-- The offsets HDR_PARSE reads: the magic, height and width, and the pixel-format block (R110). -/
def hdrParseReads (s : State) : List Nat :=
  headerReads (fun _ => List.range' 12 8 ++ List.range' 76 32) s

/-- HDR_PARSE (R110). -/
def execHdrParse (s : State) : Host.Outcome State Fault Refusal := s.run (hdrParseReads s) (hdrParse s)

/-! ## FCC_RESOLVE -/

/-- What `ResolveFourCC` reports: the tag, the stage (0 canonical, 1 alternate, 2 scan, 3 nothing found) and the absolute
offset of the match (R121, R125). -/
structure Probe where
  /-- The tag, if one is found. -/
  tag : Option Tag
  /-- Which probe found it. -/
  stage : Nat
  /-- Where. -/
  off : Nat
deriving DecidableEq, Repr

/-- The canonical offset of the FourCC (R100). -/
def canonicalOff : Nat := 84

/-- Probe 2: every 4-byte window at offsets 4 to 124, ascending, the first match (R121, R123). -/
def scanHeader (hdr : List Byte) : Option Probe :=
  (List.range' 4 121).findSome? fun o =>
    (matchTag (slice hdr o 4)).map fun t => { tag := some t, stage := 2, off := o }

/-- Probe 1: the alternate offset, only when the canonical bytes are all zero (R121, R122). -/
def probeAlternate (alt : Nat) (hdr : List Byte) : Option Probe :=
  if slice hdr canonicalOff 4 = [0, 0, 0, 0] then
    (matchTag (slice hdr alt 4)).map fun t => { tag := some t, stage := 1, off := alt }
  else none

/-- Probe 0: the canonical offset (R121). -/
def probeCanonical (hdr : List Byte) : Option Probe :=
  (matchTag (slice hdr canonicalOff 4)).map fun t => { tag := some t, stage := 0, off := canonicalOff }

/-- `ResolveFourCC(hdr)`: the three probes in order, each at most once (R121, R306). -/
def resolveFourCC (alt : Nat) (hdr : List Byte) : Probe :=
  match probeCanonical hdr with
  | some p => p
  | none =>
    match probeAlternate alt hdr with
    | some p => p
    | none => (scanHeader hdr).getD { tag := none, stage := 3, off := 0 }

/-- `x[4]` of a probe: the tag, or 0 (R124). -/
def Probe.fourCC (p : Probe) : Nat :=
  match p.tag with
  | some t => tagWord t
  | none => 0

/-- `x[6]` of a probe: `stage | (off << 8)` (R125). -/
def Probe.word (p : Probe) : Nat := p.stage ||| (p.off <<< 8)

/-- The probe of the input's header (R121), with the instance's `ALT_FOURCC_OFF` (R349). -/
def inputProbe (s : State) : Probe := resolveFourCC s.inst.alt.off s.headerBytes

/-- FCC_RESOLVE (R124). It writes nothing to `OBUF` and raises no error for what the resolver finds. -/
def fccResolve (s : State) : Except Err Result :=
  match inputHeader s with
  | .error e => .error e
  | .ok h => .ok
    { x := { s.x with
        fourcc := reg (inputProbe s).fourCC, bitcount := reg h.bitCount, probe := reg (inputProbe s).word }
      out := [] }

/-- The offsets FCC_RESOLVE reads: the magic, and then the whole header, which is the resolver's operand (R72, R124). -/
def fccResolveReads (s : State) : List Nat := headerReads (fun _ => List.range 128) s

/-- FCC_RESOLVE (R124). -/
def execFccResolve (s : State) : Host.Outcome State Fault Refusal := s.run (fccResolveReads s) (fccResolve s)

end Sys2Proof.Machine
end

