-- ==== Sys2Proof/Machine/FrameDecode.lean ====
section
/-!
DEFINITION. Frame decode, the defensive decoder (45_frame_decode.md): the compressed branch over `DECOMP` (R260 to R264)
and the uncompressed branch (R265 to R268), in the line order of R251.
-/

namespace Sys2Proof.Machine

/-- The block size the decoder expects of a tag (R260). -/
def compBlockBytes : CompTag → Nat
  | .dxt1 => 8
  | .dxt3 => 16
  | .dxt5 => 16

/-- The byte at an index of a payload, whose length has been checked. -/
def byteAt (bs : List Byte) (i : Nat) : Byte := bs.getD i 0

/-- `Unpack24(payload, N)`: B, G, R in, R, G, B, 255 out (R266). -/
def unpack24 (payload : List Byte) (n : Nat) : List Byte :=
  (List.range n).flatMap fun j =>
    [byteAt payload (3 * j + 2), byteAt payload (3 * j + 1), byteAt payload (3 * j), 255]

/-- The red mask that means B, G, R, A order (R267). -/
def bgraRedMask : Nat := 0x00FF0000

/-- `Unpack32(payload, N, rmask)`: only the red mask is looked at, only for equality with 0x00FF0000 (R267, R268). -/
def unpack32 (payload : List Byte) (n rmask : Nat) : List Byte :=
  if rmask = bgraRedMask then
    (List.range n).flatMap fun j =>
      [byteAt payload (4 * j + 2), byteAt payload (4 * j + 1), byteAt payload (4 * j), byteAt payload (4 * j + 3)]
  else payload

/-- The checks of the compressed branch that come before `DECOMP` is asked, lines 10 to 12 of R251: payload length, then
output capacity. -/
def compressedCheck (obufBytes : Nat) (c : CompTag) (plen w h : Nat) : Option Err :=
  if plen ≠ nblocks w h * compBlockBytes c then some .size
  else if 4 * w * h > obufBytes then some .capacity
  else none

/-- The pixels of a stream with a compressed tag, lines 10 to 16 of R251. -/
def decodeCompressed (obufBytes : Nat) (c : CompTag) (payload : List Byte) (w h : Nat) : Except Err (List Byte) :=
  match compressedCheck obufBytes c payload.length w h with
  | some e => .error e
  | none =>
    match Config.decomp c payload w h with
    | none => .error .format
    | some pixels => if pixels.length ≠ 4 * w * h then .error .size else .ok pixels

/-- The checks of the uncompressed branch, lines 18 to 21 of R251: bit count, payload length, output capacity. -/
def uncompressedCheck (obufBytes bits plen w h : Nat) : Option Err :=
  if bits ≠ 24 ∧ bits ≠ 32 then some .format
  else if plen ≠ w * h * (bits / 8) then some .size
  else if 4 * w * h > obufBytes then some .capacity
  else none

/-- The pixels of a stream with no tag, lines 18 to 23 of R251. -/
def decodeUncompressed (obufBytes bits rmask : Nat) (payload : List Byte) (w h : Nat) : Except Err (List Byte) :=
  match uncompressedCheck obufBytes bits payload.length w h with
  | some e => .error e
  | none => .ok (if bits = 24 then unpack24 payload (w * h) else unpack32 payload (w * h) rmask)

/-- The branch on the resolved tag, lines 8, 9 and 17 of R251. -/
def decodePixels (s : State) (hdr : Header) (payload : List Byte) : Except Err (List Byte) :=
  match (inputProbe s).tag with
  | some .dx10 => .error .format
  | some (.comp c) => decodeCompressed s.inst.obuf.bytes c payload hdr.width hdr.height
  | none => decodeUncompressed s.inst.obuf.bytes hdr.bitCount (s.memRead 92 4) payload hdr.width hdr.height

/-- DEC_FRAME (R251). -/
def decFrame (s : State) : Except Err Result :=
  match inputHeader s with
  | .error e => .error e
  | .ok h =>
    if h.width = 0 ∨ h.height = 0 then .error .format
    else
      match decodePixels s h (s.inBytes 128 (s.inlen - 128)) with
      | .error e => .error e
      | .ok pixels => .ok
        { x := { s.x with
            width := reg h.width, height := reg h.height, fourcc := reg (inputProbe s).fourCC,
            bitcount := reg h.bitCount, probe := reg (inputProbe s).word }
          out := pixels }

/-- The check that stops a decode before it reads the payload, if one does: lines 8 to 12 and 18 to 21 of R251. -/
def payloadCheck (s : State) (hdr : Header) : Option Err :=
  match (inputProbe s).tag with
  | some .dx10 => some .format
  | some (.comp c) => compressedCheck s.inst.obuf.bytes c (s.inlen - 128) hdr.width hdr.height
  | none => uncompressedCheck s.inst.obuf.bytes hdr.bitCount (s.inlen - 128) hdr.width hdr.height

/-- The offsets DEC_FRAME reads on an accepted header, line by line of R251 (R344): height, width and bit count (line 4);
unless a dimension is 0, the whole header for the resolver (line 6); and once the checks pass, the payload. -/
def decodeReads (s : State) (hdr : Header) : List Nat :=
  List.range' 12 8 ++ List.range' 88 4 ++
    if hdr.width = 0 ∨ hdr.height = 0 then []
    else List.range 128 ++ if payloadCheck s hdr = none then List.range' 128 (s.inlen - 128) else []

/-- The offsets DEC_FRAME reads. -/
def decFrameReads (s : State) : List Nat := headerReads (decodeReads s) s

/-- DEC_FRAME (R251). -/
def execDecFrame (s : State) : Host.Outcome State Fault Refusal := s.run (decFrameReads s) (decFrame s)

end Sys2Proof.Machine
end

