-- ==== Sys2Proof/Machine/BitPack.lean ====
section
/-!
DEFINITION. The bit packers and unpackers (43_bitpack.md): PACK2, PACK3, UNPACK2, UNPACK3.
-/

namespace Sys2Proof.Machine

/-- The entry checks of every block operation (R155, R186, R202 to R205): input capacity, then the exact input length
(decision D25), then the operation on `IBUF[0 .. need)`, which cannot fail (R302). -/
def blockOp (need : Nat) (f : State → List Byte) (s : State) : Except Err Result :=
  if s.inlen > s.inst.ibuf.bytes then .error .capacity
  else if s.inlen ≠ need then .error .encode
  else .ok { x := s.x, out := f s }

/-- The 16 input bytes masked to `w` bits (R206). -/
def maskedInputs (w : Nat) (s : State) : List Nat :=
  (s.inBytes 0 16).map fun b => b.toNat &&& (2 ^ w - 1)

/-- PACK2 and PACK3 on `w`-bit fields: `2 * w` output bytes (R202, R203). -/
def packBytes (w : Nat) (s : State) : List Byte :=
  bytesLE (packFields w (maskedInputs w s)) (2 * w)

/-- UNPACK2 and UNPACK3 on `w`-bit fields: `2 * w` input bytes, one output byte for each field (R204, R205). -/
def unpackBytes (w : Nat) (s : State) : List Byte :=
  (unpackFields w (s.memRead 0 (2 * w))).map (BitVec.ofNat 8)

/-- A block operation on `IBUF[0 .. need)`, of which it reads the offsets `offs` (R344). -/
def runBlock (need : Nat) (offs : List Nat) (f : State → List Byte) (s : State) : Host.Outcome State Fault Refusal :=
  s.run (readsAfterChecks (blockOp need f s) offs) (blockOp need f s)

/-- PACK2 (R202). -/
def execPack2 (s : State) : Host.Outcome State Fault Refusal :=
  runBlock 16 (List.range 16) (packBytes 2) s

/-- PACK3 (R203). -/
def execPack3 (s : State) : Host.Outcome State Fault Refusal :=
  runBlock 16 (List.range 16) (packBytes 3) s

/-- UNPACK2 (R204). -/
def execUnpack2 (s : State) : Host.Outcome State Fault Refusal :=
  runBlock 4 (List.range 4) (unpackBytes 2) s

/-- UNPACK3 (R205). -/
def execUnpack3 (s : State) : Host.Outcome State Fault Refusal :=
  runBlock 6 (List.range 6) (unpackBytes 3) s

end Sys2Proof.Machine
end

