-- ==== Sys2Proof/Machine/Bc1.lean ====
section
/-!
DEFINITION. The BC1 colour block compressor (41_bc1.md): the exact line fit `BC1_FIT` (R143 to R148), quantisation,
ordering, palette, indices (R149 to R154), and BC1_ENC (R155). Only the PCA variant exists (R158).
-/

namespace Sys2Proof.Machine

/-- A line fit: from 16 samples to the two unquantised endpoints `e_hi` and `e_lo` (R5 `BC1_FIT`). -/
abbrev Fit := List Rgb → V3 Ratio × V3 Ratio

/-- The samples as integers. -/
def intSamples (ps : List Rgb) : List (V3 Int) := ps.map (V3.map Int.ofNat)

/-- `S`, the channel sums (R143). -/
def sampleSum (ps : List Rgb) : V3 Int := V3.sum (intSamples ps)

/-- `d_i = 16 * p_i - S`, the centred samples (R143). -/
def centred (ps : List Rgb) : List (V3 Int) :=
  (intSamples ps).map fun p => V3.zip (fun a s => 16 * a - s) p (sampleSum ps)

/-- The scatter matrix `M = sum d_i d_i^T`, by rows (R143). -/
def scatter (ds : List (V3 Int)) : V3 (V3 Int) where
  r := V3.sum (ds.map fun d => d.map (d.r * ·))
  g := V3.sum (ds.map fun d => d.map (d.g * ·))
  b := V3.sum (ds.map fun d => d.map (d.b * ·))

/-- The matrix-vector product `M * v`. -/
def mulVec (m : V3 (V3 Int)) (v : V3 Int) : V3 Int := m.map fun row => row.dot v

/-- `n` iterations of `v <- M * v` (R148: no normalisation). -/
def powerIterate (m : V3 (V3 Int)) : Nat → V3 Int → V3 Int
  | 0, v => v
  | n + 1, v => powerIterate m n (mulVec m v)

/-- `BC1_ITERS` (R5). -/
def bc1Iters : Nat := 5

/-- The unnormalised axis `v = M^5 (1,1,1)` (R144, R148). -/
def axis (ps : List Rgb) : V3 Int := powerIterate (scatter (centred ps)) bc1Iters ⟨1, 1, 1⟩

/-- The mean `S/16` as an endpoint (R147). -/
def meanEndpoint (ps : List Rgb) : V3 Ratio := (sampleSum ps).map fun s => ⟨s, 16⟩

/-- The endpoint `S/16 + (v * t) / (16 * (v . v))` at the projection `t`, over the common denominator (R146, R148). -/
def lineEndpoint (ps : List Rgb) (t : Int) : V3 Ratio :=
  let v := axis ps
  let q := v.dot v
  V3.zip (fun s vc => ⟨s * q + vc * t, (16 * q).toNat⟩) (sampleSum ps) v

/-- `BC1_FIT`, the reference definition in exact arithmetic (R148). -/
def bc1Fit : Fit := fun ps =>
  let v := axis ps
  if v = ⟨0, 0, 0⟩ then (meanEndpoint ps, meanEndpoint ps)
  else
    let ts := (centred ps).map v.dot
    (lineEndpoint ps (maxInt ts), lineEndpoint ps (minInt ts))

/-- The packed 5:6:5 value of an 8-bit colour: R5 in [15:11], G6 in [10:5], B5 in [4:0] (R142, R149). -/
def pack565 (c : V3 Nat) : Nat :=
  ((c.r >>> 3) <<< 11) ||| ((c.g >>> 2) <<< 5) ||| (c.b >>> 3)

/-- `Q565(e)` (R149). -/
def q565 (e : V3 Ratio) : Nat := pack565 (e.map Ratio.toByte)

/-- `EXP(c)`: the 8-bit colour of a packed value, by bit replication (R151). -/
def expand565 (c : Nat) : V3 Nat :=
  let r := (c >>> 11) &&& 0x1F
  let g := (c >>> 5) &&& 0x3F
  let b := c &&& 0x1F
  ⟨(r <<< 3) ||| (r >>> 2), (g <<< 2) ||| (g >>> 4), (b <<< 3) ||| (b >>> 2)⟩

/-- The four palette entries of two endpoints (R152). -/
def bc1Palette (c0 c1 : Nat) : List Rgb :=
  let p0 := expand565 c0
  let p1 := expand565 c1
  [p0, p1, V3.zip (fun a b => rdiv (2 * a + b) 3) p0 p1, V3.zip (fun a b => rdiv (a + 2 * b) 3) p0 p1]

/-- `dist2(p, q)`, the squared RGB distance (R153). -/
def dist2 (p q : Rgb) : Nat :=
  let sq := fun (a b : Nat) => (((a : Int) - b) ^ 2).toNat
  sq p.r q.r + sq p.g q.g + sq p.b q.b

/-- The index of a sample: the nearest palette entry, the lowest on a tie (R153). -/
def bc1Index (palette : List Rgb) (p : Rgb) : Nat := argmin (palette.map (dist2 p))

/-- The ordered endpoints `(c0, c1)`, `c0 >= c1` (R150). -/
def orderEndpoints (cA cB : Nat) : Nat × Nat := if cA < cB then (cB, cA) else (cA, cB)

/-- The endpoints a block is stored with, for a given fit (R149, R150). -/
def bc1Endpoints (fit : Fit) (ps : List Rgb) : Nat × Nat :=
  orderEndpoints (q565 (fit ps).1) (q565 (fit ps).2)

/-- The 16 indices of a block (R153). -/
def bc1Indices (fit : Fit) (ps : List Rgb) : List Nat :=
  let c := bc1Endpoints fit ps
  ps.map (bc1Index (bc1Palette c.1 c.2))

/-- `BC1(p_0 .. p_15)` over any fit: two endpoints and the index word, little-endian (R141, R154, R155). -/
def bc1With (fit : Fit) (ps : List Rgb) : List Byte :=
  let c := bc1Endpoints fit ps
  bytesLE c.1 2 ++ bytesLE c.2 2 ++ bytesLE (packFields 2 (bc1Indices fit ps)) 4

/-- A component of another evaluation's endpoint. -/
def ratioOf (q : Int × Nat) : Ratio := ⟨q.1, q.2 + 1⟩

/-- The function an instance has for `BC1_FIT` (R5, R148). -/
def fitOf : FitChoice → Fit
  | .reference => bc1Fit
  | .other n => fun ps => ((Config.otherFit n ps).1.map ratioOf, (Config.otherFit n ps).2.map ratioOf)

/-- `BC1(p_0 .. p_15)`, with the one `BC1_FIT` the instance has (R148, R348). -/
def bc1 (c : FitChoice) (ps : List Rgb) : List Byte := bc1With (fitOf c) ps

/-- The RGB of the sample at byte offset `o` of `IBUF`; its alpha at `o + 3` is not read (R140, R157). -/
def State.rgbAt (s : State) (o : Nat) : Rgb :=
  ⟨(s.inByte o).toNat, (s.inByte (o + 1)).toNat, (s.inByte (o + 2)).toNat⟩

/-- The 16 samples of BC1_ENC (R140, R155). -/
def State.bc1Samples (s : State) : List Rgb := (List.range 16).map fun i => s.rgbAt (4 * i)

/-- The offsets BC1_ENC reads: all 64 but the alpha bytes (R344). -/
def bc1Reads : List Nat := (List.range 64).filter fun k => k % 4 ≠ 3

/-- BC1_ENC (R155). -/
def execBc1Enc (s : State) : Host.Outcome State Fault Refusal :=
  runBlock 64 bc1Reads (fun s => bc1 s.inst.fit s.bc1Samples) s

end Sys2Proof.Machine
end

