-- ==== Sys2Proof/Machine/Bc3Alpha.lean ====
section
/-!
DEFINITION. The BC3 alpha block compressor (42_bc3_alpha.md): endpoints, the two ramps, indices (R182 to R185), and
BC3A_ENC (R186).
-/

namespace Sys2Proof.Machine

/-- The 8-value ramp, for `a0 > a1` (R183). -/
def ramp8 (a0 a1 : Nat) : List Nat :=
  [a0, a1] ++ (List.range' 1 6).map fun i => rdiv ((7 - i) * a0 + i * a1) 7

/-- The fixed-extremes ramp, for `a0 = a1` (R184). -/
def rampFixed (a0 a1 : Nat) : List Nat :=
  [a0, a1] ++ ((List.range' 1 4).map fun i => rdiv ((5 - i) * a0 + i * a1) 5) ++ [0, 255]

/-- The alpha palette of two endpoints (R183, R184). -/
def alphaPalette (a0 a1 : Nat) : List Nat := if a0 > a1 then ramp8 a0 a1 else rampFixed a0 a1

/-- The index of a sample: the nearest palette value, the lowest index on a tie (R185). -/
def alphaIndex (palette : List Nat) (a : Nat) : Nat :=
  argmin (palette.map fun p : Nat => ((a : Int) - (p : Int)).natAbs)

/-- The 16 indices of a block (R185). -/
def alphaIndices (als : List Nat) : List Nat :=
  als.map (alphaIndex (alphaPalette (maxNat als) (minNat als)))

/-- `BC3A(al_0 .. al_15)`: maximum, minimum, and the 48-bit index field, little-endian (R181, R182, R186). -/
def bc3a (als : List Nat) : List Byte :=
  [BitVec.ofNat 8 (maxNat als), BitVec.ofNat 8 (minNat als)] ++ bytesLE (packFields 3 (alphaIndices als)) 6

/-- The 16 alpha samples of BC3A_ENC (R180). -/
def State.alphaSamples (s : State) : List Nat := (s.inBytes 0 16).map BitVec.toNat

/-- BC3A_ENC (R186). -/
def execBc3aEnc (s : State) : Host.Outcome State Fault Refusal :=
  runBlock 16 (List.range 16) (fun s => bc3a s.alphaSamples) s

end Sys2Proof.Machine
end

