-- ==== Sys2Proof/Machine/FrameEncode.lean ====
section
/-!
DEFINITION. Frame encode (44_frame_encode.md): the checks of R221 and R222, the lossless path (R223), block gathering
(R225), block order (R226) and the two compressed payloads (R227, R228).
-/

namespace Sys2Proof.Machine

/-- `PAYLOAD(W, H, f)` (R220). -/
def payloadLength (w h : Nat) : Fmt → Nat
  | .rgba => 4 * w * h
  | .dxt1 => 8 * nblocks w h
  | .dxt5 => 16 * nblocks w h

/-- The pixel of sample `i` of block `(bx, by)`: its index `Y * W + X` in the image, none outside it (R225). -/
def samplePixel (w h bx by' i : Nat) : Option Nat :=
  let px := 4 * bx + i % 4
  let py := 4 * by' + i / 4
  if px < w ∧ py < h then some (py * w + px) else none

/-- The RGB of the samples of `Gather(bx, by)`: zero outside the image (R53, R225). -/
def gatherRgb (s : State) (bx by' : Nat) : List Rgb :=
  (List.range 16).map fun i =>
    match samplePixel s.width s.height bx by' i with
    | some j => s.rgbAt (4 * j)
    | none => ⟨0, 0, 0⟩

/-- The alpha of the samples of `Gather(bx, by)`: zero outside the image (R53, R225). -/
def gatherAlpha (s : State) (bx by' : Nat) : List Nat :=
  (List.range 16).map fun i =>
    match samplePixel s.width s.height bx by' i with
    | some j => (s.inByte (4 * j + 3)).toNat
    | none => 0

/-- The bytes of block `(bx, by)` (R227, R228): DXT5 is 8 alpha bytes and then 8 colour bytes. -/
def blockOf (s : State) (bx by' : Nat) : Fmt → List Byte
  | .rgba => []
  | .dxt1 => bc1 s.inst.fit (gatherRgb s bx by')
  | .dxt5 => bc3a (gatherAlpha s bx by') ++ bc1 s.inst.fit (gatherRgb s bx by')

/-- The blocks in order: left to right, top to bottom (R226). -/
def blockPayload (f : Fmt) (s : State) : List Byte :=
  (List.range (ceil4 s.height)).flatMap fun by' =>
    (List.range (ceil4 s.width)).flatMap fun bx => blockOf s bx by' f

/-- The payload of a frame (R223, R227, R228). -/
def framePayload (f : Fmt) (s : State) : List Byte :=
  match f with
  | .rgba => s.inBytes 0 (4 * s.width * s.height)
  | .dxt1 => blockPayload .dxt1 s
  | .dxt5 => blockPayload .dxt5 s

/-- The `LINEARSIZE` check of R221 and R222 (4), which the lossless format does not have. -/
def linearSizeFits (w h : Nat) : Fmt → Bool
  | .rgba => true
  | .dxt1 => linearSize w h .dxt1 < 2 ^ 32
  | .dxt5 => linearSize w h .dxt5 < 2 ^ 32

/-- ENC_FRAME of a format (R221): the checks in the order of the rule, then header and payload (R220). -/
def encFrame (f : Fmt) (s : State) : Except Err Result :=
  let w := s.width
  let h := s.height
  if s.inlen > s.inst.ibuf.bytes then .error .capacity
  else if w = 0 ∨ h = 0 then .error .encode
  else if 2 ^ 32 ≤ 4 * w * h then .error .encode
  else if s.inlen ≠ 4 * w * h then .error .encode
  else if linearSizeFits w h f = false then .error .encode
  else if 128 + payloadLength w h f > s.inst.obuf.bytes then .error .capacity
  else .ok { x := s.x, out := buildHeader w h f ++ framePayload f s }

/-- The offsets ENC_FRAME reads once its checks pass: the image, for DXT1 without the alpha bytes (R344). -/
def imageReads (f : Fmt) (s : State) : List Nat :=
  match f with
  | .rgba => List.range (4 * s.width * s.height)
  | .dxt1 => (List.range (4 * s.width * s.height)).filter fun k => k % 4 ≠ 3
  | .dxt5 => List.range (4 * s.width * s.height)

/-- The offsets ENC_FRAME reads: none if a check fails (R221, R344). -/
def encFrameReads (f : Fmt) (s : State) : List Nat := readsAfterChecks (encFrame f s) (imageReads f s)

/-- ENC_FRAME.RGBA (R221, R223). -/
def execEncFrameRgba (s : State) : Host.Outcome State Fault Refusal := s.run (encFrameReads .rgba s) (encFrame .rgba s)

/-- ENC_FRAME.DXT1 (R221, R227). -/
def execEncFrameDxt1 (s : State) : Host.Outcome State Fault Refusal := s.run (encFrameReads .dxt1 s) (encFrame .dxt1 s)

/-- ENC_FRAME.DXT5 (R221, R228). -/
def execEncFrameDxt5 (s : State) : Host.Outcome State Fault Refusal := s.run (encFrameReads .dxt5 s) (encFrame .dxt5 s)

end Sys2Proof.Machine
end

