-- ==== Sys2Proof/Machine/Dispatch.lean ====
section
/-!
DEFINITION. One arm per command (30_encoding.md R72), each one call of its meaning.
-/

namespace Sys2Proof.Machine

/-- The meaning of a command. -/
def exec (i : Instr) (s : State) : Host.Outcome State Fault Refusal :=
  match i with
  | .hdrBuildRgba => Sys2Proof.Machine.execHdrBuildRgba s
  | .hdrBuildDxt1 => Sys2Proof.Machine.execHdrBuildDxt1 s
  | .hdrBuildDxt5 => Sys2Proof.Machine.execHdrBuildDxt5 s
  | .hdrParse => Sys2Proof.Machine.execHdrParse s
  | .fccResolve => Sys2Proof.Machine.execFccResolve s
  | .bc1Enc => Sys2Proof.Machine.execBc1Enc s
  | .bc3aEnc => Sys2Proof.Machine.execBc3aEnc s
  | .pack2 => Sys2Proof.Machine.execPack2 s
  | .pack3 => Sys2Proof.Machine.execPack3 s
  | .unpack2 => Sys2Proof.Machine.execUnpack2 s
  | .unpack3 => Sys2Proof.Machine.execUnpack3 s
  | .encFrameRgba => Sys2Proof.Machine.execEncFrameRgba s
  | .encFrameDxt1 => Sys2Proof.Machine.execEncFrameDxt1 s
  | .encFrameDxt5 => Sys2Proof.Machine.execEncFrameDxt5 s
  | .decFrame => Sys2Proof.Machine.execDecFrame s

end Sys2Proof.Machine
end

