-- ==== Sys2Proof/Machine/HostActions.lean ====
section
/-!
DEFINITION. What the block does on each host action: the register, buffer and trigger writes of 10_state.md R22, R27, R28,
R30, R31, the script actions of 30_encoding.md R79, and reset (70_reset_and_hazards.md R340).
-/

namespace Sys2Proof.Machine

/-- A write of `w` to `CMD` (R27): the legality of the word is decided first (R75); a legal word runs, any other raises
`IllegalCommand` (R74). -/
def runCommand (w : Word) (s : State) : Host.Outcome State Fault Refusal :=
  match decode w with
  | .ok i => exec i s
  | .error _ => .next (s.raise .illegalCommand)

/-- A host write of one `IBUF` byte (R30). -/
def hostWriteIbuf (k : Nat) (b : Byte) (s : State) : Host.Outcome State Fault Refusal :=
  if k < s.inst.ibuf.bytes then .next { s with ibuf := s.ibuf.write k b } else .fault .hostOffset

/-- A host write of one `OBUF` byte, ignored (R31). -/
def hostWriteObuf (k : Nat) (s : State) : Host.Outcome State Fault Refusal :=
  if k < s.inst.obuf.bytes then .next s else .fault .hostOffset

/-- `LOAD` (R79). -/
def hostLoad (bs : List Byte) (s : State) : Host.Outcome State Fault Refusal :=
  if bs.length ≤ s.inst.ibuf.bytes then
    .next { s with ibuf := s.ibuf.writeBytes 0 bs, x := { s.x with inlen := reg bs.length } }
  else .fault .hostOffset

/-- `MOVE n` (R79): the host reads `OBUF[0..n)` and then loads it. A byte with no value is read as R345 says. -/
def hostMove (n : Nat) (s : State) : Host.Outcome State Fault Refusal :=
  if n ≤ s.inst.obuf.bytes then hostLoad (s.hostReadObufBytes n) s else .fault .hostOffset

/-- One host action. -/
def hostStep (a : HostAction) (s : State) : Host.Outcome State Fault Refusal :=
  match a with
  | .setX i v => .next { s with x := s.x.set i v }
  | .writeIbuf k b => hostWriteIbuf k b s
  | .writeObuf k _ => hostWriteObuf k s
  | .writeStatus _ => .next s
  | .writeCmd w => runCommand w s
  | .load bs => hostLoad bs s
  | .move n => hostMove n s
  | .reset => .next s.applyReset

end Sys2Proof.Machine
end

