-- ==== Sys2Proof/Machine/Step.lean ====
section
/-!
DEFINITION. One step of the machine: the next host action, or nothing. The block fetches no instructions (10_state.md
R24); a command runs when the host writes its word to `CMD`, in the order of the host's writes (20_memory.md R58).
-/

namespace Sys2Proof.Machine

/-- One step: the oldest pending host action, with the later ones still to come. With none the block is idle and keeps
everything (60_exceptions.md R316). -/
def step (s : State) : Host.Outcome State Fault Refusal :=
  match s.host with
  | [] => .next s
  | a :: rest => hostStep a { s with host := rest }

/-- The state in which the host's next action is a write to `CMD` of the word whose bits are `w`, the bits at or above
`nbits` zero, and its other actions come after it. -/
def State.withFetchWord (s : State) (nbits w : Nat) : State :=
  { s with host := .writeCmd (BitVec.ofNat 32 (w % 2 ^ nbits)) :: s.host }

end Sys2Proof.Machine
end

