-- ==== Sys2Proof/Safety.lean ====
section
/-!
DEFINITION. What counts as a good state of the block, and the vocabulary the statements speak in: a completed command, an
accepted header, the resolver's outcome and a nearest palette entry, each said declaratively from the spec and not by the
functions that compute it.
-/

namespace Sys2Proof.Machine

/-- `STATUS` holds a value the spec admits: 0 after reset, or `DONE` with an `ERR` of 0 to 5 and every other bit 0
(R28, R35, R301). -/
def statusLegal (w : Word) : Prop :=
  w = 0x00#32 ∨ w = 0x80#32 ∨ w = 0x81#32 ∨ w = 0x82#32 ∨ w = 0x83#32 ∨ w = 0x84#32 ∨ w = 0x85#32

/-- The invariant of the block: both buffers are in canonical form and lie inside their capacities, the defined bytes of
`OBUF` are exactly an initial segment (R31), and `STATUS` is legal (R28). -/
structure State.Inv (s : State) : Prop where
  /-- `IBUF`'s canonical form. -/
  ibufWf : s.ibuf.wf
  /-- No `IBUF` byte lies at or beyond `IBUF_BYTES` (R30). -/
  ibufBound : ∀ c ∈ s.ibuf, c.1 < s.inst.ibuf.bytes
  /-- `OBUF`'s defined bytes are those from 0 to some length. -/
  obufSegment : s.obuf.map Prod.fst = List.range s.obuf.length
  /-- No `OBUF` byte lies at or beyond `OBUF_BYTES` (R31). -/
  obufBound : s.obuf.length ≤ s.inst.obuf.bytes
  /-- `STATUS` is legal. -/
  status : statusLegal s.status

/-- `t` is what `s` becomes when a command succeeds with registers `x` (but for `x[3]`) and output bytes `out` (R303):
`x[3]` is the length, `STATUS` is `DONE` with `ERR = 0`, `OBUF` has the output and no byte beyond it has a value (R31),
and everything else is as it was. -/
structure Completes (s t : State) (x : Regs) (out : List Byte) : Prop where
  /-- The registers. -/
  regs : t.x = { x with outlen := BitVec.ofNat 32 out.length }
  /-- The length is not cut by the register. -/
  fits : out.length < 2 ^ 32
  /-- `STATUS`. -/
  status : t.status = 0x80#32
  /-- Every output byte is in `OBUF` at its offset. -/
  written : ∀ k b, out[k]? = some b → t.obuf.get? k = some b
  /-- No byte at or beyond `x[3]` has a value. -/
  beyond : ∀ k, out.length ≤ k → t.obuf.get? k = none
  /-- `IBUF` is unchanged, every byte of it. -/
  ibuf : t.ibuf = s.ibuf ∧ t.ibufEpoch = s.ibufEpoch
  /-- The instance and the host's later actions are unchanged. -/
  rest : t.inst = s.inst ∧ t.host = s.host

/-- The input passes the three checks of HDR_PARSE, FCC_RESOLVE and DEC_FRAME (R110): it fits `IBUF`, has 128 bytes, and
begins with `44 44 53 20`, which the host has written. -/
structure HeaderAccepted (s : State) : Prop where
  /-- `x[2] <= IBUF_BYTES`. -/
  fits : s.inlen ≤ s.inst.ibuf.bytes
  /-- `x[2] >= 128`. -/
  long : 128 ≤ s.inlen
  /-- The host has written the first four bytes (R343). -/
  written : ∀ k < 4, s.written k
  /-- The magic. -/
  magic : s.inBytes 0 4 = [0x44, 0x44, 0x53, 0x20]

/-- The 4-byte window at `o` of a header is a known tag. -/
def WindowIs (hdr : List Byte) (o : Nat) (t : Tag) : Prop := slice hdr o 4 = tagBytes t

/-- The window at `o` is no known tag. -/
def NoTagAt (hdr : List Byte) (o : Nat) : Prop := ∀ t, ¬ WindowIs hdr o t

/-- The outcome of `ResolveFourCC` on a 128-byte header (R121), said declaratively: the canonical offset first, then the
alternate one if the canonical bytes are all zero, then the first match of the scan at 4 to 124, else nothing. -/
def Resolves (alt : Nat) (hdr : List Byte) (tag : Option Tag) (stage off : Nat) : Prop :=
  (stage = 0 ∧ off = 84 ∧ ∃ t, tag = some t ∧ WindowIs hdr 84 t) ∨
  (stage = 1 ∧ off = alt ∧ slice hdr 84 4 = [0, 0, 0, 0] ∧ ∃ t, tag = some t ∧ WindowIs hdr alt t) ∨
  (NoTagAt hdr 84 ∧ (slice hdr 84 4 = [0, 0, 0, 0] → NoTagAt hdr alt) ∧
    ((stage = 2 ∧ 4 ≤ off ∧ off ≤ 124 ∧ (∃ t, tag = some t ∧ WindowIs hdr off t) ∧
        ∀ o, 4 ≤ o → o < off → NoTagAt hdr o) ∨
      (stage = 3 ∧ off = 0 ∧ tag = none ∧ ∀ o, 4 ≤ o → o ≤ 124 → NoTagAt hdr o)))

/-- `x[4]` of a resolved tag: the tag as `LE32` of its bytes, or 0 (R124). -/
def fourCCOf : Option Tag → Nat
  | some t => le (tagBytes t)
  | none => 0

/-- `k` is `argmin` (R10): the entry at `k` has the least cost, and every entry before it a greater one. -/
def NearestLowest {α : Type} (cost : α → Nat) (entries : List α) (k : Nat) : Prop :=
  ∃ a, entries[k]? = some a ∧ (∀ b ∈ entries, cost a ≤ cost b) ∧
    ∀ j b, j < k → entries[j]? = some b → cost a < cost b

/-- The registers DEC_FRAME reports (R251 lines 25 and 26). -/
def DecodedRegs (s : State) (tag : Option Tag) (stage off : Nat) : Regs :=
  { s.x with
    width := BitVec.ofNat 32 (s.memRead 16 4), height := BitVec.ofNat 32 (s.memRead 12 4)
    fourcc := BitVec.ofNat 32 (fourCCOf tag), bitcount := BitVec.ofNat 32 (s.memRead 88 4)
    probe := BitVec.ofNat 32 (stage + 256 * off) }

/-- The dimensions for which the lossless round trip does not hold (table of R229): height, width, width and pitch, or
pitch spells a known tag. -/
def RoundTripException (w h : Nat) : Prop :=
  (w = 1 ∧ h ∈ [0x31545844, 0x33545844, 0x35545844, 0x30315844]) ∨
  (h = 1 ∧ w ∈ [0x31545844, 0x33545844, 0x35545844, 0x30315844]) ∨
  (h = 1 ∧ w ∈ [0x3158440C, 0x3158444C, 0x3158448C, 0x315844CC]) ∨
  (w = 0x0C551611 ∧ h ≤ 5) ∨ (w = 0x0CD51611 ∧ h ≤ 4) ∨ (w = 0x0D551611 ∧ h ≤ 4) ∨ (w = 0x0C0C5611 ∧ h ≤ 5)

end Sys2Proof.Machine
end

