-- ==== Sys2Proof/Certificates/Slice0/Obligations.lean ====
section
/-!
DEFINITION. The statements about the block, each from a numbered rule of the spec.
-/

open Sys2Proof Sys2Proof.Machine

/-! ## Commands, decoding, host actions, reset -/

/-- R72: the fifteen legal words and the commands they encode. -/
def Obligations.SpecWordsDecode : Prop :=
  decode 0x00000001#32 = .ok .hdrBuildRgba ∧ decode 0x00000101#32 = .ok .hdrBuildDxt1 ∧
  decode 0x00000201#32 = .ok .hdrBuildDxt5 ∧ decode 0x00000002#32 = .ok .hdrParse ∧
  decode 0x00000003#32 = .ok .fccResolve ∧ decode 0x00000010#32 = .ok .bc1Enc ∧
  decode 0x00000011#32 = .ok .bc3aEnc ∧ decode 0x00000020#32 = .ok .pack2 ∧
  decode 0x00000021#32 = .ok .pack3 ∧ decode 0x00000022#32 = .ok .unpack2 ∧
  decode 0x00000023#32 = .ok .unpack3 ∧ decode 0x00000030#32 = .ok .encFrameRgba ∧
  decode 0x00000130#32 = .ok .encFrameDxt1 ∧ decode 0x00000230#32 = .ok .encFrameDxt5 ∧
  decode 0x00000031#32 = .ok .decFrame

/-- R70, R74: a word decodes to a command exactly when it is the word that encodes it, so every bit of the word counts and
there are fifteen legal words. -/
def Obligations.DecodeAndEncodeAgree : Prop :=
  ∀ (w : Word) (i : Instr), decode w = .ok i ↔ w = encode i

/-- R74: a word is legal exactly when `ZERO` is 0, `OPC` is assigned and `FMT` is one allowed for that `OPC`. -/
def Obligations.LegalExactlyWhenDecoded : Prop :=
  ∀ w : Word, (∃ i, decode w = .ok i) ↔
    w.toNat / 1024 = 0 ∧
      ((w.toNat % 256 ∈ [0x01, 0x30] ∧ w.toNat / 256 % 4 ∈ [0, 1, 2]) ∨
        (w.toNat % 256 ∈ [0x02, 0x03, 0x10, 0x11, 0x20, 0x21, 0x22, 0x23, 0x31] ∧ w.toNat / 256 % 4 = 0))

/-- R74, R75: an illegal word written to `CMD` raises `IllegalCommand`, whatever the registers and buffers hold, and
changes nothing but `STATUS`. -/
def Obligations.IllegalWordRaisesIllegalCommand : Prop :=
  ∀ (s : State) (w : Word) (rest : List HostAction), s.host = .writeCmd w :: rest → (∀ i, decode w ≠ .ok i) →
    step s = .next { s with host := rest, status := 0x84#32 }

/-- R27, R58: when the host's next action writes a legal word to `CMD`, the step is the meaning of the command it encodes,
with the host's later actions still to come. -/
def Obligations.StepRunsTheDecodedCommand : Prop :=
  ∀ (s : State) (w : Word) (i : Instr) (rest : List HostAction), s.host = .writeCmd w :: rest → decode w = .ok i →
    step s = exec i { s with host := rest }

/-- R300, R304, R343 (what a command reads: R344 and log entry 1): every command answers a next state, in which it has
succeeded, or has raised one of its errors and changed nothing but `STATUS`; the one exception is a command that reads
`IBUF` and finds a byte below `x[2]` that the host has not written, which may take no step. -/
def Obligations.EveryCommandSucceedsOrOnlyReports : Prop :=
  ∀ (i : Instr) (s : State),
    (∃ t, exec i s = .next t ∧
      (t.status = 0x80#32 ∨
        ∃ code ∈ [0x81#32, 0x82#32, 0x83#32, 0x85#32], t = { s with status := code })) ∨
    (exec i s = .fault .unwrittenInput ∧ i ∉ [.hdrBuildRgba, .hdrBuildDxt1, .hdrBuildDxt5] ∧
      ∃ k < s.inlen, s.written k = false)

/-- R30, R347, R21, R303: what every command leaves unchanged: `IBUF`, `x[2]`, the instance and the host's actions always;
`x[0]` and `x[1]` except for HDR_PARSE and DEC_FRAME; `x[4]` to `x[6]` except for these and FCC_RESOLVE. -/
def Obligations.CommandFrame : Prop :=
  ∀ (i : Instr) (s t : State), exec i s = .next t →
    t.ibuf = s.ibuf ∧ t.ibufEpoch = s.ibufEpoch ∧ t.inst = s.inst ∧ t.host = s.host ∧ t.x.inlen = s.x.inlen ∧
    (i ∉ [.hdrParse, .decFrame] → t.x.width = s.x.width ∧ t.x.height = s.x.height) ∧
    (i ∉ [.hdrParse, .fccResolve, .decFrame] →
      t.x.fourcc = s.x.fourcc ∧ t.x.bitcount = s.x.bitcount ∧ t.x.probe = s.x.probe)

/-- R31: a successful command gives a value to the bytes `OBUF[0 .. x[3])` and to no other, and they lie inside `OBUF`
(R57). -/
def Obligations.SuccessDefinesOutputBytes : Prop :=
  ∀ (i : Instr) (s t : State), exec i s = .next t → t.status = 0x80#32 →
    t.x.outlen.toNat ≤ s.inst.obuf.bytes ∧ ∀ k, (t.obuf.get? k).isSome ↔ k < t.x.outlen.toNat

/-- R29, R341: the result of a command depends only on the instance, its in-registers and the bytes `IBUF[0 .. x[2])`:
two states that agree on them get the same `STATUS` and, on success, the same out-registers and the same output. -/
def Obligations.CommandsAreStateless : Prop :=
  ∀ (i : Instr) (s u t v : State), exec i s = .next t → exec i u = .next v → u.inst = s.inst →
    (i ∈ [.hdrBuildRgba, .hdrBuildDxt1, .hdrBuildDxt5, .encFrameRgba, .encFrameDxt1, .encFrameDxt5] →
      u.x.width = s.x.width ∧ u.x.height = s.x.height) →
    (i ∉ [.hdrBuildRgba, .hdrBuildDxt1, .hdrBuildDxt5] →
      u.x.inlen = s.x.inlen ∧ ∀ k < s.inlen, u.inByte k = s.inByte k) →
    v.status = t.status ∧
      (t.status = 0x80#32 →
        v.x.outlen = t.x.outlen ∧ v.obuf = t.obuf ∧
        (i ∈ [.hdrParse, .decFrame] → v.x.width = t.x.width ∧ v.x.height = t.x.height) ∧
        (i ∈ [.hdrParse, .fccResolve, .decFrame] →
          v.x.fourcc = t.x.fourcc ∧ v.x.bitcount = t.x.bitcount ∧ v.x.probe = t.x.probe))

/-- R57, R308: every command that reads `IBUF` raises `CapacityError` when `x[2] > IBUF_BYTES`, before anything else, and
changes nothing but `STATUS`. -/
def Obligations.InputCapacityComesFirst : Prop :=
  ∀ (i : Instr) (s : State), i ∉ [.hdrBuildRgba, .hdrBuildDxt1, .hdrBuildDxt5] → s.inst.ibuf.bytes < s.inlen →
    exec i s = .next { s with status := 0x85#32 }

/-- R35: what reset leaves, on every instance. -/
def Obligations.ResetValues : Prop :=
  ∀ (inst : Instance) (i : Fin 7) (k : Nat),
    (State.resetOf inst).hostReadX i = 0 ∧ (State.resetOf inst).hostReadCmd = 0 ∧
    (State.resetOf inst).hostReadStatus = 0 ∧ (State.resetOf inst).ibuf.get? k = none ∧
    (State.resetOf inst).obuf.get? k = none

/-- The invariant holds after reset, on every instance. -/
def Obligations.InvariantAtReset : Prop := ∀ inst : Instance, (State.resetOf inst).Inv

/-- Every step keeps the invariant: the buffers stay canonical and inside their capacities, the defined bytes of `OBUF`
stay an initial segment, `STATUS` stays legal (R28, R30, R31, R57). -/
def Obligations.StepKeepsInvariant : Prop := ∀ s t : State, s.Inv → step s = .next t → t.Inv

/-- R340: reset gives the state of R35 whatever stood before, on the same instance, and the host's later actions come. -/
def Obligations.ResetActionRestoresReset : Prop :=
  ∀ (s : State) (rest : List HostAction), s.host = .reset :: rest → ∃ t, step s = .next t ∧
    (∀ i, t.hostReadX i = 0) ∧ t.status = 0 ∧ (∀ k, t.ibuf.get? k = none ∧ t.obuf.get? k = none) ∧
    t.inst = s.inst ∧ t.host = rest

/-- R21, R22: each `x[i]` reads as the register its alias names; the host may write any `x[i]`; the register reads as
written, and nothing else changes. -/
def Obligations.HostWritesRegister : Prop :=
  (∀ s : State, s.hostReadX 0 = s.x.width ∧ s.hostReadX 1 = s.x.height ∧ s.hostReadX 2 = s.x.inlen ∧
    s.hostReadX 3 = s.x.outlen ∧ s.hostReadX 4 = s.x.fourcc ∧ s.hostReadX 5 = s.x.bitcount ∧
    s.hostReadX 6 = s.x.probe) ∧
  ∀ (s : State) (i : Fin 7) (v : Word) (rest : List HostAction), s.host = .setX i v :: rest → ∃ t : State,
    step s = .next t ∧ t = { s with x := t.x, host := rest } ∧ t.hostReadX i = v ∧
      ∀ j, j ≠ i → t.hostReadX j = s.hostReadX j

/-- R28, R31: host writes to `STATUS` and to `OBUF` are ignored; a read of `CMD` gives 0 (R27). -/
def Obligations.HostWritesIgnored : Prop :=
  ∀ (s : State) (rest : List HostAction),
    (∀ w, s.host = .writeStatus w :: rest → step s = .next { s with host := rest }) ∧
    (∀ k b, k < s.inst.obuf.bytes → s.host = .writeObuf k b :: rest → step s = .next { s with host := rest }) ∧
    s.hostReadCmd = 0

/-- R30, R79: `LOAD` gives `IBUF[0..n)` the listed bytes and `x[2]` their number, and a single byte write gives one byte
its value; every other byte and everything else is unchanged. -/
def Obligations.HostLoadsInput : Prop :=
  (∀ (s : State) (bs : List Byte) (rest : List HostAction), s.host = .load bs :: rest →
    bs.length ≤ s.inst.ibuf.bytes → ∃ m : Memory,
      step s = .next { s with ibuf := m, x := { s.x with inlen := BitVec.ofNat 32 bs.length }, host := rest } ∧
      (∀ k b, bs[k]? = some b → m.get? k = some b) ∧ ∀ k, bs.length ≤ k → m.get? k = s.ibuf.get? k) ∧
  (∀ (s : State) (j : Nat) (b : Byte) (rest : List HostAction), s.host = .writeIbuf j b :: rest →
    j < s.inst.ibuf.bytes → ∃ m : Memory,
      step s = .next { s with ibuf := m, host := rest } ∧ m.get? j = some b ∧ ∀ k, k ≠ j → m.get? k = s.ibuf.get? k)

/-- R79: `MOVE n` copies what the host reads of `OBUF[0..n)` to `IBUF[0..n)`, a byte the last successful command defined as
that byte, and writes `n` to `x[2]`; every other byte and everything else is unchanged. -/
def Obligations.HostMovesOutputToInput : Prop :=
  ∀ (s : State) (n : Nat) (rest : List HostAction), s.host = .move n :: rest → n ≤ s.inst.obuf.bytes →
    n ≤ s.inst.ibuf.bytes → ∃ m : Memory,
      step s = .next { s with ibuf := m, x := { s.x with inlen := BitVec.ofNat 32 n }, host := rest } ∧
      (∀ k < n, m.get? k = some (s.hostReadObuf k)) ∧
      (∀ k < n, ∀ b, s.obuf.get? k = some b → m.get? k = some b) ∧ ∀ k, n ≤ k → m.get? k = s.ibuf.get? k

/-- The model's choices (log entries 4 and 5): with no host action to come the block keeps everything, and a host action
that names an offset the buffer does not have stops the machine by name. -/
def Obligations.IdleBlockKeepsStateAndAbsentOffsetsFault : Prop :=
  ∀ (s : State) (rest : List HostAction),
    (s.host = [] → step s = .next s) ∧
    (∀ k b, s.inst.ibuf.bytes ≤ k → s.host = .writeIbuf k b :: rest → step s = .fault .hostOffset) ∧
    (∀ k b, s.inst.obuf.bytes ≤ k → s.host = .writeObuf k b :: rest → step s = .fault .hostOffset) ∧
    (∀ bs, s.inst.ibuf.bytes < bs.length → s.host = .load bs :: rest → step s = .fault .hostOffset) ∧
    ∀ n, s.inst.obuf.bytes < n ∨ s.inst.ibuf.bytes < n → s.host = .move n :: rest → step s = .fault .hostOffset

/-! ## Header codec -/

/-- R103, R105: HDR_BUILD.RGBA succeeds on dimensions of at least 1 whose pitch fits 32 bits, and its 128 bytes hold these
fields at these offsets. -/
def Obligations.HdrBuildRgbaFields : Prop :=
  ∀ s : State, 1 ≤ s.width → 1 ≤ s.height → 4 * s.width < 2 ^ 32 →
    ∃ t out, exec .hdrBuildRgba s = .next t ∧ Completes s t s.x out ∧ out.length = 128 ∧
      slice out 0 4 = [0x44, 0x44, 0x53, 0x20] ∧ le (slice out 4 4) = 124 ∧ le (slice out 8 4) = 0x0000100F ∧
      le (slice out 12 4) = s.height ∧ le (slice out 16 4) = s.width ∧ le (slice out 20 4) = 4 * s.width ∧
      le (slice out 76 4) = 32 ∧ le (slice out 80 4) = 0x41 ∧ slice out 84 4 = [0, 0, 0, 0] ∧
      le (slice out 88 4) = 32 ∧ le (slice out 92 4) = 0x000000FF ∧ le (slice out 96 4) = 0x0000FF00 ∧
      le (slice out 100 4) = 0x00FF0000 ∧ le (slice out 104 4) = 0xFF000000 ∧ le (slice out 108 4) = 0x1000 ∧
      ∀ k, (24 ≤ k ∧ k < 76) ∨ (112 ≤ k ∧ k < 128) → out[k]? = some 0

/-- R104, R105: HDR_BUILD.DXT1 and HDR_BUILD.DXT5 succeed on dimensions of at least 1 whose linear size fits 32 bits, and
their 128 bytes hold these fields at these offsets. -/
def Obligations.HdrBuildCompressedFields : Prop :=
  ∀ (s : State) (i : Instr) (blockSize : Nat) (fourCC : List Byte), 1 ≤ s.width → 1 ≤ s.height →
    (i = .hdrBuildDxt1 ∧ blockSize = 8 ∧ fourCC = [0x44, 0x58, 0x54, 0x31]) ∨
      (i = .hdrBuildDxt5 ∧ blockSize = 16 ∧ fourCC = [0x44, 0x58, 0x54, 0x35]) →
    (s.width + 3) / 4 * ((s.height + 3) / 4) * blockSize < 2 ^ 32 →
    ∃ t out, exec i s = .next t ∧ Completes s t s.x out ∧ out.length = 128 ∧
      slice out 0 4 = [0x44, 0x44, 0x53, 0x20] ∧ le (slice out 4 4) = 124 ∧ le (slice out 8 4) = 0x00081007 ∧
      le (slice out 12 4) = s.height ∧ le (slice out 16 4) = s.width ∧
      le (slice out 20 4) = (s.width + 3) / 4 * ((s.height + 3) / 4) * blockSize ∧
      le (slice out 76 4) = 32 ∧ le (slice out 80 4) = 0x4 ∧ slice out 84 4 = fourCC ∧ le (slice out 108 4) = 0x1000 ∧
      ∀ k, (24 ≤ k ∧ k < 76) ∨ (88 ≤ k ∧ k < 108) ∨ (112 ≤ k ∧ k < 128) → out[k]? = some 0

/-- R106: HDR_BUILD raises `EncodeError` on a zero dimension and when the value for `pitchOrLinearSize` would not fit its
32-bit field. -/
def Obligations.HdrBuildEncodeErrors : Prop :=
  ∀ (s : State) (i : Instr) (size : Nat),
    (i = .hdrBuildRgba ∧ size = 4 * s.width) ∨
      (i = .hdrBuildDxt1 ∧ size = (s.width + 3) / 4 * ((s.height + 3) / 4) * 8) ∨
      (i = .hdrBuildDxt5 ∧ size = (s.width + 3) / 4 * ((s.height + 3) / 4) * 16) →
    s.width = 0 ∨ s.height = 0 ∨ 2 ^ 32 ≤ size → exec i s = .next { s with status := 0x83#32 }

/-- R110: HDR_PARSE on an accepted header reports width, height, the raw four bytes at 84, the bit count, and the
pixel-format block byte for byte; R343 (which bytes it reads: R344, the spec's own inference, and log entry 1): on a
byte of these that the host has not written it takes no step. -/
def Obligations.HdrParseReportsFields : Prop :=
  ∀ s : State, HeaderAccepted s →
    ((∀ k, (12 ≤ k ∧ k < 20) ∨ (76 ≤ k ∧ k < 108) → s.written k) → ∃ t, exec .hdrParse s = .next t ∧
      Completes s t
        { s.x with
          width := BitVec.ofNat 32 (s.memRead 16 4), height := BitVec.ofNat 32 (s.memRead 12 4)
          fourcc := BitVec.ofNat 32 (s.memRead 84 4), bitcount := BitVec.ofNat 32 (s.memRead 88 4), probe := 0 }
        (s.inBytes 76 32)) ∧
    ((∃ k, ((12 ≤ k ∧ k < 20) ∨ (76 ≤ k ∧ k < 108)) ∧ s.written k = false) →
      exec .hdrParse s = .fault .unwrittenInput)

/-- R110, R124, R251 lines 2 and 3: HDR_PARSE, FCC_RESOLVE and DEC_FRAME raise `FormatError` on fewer than 128 bytes
and on a wrong magic; R343 (which bytes it reads: R344, the spec's own inference, and log entry 1): they take no step
on a magic that the host has not written. -/
def Obligations.HeaderFormatErrors : Prop :=
  ∀ (s : State) (i : Instr), i ∈ [.hdrParse, .fccResolve, .decFrame] → s.inlen ≤ s.inst.ibuf.bytes →
    (s.inlen < 128 ∨ ((∀ k < 4, s.written k) ∧ s.inBytes 0 4 ≠ [0x44, 0x44, 0x53, 0x20]) →
      exec i s = .next { s with status := 0x81#32 }) ∧
    (128 ≤ s.inlen → (∃ k < 4, s.written k = false) → exec i s = .fault .unwrittenInput)

/-- R112: a built header parses back to its width, height, FourCC and bit count, for every format and all dimensions the
build accepts. -/
def Obligations.HeaderRoundTrip : Prop :=
  ∀ (w h : Nat) (f : Fmt), 1 ≤ w → 1 ≤ h → w < 2 ^ 32 → h < 2 ^ 32 → pitchOrLinearSize w h f < 2 ^ 32 →
    ∃ hdr, parseHeader (buildHeader w h f) = .ok hdr ∧ hdr.width = w ∧ hdr.height = h ∧
      (f = .rgba → hdr.fourCC = 0 ∧ hdr.bitCount = 32) ∧
      (f = .dxt1 → hdr.fourCC = 0x31545844 ∧ hdr.bitCount = 0) ∧
      (f = .dxt5 → hdr.fourCC = 0x35545844 ∧ hdr.bitCount = 0)

/-- R121, R124, R125: FCC_RESOLVE on an accepted header succeeds for every header, and reports the one outcome of the
three ordered probes; it writes no byte of `OBUF`; R343 (which bytes it reads: R344, the spec's own inference, and log
entry 1): on a byte of the header that the host has not written it takes no step. -/
def Obligations.FccResolveRunsOrderedProbes : Prop :=
  ∀ s : State, HeaderAccepted s →
    (∃ tag stage off, Resolves s.inst.alt.off (s.inBytes 0 128) tag stage off) ∧
    ((∃ k < 128, s.written k = false) → exec .fccResolve s = .fault .unwrittenInput) ∧
    ∀ tag stage off, Resolves s.inst.alt.off (s.inBytes 0 128) tag stage off → (∀ k < 128, s.written k) →
      ∃ t, exec .fccResolve s = .next t ∧
        Completes s t
          { s.x with
            fourcc := BitVec.ofNat 32 (fourCCOf tag), bitcount := BitVec.ofNat 32 (s.memRead 88 4)
            probe := BitVec.ofNat 32 (stage + 256 * off) } []

/-- R120, R8: the four known tags as byte strings and as the words a register carries. -/
def Obligations.KnownTagValues : Prop :=
  tagBytes (.comp .dxt1) = [0x44, 0x58, 0x54, 0x31] ∧ tagBytes (.comp .dxt3) = [0x44, 0x58, 0x54, 0x33] ∧
  tagBytes (.comp .dxt5) = [0x44, 0x58, 0x54, 0x35] ∧ tagBytes .dx10 = [0x44, 0x58, 0x31, 0x30] ∧
  fourCCOf (some (.comp .dxt1)) = 0x31545844 ∧ fourCCOf (some (.comp .dxt3)) = 0x33545844 ∧
  fourCCOf (some (.comp .dxt5)) = 0x35545844 ∧ fourCCOf (some .dx10) = 0x30315844

/-- R126: a conforming compressed header resolves at stage 0, whichever value `ALT_FOURCC_OFF` has. -/
def Obligations.BuiltCompressedHeaderResolvesAtStageZero : Prop :=
  ∀ (w h : Nat) (alt : AltOffset), resolveFourCC alt.off (buildHeader w h .dxt1) = ⟨some (.comp .dxt1), 0, 84⟩ ∧
    resolveFourCC alt.off (buildHeader w h .dxt5) = ⟨some (.comp .dxt5), 0, 84⟩

/-- R349: FCC_RESOLVE and DEC_FRAME report the same FourCC and the same PROBE for one stream. -/
def Obligations.DecodeAndResolveReportSameProbe : Prop :=
  ∀ s t u : State, exec .fccResolve s = .next t → exec .decFrame s = .next u → u.status = 0x80#32 →
    t.status = 0x80#32 ∧ u.x.fourcc = t.x.fourcc ∧ u.x.probe = t.x.probe ∧ u.x.bitcount = t.x.bitcount

/-! ## BC1 -/

/-- R10: `rdiv(n, d)` is the nearest integer to `n / d`, for `d` in 3, 5, 7. -/
def Obligations.RdivIsNearest : Prop :=
  ∀ n d : Nat, d ∈ [3, 5, 7] →
    2 * ((d : Int) * rdiv n d - n) < d ∧ 2 * ((n : Int) - d * rdiv n d) < d

/-- R149, R10: quantisation to a byte clamps to 0 .. 255 and then rounds half up, exactly, for every rational. -/
def Obligations.ByteRoundingIsExact : Prop :=
  ∀ q : Ratio, 0 < q.den →
    (q.toByte : Int) = ⌊max 0 (min 255 ((q.num : ℚ) / q.den)) + 1 / 2⌋

/-- R148 against R143 to R146: the exact fit, the reference value of `BC1_FIT`, is the line fit LM describes over the reals,
an equality that R148 marks as its own inference. With any axis vector `a` obtained
by five normalised iterations from the normalised (1,1,1), the two endpoints are the mean offset along the axis by the
extreme projections. -/
def Obligations.ExactFitIsTheRealLineFit : Prop :=
  ∀ (ps : List Rgb) (a : Nat → V3 ℝ), ps.length = 16 →
    let mu : V3 ℝ :=
      ⟨(ps.map fun p => (p.r : ℝ)).sum / 16, (ps.map fun p => (p.g : ℝ)).sum / 16, (ps.map fun p => (p.b : ℝ)).sum / 16⟩
    let dot : V3 ℝ → V3 ℝ → ℝ := fun p q => p.r * q.r + p.g * q.g + p.b * q.b
    let norm : V3 ℝ → ℝ := fun p => Real.sqrt (dot p p)
    let pt : Rgb → V3 ℝ := fun p => p.map fun c : Nat => (c : ℝ)
    let dev : Rgb → V3 ℝ := fun p => V3.zip (fun c m => c - m) (pt p) mu
    let cov : V3 ℝ → V3 ℝ := fun v =>
      ⟨(ps.map fun p => (dev p).r * dot (dev p) v).sum, (ps.map fun p => (dev p).g * dot (dev p) v).sum,
        (ps.map fun p => (dev p).b * dot (dev p) v).sum⟩
    a 0 = ⟨1 / Real.sqrt 3, 1 / Real.sqrt 3, 1 / Real.sqrt 3⟩ →
    (∀ k < 5, norm (cov (a k)) ≠ 0 ∧ a (k + 1) = (cov (a k)).map fun c => c / norm (cov (a k))) →
    ∀ tmax tmin : ℝ, (∃ p ∈ ps, tmax = dot (pt p) (a 5)) → (∀ p ∈ ps, dot (pt p) (a 5) ≤ tmax) →
      (∃ p ∈ ps, tmin = dot (pt p) (a 5)) → (∀ p ∈ ps, tmin ≤ dot (pt p) (a 5)) →
      ((fitOf .reference ps).1.map fun q => (q.num : ℝ) / q.den) =
          V3.zip (fun m c => m + c * (tmax - dot mu (a 5))) mu (a 5) ∧
        ((fitOf .reference ps).2.map fun q => (q.num : ℝ) / q.den) =
          V3.zip (fun m c => m + c * (tmin - dot mu (a 5))) mu (a 5)

/-- R147: the axis is the zero vector exactly when the first iterate is, and then both endpoints are the mean. -/
def Obligations.ZeroAxisGivesTheMean : Prop :=
  ∀ ps : List Rgb, (axis ps = ⟨0, 0, 0⟩ ↔ mulVec (scatter (centred ps)) ⟨1, 1, 1⟩ = ⟨0, 0, 0⟩) ∧
    (mulVec (scatter (centred ps)) ⟨1, 1, 1⟩ = ⟨0, 0, 0⟩ →
      let mu : V3 Ratio :=
        ⟨⟨(ps.map fun p => (p.r : Int)).sum, 16⟩, ⟨(ps.map fun p => (p.g : Int)).sum, 16⟩,
          ⟨(ps.map fun p => (p.b : Int)).sum, 16⟩⟩
      fitOf .reference ps = (mu, mu))

/-- R151, R142: each 5:6:5 field stands at the top of its expanded byte with its own high bits below it, and quantising
the expanded colour gives the packed value back. -/
def Obligations.ExpansionReplicatesHighBits : Prop :=
  ∀ c < 65536, (expand565 c).r = 8 * (c / 2048) + c / 2048 / 4 ∧
    (expand565 c).g = 4 * (c / 32 % 64) + c / 32 % 64 / 16 ∧ (expand565 c).b = 8 * (c % 32) + c % 32 / 4 ∧
    pack565 (expand565 c) = c

/-- R141, R149 to R155: BC1_ENC on 64 input bytes stores the two quantised endpoints of the instance's fit with the
larger first, and at bits `2i` of the index word the palette entry at the least squared distance from sample `i`, the
lowest index on a tie; R343 (which bytes it reads: R344, the spec's own inference, and log entry 1): on a colour byte
that the host has not written it takes no step. -/
def Obligations.Bc1EncStoresEndpointsAndNearestIndices : Prop :=
  ∀ s : State, s.inlen = 64 →
    ((∃ k < 64, k % 4 ≠ 3 ∧ s.written k = false) → exec .bc1Enc s = .fault .unwrittenInput) ∧
    ((∀ k < 64, k % 4 ≠ 3 → s.written k) →
      ∃ t out, exec .bc1Enc s = .next t ∧ Completes s t s.x out ∧ out.length = 8 ∧
        let sample := fun i : Nat =>
          (⟨(s.inByte (4 * i)).toNat, (s.inByte (4 * i + 1)).toNat, (s.inByte (4 * i + 2)).toNat⟩ : Rgb)
        let fit := fitOf s.inst.fit ((List.range 16).map sample)
        let quantise := fun e : V3 Ratio => 2048 * (e.r.toByte / 8) + 32 * (e.g.toByte / 4) + e.b.toByte / 8
        let distance := fun p q : Rgb =>
          ((p.r : Int) - q.r).natAbs ^ 2 + ((p.g : Int) - q.g).natAbs ^ 2 + ((p.b : Int) - q.b).natAbs ^ 2
        let c0 := max (quantise fit.1) (quantise fit.2)
        let c1 := min (quantise fit.1) (quantise fit.2)
        le (slice out 0 2) = c0 ∧ le (slice out 2 2) = c1 ∧
          ∀ i < 16, NearestLowest (distance (sample i))
            [expand565 c0, expand565 c1, V3.zip (fun a b => rdiv (2 * a + b) 3) (expand565 c0) (expand565 c1),
              V3.zip (fun a b => rdiv (a + 2 * b) 3) (expand565 c0) (expand565 c1)]
            (le (slice out 4 4) / 4 ^ i % 4))

/-- R156: for every fit and every block, the first stored endpoint is at least the second, and if they are equal the index
word is 0. -/
def Obligations.Bc1EndpointOrderInvariant : Prop :=
  ∀ (fit : Fit) (ps : List Rgb), ps.length = 16 →
    le (slice (bc1With fit ps) 2 2) ≤ le (slice (bc1With fit ps) 0 2) ∧
      (le (slice (bc1With fit ps) 2 2) = le (slice (bc1With fit ps) 0 2) → le (slice (bc1With fit ps) 4 4) = 0)

/-- R156 (d): with the reference fit, sixteen samples of one colour give that colour's packed value twice and the index
word 0. -/
def Obligations.Bc1FlatBlock : Prop :=
  ∀ p : Rgb, p.r ≤ 255 → p.g ≤ 255 → p.b ≤ 255 →
    let c := 2048 * (p.r / 8) + 32 * (p.g / 4) + p.b / 8
    bc1 .reference (List.replicate 16 p) = bytesLE c 2 ++ bytesLE c 2 ++ [0, 0, 0, 0]

/-- R157: the alpha bytes do not influence BC1_ENC, on instances with the same fit. -/
def Obligations.Bc1IgnoresAlpha : Prop :=
  ∀ s u t v : State, s.inlen = 64 → u.inlen = 64 → u.inst.fit = s.inst.fit →
    (∀ k < 64, k % 4 ≠ 3 → u.inByte k = s.inByte k) →
    exec .bc1Enc s = .next t → exec .bc1Enc u = .next v → v.obuf = t.obuf ∧ v.status = t.status

/-- R301 (c), R302: the block operations raise `EncodeError` when `x[2]` is not the exact input length. -/
def Obligations.BlockLengthErrors : Prop :=
  ∀ (s : State) (i : Instr) (need : Nat),
    (i, need) ∈ [(.bc1Enc, 64), (.bc3aEnc, 16), (.pack2, 16), (.pack3, 16), (.unpack2, 4), (.unpack3, 6)] →
    s.inlen ≤ s.inst.ibuf.bytes → s.inlen ≠ need → exec i s = .next { s with status := 0x83#32 }

/-! ## BC3 alpha -/

/-- R181 to R186: BC3A_ENC on 16 input bytes stores the greatest and the least sample, and at bits `3i` of the index
field the nearest value of the ramp that the order of the endpoints selects, the lowest index on a tie; R343 (which
bytes it reads: R344, the spec's own inference, and log entry 1): on a byte that the host has not written it takes no
step. -/
def Obligations.Bc3aEncStoresExtremesAndNearestIndices : Prop :=
  ∀ s : State, s.inlen = 16 →
    ((∃ k < 16, s.written k = false) → exec .bc3aEnc s = .fault .unwrittenInput) ∧
    ((∀ k < 16, s.written k) →
      ∃ t out a0 a1, exec .bc3aEnc s = .next t ∧ Completes s t s.x out ∧ out.length = 8 ∧
        le (slice out 0 1) = a0 ∧ le (slice out 1 1) = a1 ∧
        (∃ i < 16, (s.inByte i).toNat = a0) ∧ (∃ i < 16, (s.inByte i).toNat = a1) ∧
        (∀ i < 16, a1 ≤ (s.inByte i).toNat ∧ (s.inByte i).toNat ≤ a0) ∧
        ∀ i < 16, NearestLowest (fun p : Nat => (((s.inByte i).toNat : Int) - (p : Int)).natAbs)
          (if a1 < a0 then
            [a0, a1, rdiv (6 * a0 + a1) 7, rdiv (5 * a0 + 2 * a1) 7, rdiv (4 * a0 + 3 * a1) 7, rdiv (3 * a0 + 4 * a1) 7,
              rdiv (2 * a0 + 5 * a1) 7, rdiv (a0 + 6 * a1) 7]
          else [a0, a0, a0, a0, a0, a0, 0, 255])
          (le (slice out 2 6) / 8 ^ i % 8))

/-- R187: the first byte exceeds the second exactly when the block is not flat; a flat block has the index field 0. -/
def Obligations.Bc3aFlatExactlyWhenEndpointsEqual : Prop :=
  ∀ als : List Nat, als.length = 16 → (∀ a ∈ als, a ≤ 255) →
    (le (slice (bc3a als) 1 1) < le (slice (bc3a als) 0 1) ↔ ∃ a ∈ als, ∃ b ∈ als, a ≠ b) ∧
      ((∀ a ∈ als, ∀ b ∈ als, a = b) → le (slice (bc3a als) 2 6) = 0)

/-! ## Packers -/

/-- R200 to R203, R206: PACK2 and PACK3 on 16 input bytes put the low 2 or 3 bits of byte `i` at bit `2i` or `3i` of
the output word, and no other bit; R343 (which bytes it reads: R344, the spec's own inference, and log entry 1): on a
byte that the host has not written they take no step. -/
def Obligations.PackPutsMaskedFields : Prop :=
  ∀ s : State, s.inlen = 16 →
    ((∃ k < 16, s.written k = false) →
      exec .pack2 s = .fault .unwrittenInput ∧ exec .pack3 s = .fault .unwrittenInput) ∧
    ((∀ k < 16, s.written k) →
      (∃ t out, exec .pack2 s = .next t ∧ Completes s t s.x out ∧ out.length = 4 ∧
        ∀ i < 16, le out / 4 ^ i % 4 = (s.inByte i).toNat % 4) ∧
      (∃ t out, exec .pack3 s = .next t ∧ Completes s t s.x out ∧ out.length = 6 ∧
        ∀ i < 16, le out / 8 ^ i % 8 = (s.inByte i).toNat % 8))

/-- R204, R205: UNPACK2 and UNPACK3 give the 16 fields of the input word, one per byte; R343 (which bytes it reads:
R344, the spec's own inference, and log entry 1): on a byte that the host has not written they take no step. -/
def Obligations.UnpackGivesFields : Prop :=
  (∀ s : State, s.inlen = 4 →
    ((∃ k < 4, s.written k = false) → exec .unpack2 s = .fault .unwrittenInput) ∧
    ((∀ k < 4, s.written k) → ∃ t out, exec .unpack2 s = .next t ∧ Completes s t s.x out ∧ out.length = 16 ∧
      ∀ i < 16, out[i]? = some (BitVec.ofNat 8 (s.memRead 0 4 / 4 ^ i % 4)))) ∧
  (∀ s : State, s.inlen = 6 →
    ((∃ k < 6, s.written k = false) → exec .unpack3 s = .fault .unwrittenInput) ∧
    ((∀ k < 6, s.written k) → ∃ t out, exec .unpack3 s = .next t ∧ Completes s t s.x out ∧ out.length = 16 ∧
      ∀ i < 16, out[i]? = some (BitVec.ofNat 8 ((s.memRead 0 4 + 2 ^ 32 * s.memRead 4 2) / 8 ^ i % 8))))

/-- R200, R201: packing and unpacking are mutually inverse. -/
def Obligations.PackAndUnpackAreInverse : Prop :=
  ∀ w ∈ [2, 3], (∀ vs : List Nat, vs.length = 16 → (∀ v ∈ vs, v < 2 ^ w) → unpackFields w (packFields w vs) = vs) ∧
    ∀ word < 2 ^ (16 * w), packFields w (unpackFields w word) = word

/-- R207: unpacking bytes 4 to 7 of a BC1 block, or bytes 2 to 7 of a BC3 alpha block, gives the indices the compressor
chose. -/
def Obligations.UnpackUndoesTheCompressors : Prop :=
  (∀ (fit : Fit) (ps : List Rgb), ps.length = 16 →
    unpackFields 2 (le (slice (bc1With fit ps) 4 4)) = bc1Indices fit ps) ∧
  ∀ als : List Nat, als.length = 16 → unpackFields 3 (le (slice (bc3a als) 2 6)) = alphaIndices als

/-! ## Frame encode -/

/-- R223, R220: ENC_FRAME.RGBA writes the header and then the image, byte for byte; R343 (which bytes it reads: R344,
the spec's own inference, and log entry 1): on a byte of the image that the host has not written it takes no step. -/
def Obligations.EncFrameRgbaCopiesTheImage : Prop :=
  ∀ s : State, 1 ≤ s.width → 1 ≤ s.height → s.inlen = 4 * s.width * s.height → s.inlen ≤ s.inst.ibuf.bytes →
    128 + s.inlen ≤ s.inst.obuf.bytes →
    ((∃ k < s.inlen, s.written k = false) → exec .encFrameRgba s = .fault .unwrittenInput) ∧
    ((∀ k < s.inlen, s.written k) →
      ∃ t out, exec .encFrameRgba s = .next t ∧ Completes s t s.x out ∧ out.length = 128 + 4 * s.width * s.height ∧
        slice out 0 128 = buildHeader s.width s.height .rgba ∧
        ∀ j < 4 * s.width * s.height, out[128 + j]? = some (s.inByte j))

/-- R225 to R228, R220: ENC_FRAME.DXT1 and ENC_FRAME.DXT5 write the header and then, left to right and top to bottom,
one block of 8 or 16 bytes for each 4x4 tile: for DXT5 the alpha block, then for both the colour block, of the tile's
samples, those outside the image zero; R343 (which bytes it reads: R344, the spec's own inference, and log entry 1):
on a byte that the host has not written they take no step, but for the alpha bytes, which DXT1 does not read. -/
def Obligations.EncFrameCompressedBlocks : Prop :=
  ∀ (s : State) (i : Instr) (f : Fmt) (size : Nat),
    (i = .encFrameDxt1 ∧ f = .dxt1 ∧ size = 8) ∨ (i = .encFrameDxt5 ∧ f = .dxt5 ∧ size = 16) →
    1 ≤ s.width → 1 ≤ s.height → s.inlen = 4 * s.width * s.height → s.inlen ≤ s.inst.ibuf.bytes →
    let bw := (s.width + 3) / 4
    let bh := (s.height + 3) / 4
    bw * bh * size < 2 ^ 32 → 128 + bw * bh * size ≤ s.inst.obuf.bytes →
    let channel := fun (bx y c k : Nat) =>
      if 4 * bx + k % 4 < s.width ∧ 4 * y + k / 4 < s.height then
        (s.inByte (4 * ((4 * y + k / 4) * s.width + (4 * bx + k % 4)) + c)).toNat
      else 0
    ((∃ k < s.inlen, (f = .dxt5 ∨ k % 4 ≠ 3) ∧ s.written k = false) → exec i s = .fault .unwrittenInput) ∧
    ((∀ k < s.inlen, f = .dxt5 ∨ k % 4 ≠ 3 → s.written k) →
      ∃ t out, exec i s = .next t ∧ Completes s t s.x out ∧ out.length = 128 + bw * bh * size ∧
        slice out 0 128 = buildHeader s.width s.height f ∧
        ∀ y < bh, ∀ bx < bw, slice out (128 + (y * bw + bx) * size) size =
          (if f = .dxt5 then bc3a ((List.range 16).map (channel bx y 3)) else []) ++
            bc1 s.inst.fit ((List.range 16).map fun k => ⟨channel bx y 0 k, channel bx y 1 k, channel bx y 2 k⟩))

/-- R222: ENC_FRAME raises `EncodeError` on a zero dimension, an image of 2^32 bytes or more, a declared length that is not
the image's, and for the compressed formats a linear size that does not fit 32 bits. -/
def Obligations.EncFrameEncodeErrors : Prop :=
  ∀ (s : State) (i : Instr) (blockSize : Nat),
    (i, blockSize) ∈ [(.encFrameRgba, 0), (.encFrameDxt1, 8), (.encFrameDxt5, 16)] → s.inlen ≤ s.inst.ibuf.bytes →
    s.width = 0 ∨ s.height = 0 ∨ 2 ^ 32 ≤ 4 * s.width * s.height ∨ s.inlen ≠ 4 * s.width * s.height ∨
      2 ^ 32 ≤ (s.width + 3) / 4 * ((s.height + 3) / 4) * blockSize →
    exec i s = .next { s with status := 0x83#32 }

/-- R57, R221: when every other check passes, ENC_FRAME raises `CapacityError` if header and payload are longer than
`OBUF_BYTES`. -/
def Obligations.EncFrameOutputCapacity : Prop :=
  ∀ (s : State) (i : Instr) (payload : Nat),
    (i = .encFrameRgba ∧ payload = 4 * s.width * s.height) ∨
      (i = .encFrameDxt1 ∧ payload = (s.width + 3) / 4 * ((s.height + 3) / 4) * 8 ∧ payload < 2 ^ 32) ∨
      (i = .encFrameDxt5 ∧ payload = (s.width + 3) / 4 * ((s.height + 3) / 4) * 16 ∧ payload < 2 ^ 32) →
    1 ≤ s.width → 1 ≤ s.height → s.inlen = 4 * s.width * s.height → s.inlen ≤ s.inst.ibuf.bytes →
    s.inst.obuf.bytes < 128 + payload → exec i s = .next { s with status := 0x85#32 }

/-- R222: ENC_FRAME writes the header HDR_BUILD writes for the same dimensions and format, and never succeeds where
HDR_BUILD fails. -/
def Obligations.EncFrameHeaderIsHdrBuilds : Prop :=
  ∀ (s t u : State) (i j : Instr),
    (i, j) ∈ [(.encFrameRgba, .hdrBuildRgba), (.encFrameDxt1, .hdrBuildDxt1), (.encFrameDxt5, .hdrBuildDxt5)] →
    exec i s = .next t → exec j s = .next u → t.status = 0x80#32 →
    u.status = 0x80#32 ∧ ∀ k < 128, t.obuf.get? k = u.obuf.get? k

/-- R225: a partly covered block has alpha minimum 0. -/
def Obligations.PartlyCoveredBlockHasZeroAlpha : Prop :=
  ∀ (s : State) (bx y k : Nat), k < 16 → s.width ≤ 4 * bx + k % 4 ∨ s.height ≤ 4 * y + k / 4 →
    le (slice (bc3a (gatherAlpha s bx y)) 1 1) = 0

/-! ## Frame decode -/

/-- R265 to R268, R251: a stream with no tag and bit count 32 decodes to its payload, in R, G, B, A order unless the
red mask is 0x00FF0000, when red and blue are exchanged; no other mask is looked at; R343 (which bytes it reads: R344,
the spec's own inference, and log entry 1): on an input byte that the host has not written it takes no step. -/
def Obligations.DecFrame32BitPixels : Prop :=
  ∀ (s : State) (stage off : Nat), HeaderAccepted s → Resolves s.inst.alt.off (s.inBytes 0 128) none stage off →
    let w := s.memRead 16 4
    let h := s.memRead 12 4
    w ≠ 0 → h ≠ 0 → s.memRead 88 4 = 32 → s.inlen = 128 + 4 * w * h → 4 * w * h ≤ s.inst.obuf.bytes →
    ((∃ k < s.inlen, s.written k = false) → exec .decFrame s = .fault .unwrittenInput) ∧
    ((∀ k < s.inlen, s.written k) →
      ∃ t out, exec .decFrame s = .next t ∧ Completes s t (DecodedRegs s none stage off) out ∧
        out.length = 4 * w * h ∧
        ∀ j < w * h, slice out (4 * j) 4 =
          if s.memRead 92 4 = 0x00FF0000 then
            [s.inByte (128 + 4 * j + 2), s.inByte (128 + 4 * j + 1), s.inByte (128 + 4 * j), s.inByte (128 + 4 * j + 3)]
          else s.inBytes (128 + 4 * j) 4)

/-- R266, R251: a stream with no tag and bit count 24 decodes B, G, R triples to R, G, B, 255; R343 (which bytes it
reads: R344, the spec's own inference, and log entry 1): on an input byte that the host has not written it takes no
step. -/
def Obligations.DecFrame24BitPixels : Prop :=
  ∀ (s : State) (stage off : Nat), HeaderAccepted s → Resolves s.inst.alt.off (s.inBytes 0 128) none stage off →
    let w := s.memRead 16 4
    let h := s.memRead 12 4
    w ≠ 0 → h ≠ 0 → s.memRead 88 4 = 24 → s.inlen = 128 + 3 * (w * h) → 4 * w * h ≤ s.inst.obuf.bytes →
    ((∃ k < s.inlen, s.written k = false) → exec .decFrame s = .fault .unwrittenInput) ∧
    ((∀ k < s.inlen, s.written k) →
      ∃ t out, exec .decFrame s = .next t ∧ Completes s t (DecodedRegs s none stage off) out ∧
        out.length = 4 * w * h ∧
        ∀ j < w * h, slice out (4 * j) 4 =
          [s.inByte (128 + 3 * j + 2), s.inByte (128 + 3 * j + 1), s.inByte (128 + 3 * j), 255])

/-- R260, R262 to R264, R251: a stream with a supported compressed tag and a payload of exactly the implied length is
handed whole to `DECOMP`; its answer is the image if it has the image's length, and otherwise an error; R343 (which
bytes it reads: R344, the spec's own inference, and log entry 1): on an input byte that the host has not written it
takes no step. -/
def Obligations.DecFrameCompressedAsksDecomp : Prop :=
  ∀ (s : State) (c : CompTag) (stage off : Nat), HeaderAccepted s →
    Resolves s.inst.alt.off (s.inBytes 0 128) (some (.comp c)) stage off →
    let w := s.memRead 16 4
    let h := s.memRead 12 4
    let need := (w + 3) / 4 * ((h + 3) / 4) * (if c = .dxt1 then 8 else 16)
    w ≠ 0 → h ≠ 0 → s.inlen = 128 + need → 4 * w * h ≤ s.inst.obuf.bytes →
    ((∃ k < s.inlen, s.written k = false) → exec .decFrame s = .fault .unwrittenInput) ∧
    ((∀ k < s.inlen, s.written k) →
      match Config.decomp c (s.inBytes 128 need) w h with
      | none => exec .decFrame s = .next { s with status := 0x81#32 }
      | some px =>
        if px.length = 4 * w * h then
          ∃ t, exec .decFrame s = .next t ∧ Completes s t (DecodedRegs s (some (.comp c)) stage off) px
        else exec .decFrame s = .next { s with status := 0x82#32 })

/-- R253, R254, R265: DEC_FRAME raises `FormatError` on a zero dimension, on the tag "DX10" from any probe, and, with
no tag, on a bit count other than 24 and 32; R343 (which bytes it reads: R344, the spec's own inference, and log entry
1): for a zero dimension it has read height, width and bit count, for the others the whole header, and on a byte of
these that the host has not written it takes no step. -/
def Obligations.DecFrameFormatErrors : Prop :=
  ∀ (s : State) (tag : Option Tag) (stage off : Nat), HeaderAccepted s →
    Resolves s.inst.alt.off (s.inBytes 0 128) tag stage off →
    ((∃ k, ((12 ≤ k ∧ k < 20) ∨ (88 ≤ k ∧ k < 92)) ∧ s.written k = false) →
      exec .decFrame s = .fault .unwrittenInput) ∧
    (s.memRead 16 4 = 0 ∨ s.memRead 12 4 = 0 → (∀ k, (12 ≤ k ∧ k < 20) ∨ (88 ≤ k ∧ k < 92) → s.written k) →
      exec .decFrame s = .next { s with status := 0x81#32 }) ∧
    (s.memRead 16 4 ≠ 0 → s.memRead 12 4 ≠ 0 → (∃ k < 128, s.written k = false) →
      exec .decFrame s = .fault .unwrittenInput) ∧
    (tag = some .dx10 ∨ (tag = none ∧ s.memRead 88 4 ≠ 24 ∧ s.memRead 88 4 ≠ 32) → (∀ k < 128, s.written k) →
      exec .decFrame s = .next { s with status := 0x81#32 })

/-- R261, R260: DEC_FRAME raises `SizeError` when the payload is not exactly the length the header implies, too short
or too long, before `DECOMP` is asked, before the output capacity is looked at and before the payload is read (the
last is R344, the spec's own inference from R251, and log entry 1). -/
def Obligations.DecFramePayloadLengthErrors : Prop :=
  ∀ (s : State) (tag : Option Tag) (stage off need : Nat), HeaderAccepted s →
    Resolves s.inst.alt.off (s.inBytes 0 128) tag stage off →
    let w := s.memRead 16 4
    let h := s.memRead 12 4
    let blocks := (w + 3) / 4 * ((h + 3) / 4)
    w ≠ 0 → h ≠ 0 →
    (tag = some (.comp .dxt1) ∧ need = blocks * 8) ∨ (tag = some (.comp .dxt3) ∧ need = blocks * 16) ∨
      (tag = some (.comp .dxt5) ∧ need = blocks * 16) ∨
      (tag = none ∧ s.memRead 88 4 = 24 ∧ need = w * h * 3) ∨ (tag = none ∧ s.memRead 88 4 = 32 ∧ need = w * h * 4) →
    s.inlen - 128 ≠ need → (∀ k < 128, s.written k) → exec .decFrame s = .next { s with status := 0x82#32 }

/-- R57, R251 lines 12 and 21: when the payload has its length, DEC_FRAME raises `CapacityError` if the image is
longer than `OBUF_BYTES`; `DECOMP` plays no part in it, and the payload is not read (R344, the spec's own inference,
and log entry 1). -/
def Obligations.DecFrameOutputCapacity : Prop :=
  ∀ (s : State) (tag : Option Tag) (stage off need : Nat), HeaderAccepted s →
    Resolves s.inst.alt.off (s.inBytes 0 128) tag stage off →
    let w := s.memRead 16 4
    let h := s.memRead 12 4
    let blocks := (w + 3) / 4 * ((h + 3) / 4)
    w ≠ 0 → h ≠ 0 →
    (tag = some (.comp .dxt1) ∧ need = blocks * 8) ∨ (tag = some (.comp .dxt3) ∧ need = blocks * 16) ∨
      (tag = some (.comp .dxt5) ∧ need = blocks * 16) ∨
      (tag = none ∧ s.memRead 88 4 = 24 ∧ need = w * h * 3) ∨ (tag = none ∧ s.memRead 88 4 = 32 ∧ need = w * h * 4) →
    s.inlen - 128 = need → s.inst.obuf.bytes < 4 * w * h → (∀ k < 128, s.written k) →
    exec .decFrame s = .next { s with status := 0x85#32 }

/-- R229, R272: encoding an image losslessly, moving the stream to the input and decoding it gives the image back, for all
dimensions but the exceptions of R229's table. -/
def Obligations.LosslessRoundTrip : Prop :=
  ∀ s : State, 1 ≤ s.width → 1 ≤ s.height → s.inlen = 4 * s.width * s.height →
    128 + s.inlen ≤ s.inst.ibuf.bytes → 128 + s.inlen ≤ s.inst.obuf.bytes → (∀ k < s.inlen, s.written k) →
    ¬ RoundTripException s.width s.height →
    ∃ t u v, exec .encFrameRgba s = .next t ∧ hostStep (.move (128 + s.inlen)) t = .next u ∧
      exec .decFrame u = .next v ∧ v.status = 0x80#32 ∧ v.x.width = s.x.width ∧ v.x.height = s.x.height ∧
      v.x.outlen.toNat = s.inlen ∧ ∀ k < s.inlen, v.obuf.get? k = some (s.inByte k)

/-- R229: what decoding gives for the dimensions of the exceptions. The scan finds a tag in the dimension fields: "DX10"
raises `FormatError`; the others raise `SizeError`, except where the width or the height is itself "DXT3" or "DXT5", where
the image bytes are handed to `DECOMP` as if they were blocks. -/
def Obligations.LosslessRoundTripExceptionsAreNotRepaired : Prop :=
  ∀ s : State, 1 ≤ s.width → 1 ≤ s.height → s.inlen = 4 * s.width * s.height →
    128 + s.inlen ≤ s.inst.ibuf.bytes → 128 + s.inlen ≤ s.inst.obuf.bytes → (∀ k < s.inlen, s.written k) →
    RoundTripException s.width s.height →
    ∃ t u, exec .encFrameRgba s = .next t ∧ hostStep (.move (128 + s.inlen)) t = .next u ∧
      (s.width = 0x30315844 ∨ s.height = 0x30315844 ∨
          s.width ∈ [0x3158440C, 0x3158444C, 0x3158448C, 0x315844CC, 0x0C0C5611] →
        exec .decFrame u = .next { u with status := 0x81#32 }) ∧
      (s.width = 0x31545844 ∨ s.height = 0x31545844 ∨ s.width ∈ [0x0C551611, 0x0CD51611, 0x0D551611] →
        exec .decFrame u = .next { u with status := 0x82#32 }) ∧
      ∀ c tag, (c, tag) ∈ [(CompTag.dxt3, 0x33545844), (CompTag.dxt5, 0x35545844)] →
        s.width = tag ∨ s.height = tag →
        match Config.decomp c (s.inBytes 0 s.inlen) s.width s.height with
        | none => exec .decFrame u = .next { u with status := 0x81#32 }
        | some px =>
          if px.length = s.inlen then
            ∃ v, exec .decFrame u = .next v ∧
              Completes u v (DecodedRegs u (some (.comp c)) 2 (if s.height = tag then 12 else 16)) px
          else exec .decFrame u = .next { u with status := 0x82#32 }

/-- R272 (b): decoding what ENC_FRAME.DXT1 or ENC_FRAME.DXT5 wrote resolves the tag at stage 0, finds the payload length
right, and returns what `DECOMP` answers on the payload. -/
def Obligations.CompressedRoundTripReachesDecomp : Prop :=
  ∀ (s : State) (i : Instr) (c : CompTag) (size : Nat),
    (i = .encFrameDxt1 ∧ c = .dxt1 ∧ size = 8) ∨ (i = .encFrameDxt5 ∧ c = .dxt5 ∧ size = 16) →
    1 ≤ s.width → 1 ≤ s.height → s.inlen = 4 * s.width * s.height → s.inlen ≤ s.inst.ibuf.bytes →
    let need := (s.width + 3) / 4 * ((s.height + 3) / 4) * size
    need < 2 ^ 32 → 128 + need ≤ s.inst.ibuf.bytes → 128 + need ≤ s.inst.obuf.bytes →
    s.inlen ≤ s.inst.obuf.bytes → (∀ k < s.inlen, c = .dxt5 ∨ k % 4 ≠ 3 → s.written k) →
    ∃ t u, exec i s = .next t ∧ hostStep (.move (128 + need)) t = .next u ∧
      match Config.decomp c (u.inBytes 128 need) s.width s.height with
      | none => exec .decFrame u = .next { u with status := 0x81#32 }
      | some px =>
        if px.length = s.inlen then
          ∃ v, exec .decFrame u = .next v ∧
            Completes u v
              { u.x with
                width := s.x.width, height := s.x.height, fourcc := BitVec.ofNat 32 (fourCCOf (some (.comp c)))
                bitcount := 0, probe := 0x00005400#32 } px
        else exec .decFrame u = .next { u with status := 0x82#32 }
end

