-- ==== Sys2Proof/Laws/Memory.lean ====
section
/-!
SUPPORT. The laws of a buffer: a read after a write, the canonical form that every operation keeps, and the buffers a
command commits.
-/

namespace Sys2Proof.Machine

@[simp] theorem Memory.get?_nil (k : Nat) : Memory.get? [] k = none := rfl

/-- A read after a write to the same offset gives the byte written. -/
@[simp] theorem Memory.get?_write_same (m : Memory) (k : Nat) (b : Byte) : (m.write k b).get? k = some b := by
  induction m with
  | nil => simp [Memory.write, Memory.get?]
  | cons c m ih =>
    unfold Memory.write
    split
    · simp [Memory.get?]
    · split
      · simp [Memory.get?]
      · rename_i h1 h2
        simp [Memory.get?, Ne.symm h2, ih]

/-- A write leaves every other offset alone. -/
theorem Memory.get?_write_other (m : Memory) {k j : Nat} (b : Byte) (h : j ≠ k) :
    (m.write k b).get? j = m.get? j := by
  induction m with
  | nil => simp [Memory.write, Memory.get?, Ne.symm h]
  | cons c m ih =>
    unfold Memory.write
    split
    · simp [Memory.get?, Ne.symm h]
    · split
      · rename_i h1 h2
        subst h2
        simp [Memory.get?, Ne.symm h]
      · simp only [Memory.get?, ih]

/-- The offsets listed after a write. -/
theorem Memory.mem_write {m : Memory} {k : Nat} {b : Byte} {c : Host.Cell} (h : c ∈ m.write k b) :
    c = (k, b) ∨ c ∈ m := by
  induction m with
  | nil => simpa [Memory.write] using h
  | cons d m ih =>
    unfold Memory.write at h
    split at h
    · simpa using h
    · split at h
      · rcases List.mem_cons.1 h with h | h
        · exact .inl h
        · exact .inr (List.mem_cons_of_mem _ h)
      · rcases List.mem_cons.1 h with h | h
        · exact .inr (h ▸ List.mem_cons_self)
        · exact (ih h).imp id (List.mem_cons_of_mem _)

/-- A write keeps the canonical form. -/
theorem Memory.wf_write {m : Memory} (h : m.wf) (k : Nat) (b : Byte) : (m.write k b).wf := by
  induction m with
  | nil => simp [Memory.write]
  | cons c m ih =>
    have hc := List.pairwise_cons.1 h
    unfold Memory.write
    split
    · rename_i hk
      refine List.pairwise_cons.2 ⟨fun d hd => ?_, h⟩
      rcases List.mem_cons.1 hd with rfl | hd
      · exact hk
      · exact hk.trans (hc.1 d hd)
    · split
      · rename_i hk
        exact List.pairwise_cons.2 ⟨fun d hd => hk ▸ hc.1 d hd, hc.2⟩
      · rename_i h1 h2
        refine List.pairwise_cons.2 ⟨fun d hd => ?_, ih hc.2⟩
        rcases Memory.mem_write hd with rfl | hd
        · exact lt_of_le_of_ne (not_lt.1 h1) (Ne.symm h2)
        · exact hc.1 d hd

/-- A run of writes keeps the canonical form. -/
theorem Memory.wf_writeBytes {m : Memory} (h : m.wf) (o : Nat) (bs : List Byte) : (m.writeBytes o bs).wf := by
  induction bs generalizing m o with
  | nil => exact h
  | cons b bs ih => exact ih (Memory.wf_write h o b) (o + 1)

/-- The offsets listed after a run of writes lie where they lay or inside the run. -/
theorem Memory.mem_writeBytes {m : Memory} {o : Nat} {bs : List Byte} {c : Host.Cell} (h : c ∈ m.writeBytes o bs) :
    c ∈ m ∨ (o ≤ c.1 ∧ c.1 < o + bs.length) := by
  induction bs generalizing m o with
  | nil => exact .inl h
  | cons b bs ih =>
    rcases ih h with h | h
    · rcases Memory.mem_write h with rfl | h
      · exact .inr (by simp)
      · exact .inl h
    · exact .inr (by simp only [List.length_cons]; omega)

/-- A run of writes leaves every offset outside it alone. -/
theorem Memory.get?_writeBytes_other (m : Memory) {o k : Nat} (bs : List Byte) (h : k < o ∨ o + bs.length ≤ k) :
    (m.writeBytes o bs).get? k = m.get? k := by
  induction bs generalizing m o with
  | nil => rfl
  | cons b bs ih =>
    simp only [List.length_cons] at h
    rw [Memory.writeBytes, ih _ (by omega), Memory.get?_write_other _ _ (by omega)]

/-- A read inside a run of writes gives the byte written there. -/
theorem Memory.get?_writeBytes_inside (m : Memory) {o i : Nat} {bs : List Byte} (h : i < bs.length) :
    (m.writeBytes o bs).get? (o + i) = some bs[i] := by
  induction bs generalizing m o i with
  | nil => simp at h
  | cons b bs ih =>
    cases i with
    | zero => rw [Memory.writeBytes, Memory.get?_writeBytes_other _ _ (by omega)]; simp
    | succ i =>
      have := ih (m.write o b) (o := o + 1) (i := i) (by simpa using h)
      rw [Memory.writeBytes, show o + (i + 1) = o + 1 + i by omega, this]
      rfl

/-- The buffer a command commits: each byte of the output at its offset, nothing else. -/
theorem Memory.get?_ofBytes (o : Nat) (bs : List Byte) (k : Nat) :
    (Memory.ofBytes o bs).get? k = if k < o then none else bs[k - o]? := by
  induction bs generalizing o with
  | nil => simp [Memory.ofBytes]
  | cons b bs ih =>
    simp only [Memory.ofBytes, Memory.get?, ih]
    rcases lt_trichotomy k o with h | rfl | h
    · rw [if_neg (by omega), if_pos (by omega), if_pos h]
    · simp
    · rw [if_neg (by omega), if_neg (by omega), if_neg (by omega), show k - o = (k - (o + 1)) + 1 by omega]
      rfl

@[simp] theorem Memory.get?_ofBytes_zero (bs : List Byte) (k : Nat) : (Memory.ofBytes 0 bs).get? k = bs[k]? := by
  simp [Memory.get?_ofBytes]

@[simp] theorem Memory.length_ofBytes (o : Nat) (bs : List Byte) : (Memory.ofBytes o bs).length = bs.length := by
  induction bs generalizing o with
  | nil => rfl
  | cons b bs ih => simp [Memory.ofBytes, ih]

theorem Memory.offsets_ofBytes (o : Nat) (bs : List Byte) :
    (Memory.ofBytes o bs).map Prod.fst = List.range' o bs.length := by
  induction bs generalizing o with
  | nil => rfl
  | cons b bs ih => simp [Memory.ofBytes, ih, List.range'_succ]

/-- A buffer whose offsets are an initial segment is in canonical form. -/
theorem Memory.wf_of_segment {m : Memory} (h : m.map Prod.fst = List.range m.length) : m.wf := by
  have : (m.map Prod.fst).Pairwise (· < ·) := h ▸ List.pairwise_lt_range
  exact List.pairwise_map.1 this

end Sys2Proof.Machine
end

