-- ==== Sys2Proof/Laws/Operands.lean ====
section
/-!
SUPPORT. One lemma for each operand primitive: little-endian assembly, slices, packed fields, selection.
-/

namespace Sys2Proof.Machine

@[simp] theorem length_bytesLE (v n : Nat) : (bytesLE v n).length = n := by simp [bytesLE]

theorem bytesLE_succ (v n : Nat) : bytesLE v (n + 1) = BitVec.ofNat 8 v :: bytesLE (v / 256) n := by
  simp only [bytesLE, List.range_succ_eq_map, List.map_cons, List.map_map]
  refine congrArg₂ _ (by simp) (List.map_congr_left fun j _ => ?_)
  simp only [Function.comp, Nat.shiftRight_eq_div_pow, Nat.div_div_eq_div_mul]
  rw [show 8 * (j + 1) = 8 + 8 * j by omega, Nat.pow_add]

theorem le_lt (bs : List Byte) : le bs < 256 ^ bs.length := by
  induction bs with
  | nil => simp [le]
  | cons b bs ih =>
    have := b.isLt
    simp only [le, List.length_cons, Nat.pow_succ]
    omega

/-- `LE` of `bytesLE(v, n)` is `v`, cut to `n` bytes (R8). -/
theorem le_bytesLE (v n : Nat) : le (bytesLE v n) = v % 256 ^ n := by
  induction n generalizing v with
  | zero => simp [bytesLE, le, Nat.mod_one]
  | succ n ih =>
    have h : v % 256 ^ (n + 1) = v % 256 + 256 * (v / 256 % 256 ^ n) := by
      rw [show (256 : Nat) ^ (n + 1) = 256 * 256 ^ n by ring, Nat.mod_mul]
    rw [bytesLE_succ, le, ih, BitVec.toNat_ofNat, h]

/-- `bytesLE` of `LE` gives the bytes back. -/
theorem bytesLE_le (bs : List Byte) : bytesLE (le bs) bs.length = bs := by
  induction bs with
  | nil => rfl
  | cons b bs ih =>
    have hb := b.isLt
    rw [le, List.length_cons, bytesLE_succ]
    refine congrArg₂ _ ?_ ?_
    · apply BitVec.eq_of_toNat_eq
      simp only [BitVec.toNat_ofNat]
      omega
    · rw [show (b.toNat + 256 * le bs) / 256 = le bs by omega, ih]

@[simp] theorem length_slice (bs : List Byte) (o n : Nat) : (slice bs o n).length = min n (bs.length - o) := by
  simp [slice]

theorem slice_append_left {as bs : List Byte} {o n : Nat} (h : o + n ≤ as.length) :
    slice (as ++ bs) o n = slice as o n := by
  simp only [slice]
  rw [List.drop_append_of_le_length (by omega), List.take_append_of_le_length (by simp; omega)]

theorem slice_append_right {as bs : List Byte} {o n : Nat} (h : as.length ≤ o) :
    slice (as ++ bs) o n = slice bs (o - as.length) n := by
  simp only [slice]
  rw [List.drop_append, List.drop_eq_nil_of_le h]
  rfl

/-! ## Minimum, maximum, argmin (R10) -/

theorem foldl_min_le (as : List Nat) (a : Nat) : as.foldl min a ≤ a ∧ ∀ b ∈ as, as.foldl min a ≤ b := by
  induction as generalizing a with
  | nil => simp
  | cons c as ih =>
    have h := ih (min a c)
    refine ⟨h.1.trans (min_le_left _ _), fun b hb => ?_⟩
    rcases List.mem_cons.1 hb with rfl | hb
    · exact h.1.trans (min_le_right _ _)
    · exact h.2 b hb

theorem foldl_min_mem (as : List Nat) (a : Nat) : as.foldl min a = a ∨ as.foldl min a ∈ as := by
  induction as generalizing a with
  | nil => simp
  | cons c as ih =>
    rcases ih (min a c) with h | h
    · rcases min_choice a c with h' | h'
      · exact .inl (by rw [List.foldl_cons, h, h'])
      · exact .inr (by rw [List.foldl_cons, h, h']; simp)
    · exact .inr (List.mem_cons_of_mem _ h)

theorem minNat_mem {as : List Nat} (h : as ≠ []) : minNat as ∈ as := by
  cases as with
  | nil => exact absurd rfl h
  | cons a as =>
    exact List.mem_cons.2 (foldl_min_mem as a)

theorem minNat_le {as : List Nat} {a : Nat} (h : a ∈ as) : minNat as ≤ a := by
  cases as with
  | nil => simp at h
  | cons b as =>
    rcases List.mem_cons.1 h with rfl | h
    · exact (foldl_min_le as _).1
    · exact (foldl_min_le as b).2 a h

theorem le_foldl_max (as : List Nat) (a : Nat) : a ≤ as.foldl max a ∧ ∀ b ∈ as, b ≤ as.foldl max a := by
  induction as generalizing a with
  | nil => simp
  | cons c as ih =>
    have h := ih (max a c)
    refine ⟨(le_max_left _ _).trans h.1, fun b hb => ?_⟩
    rcases List.mem_cons.1 hb with rfl | hb
    · exact (le_max_right _ _).trans h.1
    · exact h.2 b hb

theorem foldl_max_mem (as : List Nat) (a : Nat) : as.foldl max a = a ∨ as.foldl max a ∈ as := by
  induction as generalizing a with
  | nil => simp
  | cons c as ih =>
    rcases ih (max a c) with h | h
    · rcases max_choice a c with h' | h'
      · exact .inl (by rw [List.foldl_cons, h, h'])
      · exact .inr (by rw [List.foldl_cons, h, h']; simp)
    · exact .inr (List.mem_cons_of_mem _ h)

theorem maxNat_mem {as : List Nat} (h : as ≠ []) : maxNat as ∈ as := by
  cases as with
  | nil => exact absurd rfl h
  | cons a as =>
    exact List.mem_cons.2 (foldl_max_mem as a)

theorem le_maxNat {as : List Nat} {a : Nat} (h : a ∈ as) : a ≤ maxNat as := by
  cases as with
  | nil => simp at h
  | cons b as =>
    rcases List.mem_cons.1 h with rfl | h
    · exact (le_foldl_max as _).1
    · exact (le_foldl_max as b).2 a h

/-- `argmin` is an index of the list. -/
theorem argmin_lt {costs : List Nat} (h : costs ≠ []) : argmin costs < costs.length :=
  List.idxOf_lt_length_of_mem (minNat_mem h)

/-- `argmin` finds a least cost (R10). -/
theorem argmin_le {costs : List Nat} (h : argmin costs < costs.length) {j : Nat} (hj : j < costs.length) :
    costs[argmin costs] ≤ costs[j] := by
  have : costs[argmin costs] = minNat costs := List.getElem_idxOf h
  exact this ▸ minNat_le (List.getElem_mem hj)

/-- `argmin` finds the lowest index of a least cost (R10). -/
theorem argmin_first {costs : List Nat} (h : argmin costs < costs.length) {j : Nat} (hj : j < argmin costs) :
    costs[argmin costs] < costs[j] := by
  have hm : costs[argmin costs] = minNat costs := List.getElem_idxOf h
  refine lt_of_le_of_ne (argmin_le h (hj.trans h)) fun he => ?_
  have hne := List.not_of_lt_findIdx hj
  exact absurd (he.symm.trans hm) (by simpa using hne)

/-! ## Packed fields (R200, R201) -/

theorem packFields_nil (w : Nat) : packFields w [] = 0 := rfl

/-- The fields of a list are the first one and, shifted by one field, those of the rest. -/
theorem packFields_cons (w v : Nat) (vs : List Nat) :
    packFields w (v :: vs) = v + 2 ^ w * packFields w vs := by
  unfold packFields
  rw [List.zipIdx_cons', List.map_cons, List.sum_cons, List.map_map]
  refine congrArg₂ _ (by simp) ?_
  rw [← List.sum_map_mul_left]
  refine congrArg _ (List.map_congr_left fun vi _ => ?_)
  simp only [Function.comp, Prod.map, Nat.shiftLeft_eq, id]
  rw [show w * (vi.2 + 1) = w + w * vi.2 by ring, Nat.pow_add]
  ring

theorem packFields_lt {w : Nat} {vs : List Nat} (h : ∀ v ∈ vs, v < 2 ^ w) : packFields w vs < 2 ^ (w * vs.length) := by
  induction vs with
  | nil => simp [packFields_nil]
  | cons v vs ih =>
    have hv : v < 2 ^ w := h v List.mem_cons_self
    have hs := ih fun u hu => h u (List.mem_cons_of_mem _ hu)
    rw [packFields_cons, List.length_cons, show w * (vs.length + 1) = w + w * vs.length by ring, Nat.pow_add]
    calc v + 2 ^ w * packFields w vs < 2 ^ w + 2 ^ w * packFields w vs := by omega
      _ = 2 ^ w * (packFields w vs + 1) := by ring
      _ ≤ 2 ^ w * 2 ^ (w * vs.length) := Nat.mul_le_mul_left _ hs

/-- Field `i` of the packed value is the value packed there. -/
theorem packFields_field {w : Nat} {vs : List Nat} (h : ∀ v ∈ vs, v < 2 ^ w) {i : Nat} (hi : i < vs.length) :
    (packFields w vs >>> (w * i)) % 2 ^ w = vs[i] := by
  induction vs generalizing i with
  | nil => simp at hi
  | cons v vs ih =>
    have hv : v < 2 ^ w := h v List.mem_cons_self
    rw [packFields_cons]
    cases i with
    | zero => simp [Nat.mod_eq_of_lt hv]
    | succ i =>
      have := ih (fun u hu => h u (List.mem_cons_of_mem _ hu)) (i := i) (by simpa using hi)
      rw [show w * (i + 1) = w + w * i by ring, Nat.shiftRight_add, Nat.shiftRight_eq_div_pow _ w,
        Nat.add_mul_div_left _ _ (by positivity), Nat.div_eq_of_lt hv, zero_add, this]
      rfl

end Sys2Proof.Machine
end

