-- ==== Sys2Proof/Laws/State.lean ====
section
/-!
SUPPORT. What each update of the state does to each field: one lemma per field per update, true by definition, so that
no later proof unfolds a record update.
-/

namespace Sys2Proof.Machine

/-! ## `done` (R303) -/

@[simp] theorem State.done_x (s : State) (r : Result) : (s.done r).x = { r.x with outlen := reg r.out.length } := rfl
@[simp] theorem State.done_status (s : State) (r : Result) : (s.done r).status = statusOk := rfl
@[simp] theorem State.done_ibuf (s : State) (r : Result) : (s.done r).ibuf = s.ibuf := rfl
@[simp] theorem State.done_obuf (s : State) (r : Result) : (s.done r).obuf = Memory.ofBytes 0 r.out := rfl
@[simp] theorem State.done_inst (s : State) (r : Result) : (s.done r).inst = s.inst := rfl
@[simp] theorem State.done_host (s : State) (r : Result) : (s.done r).host = s.host := rfl
@[simp] theorem State.done_ibufEpoch (s : State) (r : Result) : (s.done r).ibufEpoch = s.ibufEpoch := rfl
@[simp] theorem State.done_obufEpoch (s : State) (r : Result) : (s.done r).obufEpoch = s.obufEpoch + 1 := rfl

/-! ## `raise` (R304) -/

@[simp] theorem State.raise_x (s : State) (e : Err) : (s.raise e).x = s.x := rfl
@[simp] theorem State.raise_status (s : State) (e : Err) : (s.raise e).status = statusErr e := rfl
@[simp] theorem State.raise_ibuf (s : State) (e : Err) : (s.raise e).ibuf = s.ibuf := rfl
@[simp] theorem State.raise_obuf (s : State) (e : Err) : (s.raise e).obuf = s.obuf := rfl
@[simp] theorem State.raise_inst (s : State) (e : Err) : (s.raise e).inst = s.inst := rfl
@[simp] theorem State.raise_host (s : State) (e : Err) : (s.raise e).host = s.host := rfl
@[simp] theorem State.raise_ibufEpoch (s : State) (e : Err) : (s.raise e).ibufEpoch = s.ibufEpoch := rfl
@[simp] theorem State.raise_obufEpoch (s : State) (e : Err) : (s.raise e).obufEpoch = s.obufEpoch := rfl

/-! ## `finish` -/

@[simp] theorem State.finish_ok (s : State) (r : Result) : s.finish (.ok r) = s.done r := rfl
@[simp] theorem State.finish_error (s : State) (e : Err) : s.finish (.error e) = s.raise e := rfl

@[simp] theorem State.finish_ibuf (s : State) (c : Except Err Result) : (s.finish c).ibuf = s.ibuf := by
  cases c <;> rfl
@[simp] theorem State.finish_inst (s : State) (c : Except Err Result) : (s.finish c).inst = s.inst := by
  cases c <;> rfl
@[simp] theorem State.finish_host (s : State) (c : Except Err Result) : (s.finish c).host = s.host := by
  cases c <;> rfl
@[simp] theorem State.finish_ibufEpoch (s : State) (c : Except Err Result) :
    (s.finish c).ibufEpoch = s.ibufEpoch := by
  cases c <;> rfl

/-! ## `applyReset` (R340) -/

@[simp] theorem State.applyReset_x (s : State) : s.applyReset.x = Regs.zero := rfl
@[simp] theorem State.applyReset_status (s : State) : s.applyReset.status = 0 := rfl
@[simp] theorem State.applyReset_ibuf (s : State) : s.applyReset.ibuf = [] := rfl
@[simp] theorem State.applyReset_obuf (s : State) : s.applyReset.obuf = [] := rfl
@[simp] theorem State.applyReset_inst (s : State) : s.applyReset.inst = s.inst := rfl
@[simp] theorem State.applyReset_host (s : State) : s.applyReset.host = s.host := rfl
@[simp] theorem State.applyReset_ibufEpoch (s : State) : s.applyReset.ibufEpoch = s.ibufEpoch + 1 := rfl
@[simp] theorem State.applyReset_obufEpoch (s : State) : s.applyReset.obufEpoch = s.obufEpoch + 1 := rfl

/-! ## `withFetchWord` -/

@[simp] theorem State.withFetchWord_x (s : State) (n w : Nat) : (s.withFetchWord n w).x = s.x := rfl
@[simp] theorem State.withFetchWord_status (s : State) (n w : Nat) : (s.withFetchWord n w).status = s.status := rfl
@[simp] theorem State.withFetchWord_ibuf (s : State) (n w : Nat) : (s.withFetchWord n w).ibuf = s.ibuf := rfl
@[simp] theorem State.withFetchWord_obuf (s : State) (n w : Nat) : (s.withFetchWord n w).obuf = s.obuf := rfl
@[simp] theorem State.withFetchWord_inst (s : State) (n w : Nat) : (s.withFetchWord n w).inst = s.inst := rfl
@[simp] theorem State.withFetchWord_host (s : State) (n w : Nat) :
    (s.withFetchWord n w).host = .writeCmd (BitVec.ofNat 32 (w % 2 ^ n)) :: s.host := rfl

/-! ## Registers by number (R21, R22) -/

@[simp] theorem Regs.get_set_same (x : Regs) (i : Fin 7) (v : Word) : (x.set i v).get i = v := by
  fin_cases i <;> rfl

theorem Regs.get_set_other (x : Regs) {i j : Fin 7} (v : Word) (h : j ≠ i) : (x.set i v).get j = x.get j := by
  fin_cases i <;> fin_cases j <;> first | rfl | exact absurd rfl h

/-! ## Reads of the input depend on the buffer and its epoch only -/

theorem State.inByte_congr {s t : State} (hb : t.ibuf = s.ibuf) (he : t.ibufEpoch = s.ibufEpoch) (k : Nat) :
    t.inByte k = s.inByte k := by
  simp [State.inByte, hb, he]

@[simp] theorem State.inByte_finish (s : State) (c : Except Err Result) (k : Nat) :
    (s.finish c).inByte k = s.inByte k :=
  State.inByte_congr (by simp) (by simp) k

end Sys2Proof.Machine
end

