-- ==== Sys2Proof/Laws/Exec.lean ====
section
/-!
SUPPORT. One inversion lemma for each shared operation of a command (block operations, header entry, builds, frames), and
what every command does: it reads its offsets and ends in `finish` of a pure result (60_exceptions.md R300), or stops on an
offset the host has not written (70_reset_and_hazards.md R343).
-/

namespace Sys2Proof.Machine

/-- The pure result of each command, before `finish`. -/
def command : Instr → State → Except Err Result
  | .hdrBuildRgba, s => hdrBuild .rgba s
  | .hdrBuildDxt1, s => hdrBuild .dxt1 s
  | .hdrBuildDxt5, s => hdrBuild .dxt5 s
  | .hdrParse, s => hdrParse s
  | .fccResolve, s => fccResolve s
  | .bc1Enc, s => blockOp 64 (fun s => bc1 s.inst.fit s.bc1Samples) s
  | .bc3aEnc, s => blockOp 16 (fun s => bc3a s.alphaSamples) s
  | .pack2, s => blockOp 16 (packBytes 2) s
  | .pack3, s => blockOp 16 (packBytes 3) s
  | .unpack2, s => blockOp 4 (unpackBytes 2) s
  | .unpack3, s => blockOp 6 (unpackBytes 3) s
  | .encFrameRgba, s => encFrame .rgba s
  | .encFrameDxt1, s => encFrame .dxt1 s
  | .encFrameDxt5, s => encFrame .dxt5 s
  | .decFrame, s => decFrame s

/-- The offsets of `IBUF` each command reads (R344). -/
def commandReads : Instr → State → List Nat
  | .hdrBuildRgba, _ => []
  | .hdrBuildDxt1, _ => []
  | .hdrBuildDxt5, _ => []
  | .hdrParse, s => hdrParseReads s
  | .fccResolve, s => fccResolveReads s
  | .bc1Enc, s => readsAfterChecks (command .bc1Enc s) bc1Reads
  | .bc3aEnc, s => readsAfterChecks (command .bc3aEnc s) (List.range 16)
  | .pack2, s => readsAfterChecks (command .pack2 s) (List.range 16)
  | .pack3, s => readsAfterChecks (command .pack3 s) (List.range 16)
  | .unpack2, s => readsAfterChecks (command .unpack2 s) (List.range 4)
  | .unpack3, s => readsAfterChecks (command .unpack3 s) (List.range 6)
  | .encFrameRgba, s => encFrameReads .rgba s
  | .encFrameDxt1, s => encFrameReads .dxt1 s
  | .encFrameDxt5, s => encFrameReads .dxt5 s
  | .decFrame, s => decFrameReads s

/-- Every command runs on its reads and its pure result. -/
theorem exec_eq_run (i : Instr) (s : State) : exec i s = s.run (commandReads i s) (command i s) := by
  cases i <;> rfl

/-- With every byte it reads written, a command answers a next state: its pure result, finished (R300). -/
theorem exec_eq_finish {i : Instr} {s : State} (h : ∀ k ∈ commandReads i s, s.written k) :
    exec i s = .next (s.finish (command i s)) := by
  rw [exec_eq_run, State.run, if_pos (List.all_eq_true.2 h)]

/-- A command that reads a byte the host has not written takes no step (R343). -/
theorem exec_stops {i : Instr} {s : State} {k : Nat} (hk : k ∈ commandReads i s) (h : s.written k = false) :
    exec i s = .fault .unwrittenInput := by
  rw [exec_eq_run, State.run, if_neg]
  exact fun ha => by rw [List.all_eq_true.1 ha k hk] at h; cases h

/-- The only next state of a command. -/
theorem exec_inv {i : Instr} {s t : State} (h : exec i s = .next t) : t = s.finish (command i s) := by
  rw [exec_eq_run, State.run] at h
  split at h
  · injection h with h; exact h.symm
  · cases h

/-- A command goes on or stops: there is no third outcome. -/
theorem exec_cases (i : Instr) (s : State) :
    exec i s = .next (s.finish (command i s)) ∨
      exec i s = .fault .unwrittenInput ∧ ∃ k ∈ commandReads i s, s.written k = false := by
  by_cases h : ∀ k ∈ commandReads i s, s.written k
  · exact .inl (exec_eq_finish h)
  · simp only [not_forall] at h
    obtain ⟨k, hk, hn⟩ := h
    have hn : s.written k = false := by simpa using hn
    exact .inr ⟨exec_stops hk hn, k, hk, hn⟩

theorem State.written_iff {s : State} {k : Nat} : s.written k ↔ ∃ b, s.ibuf.get? k = some b := Option.isSome_iff_exists

/-! ## Input bytes -/

@[simp] theorem State.length_inBytes (s : State) (o n : Nat) : (s.inBytes o n).length = n := by
  simp [State.inBytes]

theorem State.getElem_inBytes (s : State) {o n i : Nat} (h : i < (s.inBytes o n).length) :
    (s.inBytes o n)[i] = s.inByte (o + i) := by
  simp [State.inBytes]

/-- A slice of a run of input bytes is the run at that place. -/
theorem State.slice_inBytes (s : State) {a n o m : Nat} (h : o + m ≤ n) :
    slice (s.inBytes a n) o m = s.inBytes (a + o) m := by
  apply List.ext_getElem
  · simp; omega
  · intro i h1 h2
    simp [slice, State.inBytes, Nat.add_assoc]

theorem State.inBytes_congr {s t : State} {o n : Nat} (h : ∀ k, o ≤ k → k < o + n → t.inByte k = s.inByte k) :
    t.inBytes o n = s.inBytes o n :=
  List.map_congr_left fun k hk => by
    have := List.mem_range'_1.1 hk
    exact h k this.1 this.2

theorem State.headerBytes_eq (s : State) (h : 128 ≤ s.inlen) : s.headerBytes = s.inBytes 0 128 := by
  simp [State.headerBytes, Nat.min_eq_right h]

/-! ## Block operations (R302) -/

theorem blockOp_ok {need : Nat} {f : State → List Byte} {s : State} (hc : s.inlen ≤ s.inst.ibuf.bytes)
    (hn : s.inlen = need) : blockOp need f s = .ok { x := s.x, out := f s } := by
  subst hn
  simp [blockOp, hc]

theorem blockOp_capacity {need : Nat} {f : State → List Byte} {s : State} (h : s.inst.ibuf.bytes < s.inlen) :
    blockOp need f s = .error .capacity := by
  simp [blockOp, h]

theorem blockOp_length {need : Nat} {f : State → List Byte} {s : State} (hc : s.inlen ≤ s.inst.ibuf.bytes)
    (hn : s.inlen ≠ need) : blockOp need f s = .error .encode := by
  simp [blockOp, Nat.not_lt.2 hc, hn]

/-- The only successful result of a block operation. -/
theorem blockOp_inv {need : Nat} {f : State → List Byte} {s : State} {r : Result} (h : blockOp need f s = .ok r) :
    s.inlen ≤ s.inst.ibuf.bytes ∧ s.inlen = need ∧ r = { x := s.x, out := f s } := by
  unfold blockOp at h
  split at h
  · cases h
  · split at h
    · cases h
    · rename_i h1 h2
      exact ⟨Nat.not_lt.1 h1, not_not.1 h2, (Except.ok.inj h).symm⟩

/-! ## Header entry (R110) -/

/-- What the header fields of an accepted input are. -/
def State.header (s : State) : Header where
  width := s.memRead 16 4
  height := s.memRead 12 4
  fourCC := s.memRead 84 4
  bitCount := s.memRead 88 4
  pf := s.inBytes 76 32

theorem inputHeader_ok {s : State} (hc : s.inlen ≤ s.inst.ibuf.bytes) (hl : 128 ≤ s.inlen)
    (hm : s.inBytes 0 4 = magic) : inputHeader s = .ok s.header := by
  have hs : ∀ {o m : Nat}, o + m ≤ 128 → slice s.headerBytes o m = s.inBytes o m := fun h => by
    rw [s.headerBytes_eq hl, s.slice_inBytes h, Nat.zero_add]
  have hlen : s.headerBytes.length = 128 := by rw [s.headerBytes_eq hl, s.length_inBytes]
  simp only [inputHeader, Nat.not_lt.2 hc, if_false, parseHeader, hlen, hs (show 0 + 4 ≤ 128 by decide), hm,
    hs (show 16 + 4 ≤ 128 by decide), hs (show 12 + 4 ≤ 128 by decide), hs (show 84 + 4 ≤ 128 by decide),
    hs (show 88 + 4 ≤ 128 by decide), hs (show 76 + 32 ≤ 128 by decide), State.header, State.memRead]
  simp

theorem inputHeader_capacity {s : State} (h : s.inst.ibuf.bytes < s.inlen) : inputHeader s = .error .capacity := by
  simp [inputHeader, h]

theorem inputHeader_short {s : State} (hc : s.inlen ≤ s.inst.ibuf.bytes) (h : s.inlen < 128) :
    inputHeader s = .error .format := by
  simp [inputHeader, Nat.not_lt.2 hc, parseHeader, State.headerBytes, h]

theorem inputHeader_magic {s : State} (hc : s.inlen ≤ s.inst.ibuf.bytes) (hl : 128 ≤ s.inlen)
    (hm : s.inBytes 0 4 ≠ magic) : inputHeader s = .error .format := by
  have h4 : slice s.headerBytes 0 4 = s.inBytes 0 4 := by
    rw [s.headerBytes_eq hl, s.slice_inBytes (by decide), Nat.zero_add]
  simp [inputHeader, Nat.not_lt.2 hc, parseHeader, h4, hm]

/-- The only successful result of the header entry. -/
theorem inputHeader_inv {s : State} {h : Header} (e : inputHeader s = .ok h) :
    s.inlen ≤ s.inst.ibuf.bytes ∧ 128 ≤ s.inlen ∧ s.inBytes 0 4 = magic ∧ h = s.header := by
  by_cases hc : s.inst.ibuf.bytes < s.inlen
  · rw [inputHeader_capacity hc] at e; cases e
  · have hc := Nat.not_lt.1 hc
    by_cases hl : s.inlen < 128
    · rw [inputHeader_short hc hl] at e; cases e
    · have hl := Nat.not_lt.1 hl
      by_cases hm : s.inBytes 0 4 = magic
      · rw [inputHeader_ok hc hl hm] at e
        exact ⟨hc, hl, hm, (Except.ok.inj e).symm⟩
      · rw [inputHeader_magic hc hl hm] at e; cases e

/-! ## Builds and frames -/

/-- The only successful result of HDR_BUILD (R102). -/
theorem hdrBuild_inv {f : Fmt} {s : State} {r : Result} (h : hdrBuild f s = .ok r) :
    s.width ≠ 0 ∧ s.height ≠ 0 ∧ pitchOrLinearSize s.width s.height f < 2 ^ 32 ∧
      r = { x := s.x, out := buildHeader s.width s.height f } := by
  unfold hdrBuild at h
  split at h
  · cases h
  · split at h
    · cases h
    · rename_i h1 h2
      simp only [not_or] at h1
      exact ⟨h1.1, h1.2, Nat.not_le.1 h2, (Except.ok.inj h).symm⟩

@[simp] theorem length_pixelFormat (f : Fmt) : (pixelFormat f).length = 32 := by
  cases f <;> simp [pixelFormat, compTagBytes]

@[simp] theorem length_buildHeader (w h : Nat) (f : Fmt) : (buildHeader w h f).length = 128 := by
  simp [buildHeader, magic]

/-- The checks ENC_FRAME passes when it succeeds, and its result (R221). -/
theorem encFrame_inv {f : Fmt} {s : State} {r : Result} (h : encFrame f s = .ok r) :
    s.inlen ≤ s.inst.ibuf.bytes ∧ s.width ≠ 0 ∧ s.height ≠ 0 ∧ 4 * s.width * s.height < 2 ^ 32 ∧
      s.inlen = 4 * s.width * s.height ∧ linearSizeFits s.width s.height f = true ∧
      128 + payloadLength s.width s.height f ≤ s.inst.obuf.bytes ∧
      r = { x := s.x, out := buildHeader s.width s.height f ++ framePayload f s } := by
  simp only [encFrame] at h
  split_ifs at h with h1 h2 h3 h4 h5 h6
  simp only [not_or] at h2
  exact ⟨Nat.not_lt.1 h1, h2.1, h2.2, Nat.not_le.1 h3, not_not.1 h4, by simpa using h5, Nat.not_lt.1 h6,
    (Except.ok.inj h).symm⟩

theorem encFrame_ok {f : Fmt} {s : State} (h1 : s.inlen ≤ s.inst.ibuf.bytes) (h2 : s.width ≠ 0) (h3 : s.height ≠ 0)
    (h4 : 4 * s.width * s.height < 2 ^ 32) (h5 : s.inlen = 4 * s.width * s.height)
    (h6 : linearSizeFits s.width s.height f = true)
    (h7 : 128 + payloadLength s.width s.height f ≤ s.inst.obuf.bytes) :
    encFrame f s = .ok { x := s.x, out := buildHeader s.width s.height f ++ framePayload f s } := by
  simp only [encFrame]
  rw [if_neg (Nat.not_lt.2 h1), if_neg (by simp [h2, h3]), if_neg (Nat.not_le.2 h4), if_neg (by simp [h5]),
    if_neg (by simp [h6]), if_neg (Nat.not_lt.2 h7)]

@[simp] theorem length_bc1With (fit : Fit) (ps : List Rgb) : (bc1With fit ps).length = 8 := by
  simp [bc1With]

@[simp] theorem length_bc1 (c : FitChoice) (ps : List Rgb) : (bc1 c ps).length = 8 := length_bc1With _ _

@[simp] theorem length_bc3a (als : List Nat) : (bc3a als).length = 8 := by simp [bc3a]

theorem length_blockOf (s : State) (bx by' : Nat) (f : Fmt) : (blockOf s bx by' f).length = blockBytes f := by
  cases f <;> simp [blockOf, blockBytes]

@[simp] theorem length_blockPayload (f : Fmt) (s : State) :
    (blockPayload f s).length = nblocks s.width s.height * blockBytes f := by
  simp only [blockPayload, List.length_flatMap, length_blockOf, List.map_const', List.sum_replicate,
    List.length_range, smul_eq_mul, nblocks]
  ring

@[simp] theorem length_framePayload (f : Fmt) (s : State) :
    (framePayload f s).length = payloadLength s.width s.height f := by
  cases f
  · simp [framePayload, payloadLength]
  · simp only [framePayload, length_blockPayload, payloadLength, blockBytes]; ring
  · simp only [framePayload, length_blockPayload, payloadLength, blockBytes]; ring

@[simp] theorem length_unpack24 (payload : List Byte) (n : Nat) : (unpack24 payload n).length = 4 * n := by
  simp [unpack24, List.length_flatMap, Nat.mul_comm]

theorem compressedCheck_none {ob : Nat} {c : CompTag} {n w h : Nat} :
    compressedCheck ob c n w h = none ↔ n = nblocks w h * compBlockBytes c ∧ 4 * w * h ≤ ob := by
  unfold compressedCheck
  split_ifs <;> simp_all

theorem uncompressedCheck_none {ob bits n w h : Nat} :
    uncompressedCheck ob bits n w h = none ↔
      (bits = 24 ∨ bits = 32) ∧ n = w * h * (bits / 8) ∧ 4 * w * h ≤ ob := by
  unfold uncompressedCheck
  split_ifs <;> simp_all
  omega

/-- The pixels of the compressed branch fill the image and fit `OBUF` (R251 lines 11 to 16). -/
theorem decodeCompressed_inv {ob : Nat} {c : CompTag} {p : List Byte} {w h : Nat} {px : List Byte}
    (e : decodeCompressed ob c p w h = .ok px) :
    p.length = nblocks w h * compBlockBytes c ∧ 4 * w * h ≤ ob ∧ Config.decomp c p w h = some px ∧
      px.length = 4 * w * h := by
  unfold decodeCompressed at e
  split at e
  · cases e
  · rename_i hc
    obtain ⟨h1, h2⟩ := compressedCheck_none.1 hc
    split at e
    · cases e
    · rename_i q hq
      split at e
      · cases e
      · rename_i h3
        cases e
        exact ⟨h1, h2, hq, not_not.1 h3⟩

/-- The pixels of the uncompressed branch fill the image and fit `OBUF` (R251 lines 18 to 23). -/
theorem decodeUncompressed_inv {ob bits rmask : Nat} {p : List Byte} {w h : Nat} {px : List Byte}
    (e : decodeUncompressed ob bits rmask p w h = .ok px) :
    p.length = w * h * (bits / 8) ∧ 4 * w * h ≤ ob ∧ px.length = 4 * w * h ∧
      ((bits = 24 ∧ px = unpack24 p (w * h)) ∨ (bits = 32 ∧ px = unpack32 p (w * h) rmask)) := by
  unfold decodeUncompressed at e
  split at e
  · cases e
  · rename_i hc
    obtain ⟨h1, h2, h3⟩ := uncompressedCheck_none.1 hc
    cases e
    split_ifs with h4
    · exact ⟨h2, h3, by simp [Nat.mul_assoc], .inl ⟨h4, rfl⟩⟩
    · have hb : bits = 32 := by omega
      refine ⟨h2, h3, ?_, .inr ⟨hb, rfl⟩⟩
      unfold unpack32
      split
      · simp [List.length_flatMap, Nat.mul_comm, Nat.mul_assoc, Nat.mul_left_comm]
      · rw [h2, hb]; ring

/-- The registers DEC_FRAME reports (R251 lines 25 and 26). -/
def State.decodedRegs (s : State) : Regs :=
  { s.x with
    width := reg s.header.width, height := reg s.header.height, fourcc := reg (inputProbe s).fourCC,
    bitcount := reg s.header.bitCount, probe := reg (inputProbe s).word }

/-- The checks DEC_FRAME passes when it succeeds, and its result (R251). -/
theorem decFrame_inv {s : State} {r : Result} (e : decFrame s = .ok r) :
    s.inlen ≤ s.inst.ibuf.bytes ∧ 128 ≤ s.inlen ∧ s.inBytes 0 4 = magic ∧ s.header.width ≠ 0 ∧ s.header.height ≠ 0 ∧
      decodePixels s s.header (s.inBytes 128 (s.inlen - 128)) = .ok r.out ∧ r.x = s.decodedRegs := by
  unfold decFrame at e
  split at e
  · cases e
  · rename_i h hh
    obtain ⟨h1, h2, h3, rfl⟩ := inputHeader_inv hh
    split at e
    · cases e
    · rename_i hz
      simp only [not_or] at hz
      split at e
      · cases e
      · rename_i px hp
        cases e
        exact ⟨h1, h2, h3, hz.1, hz.2, hp, rfl⟩

theorem decFrame_ok {s : State} {px : List Byte} (h1 : s.inlen ≤ s.inst.ibuf.bytes) (h2 : 128 ≤ s.inlen)
    (h3 : s.inBytes 0 4 = magic) (hw : s.header.width ≠ 0) (hh : s.header.height ≠ 0)
    (hp : decodePixels s s.header (s.inBytes 128 (s.inlen - 128)) = .ok px) :
    decFrame s = .ok { x := s.decodedRegs, out := px } := by
  simp only [decFrame, inputHeader_ok h1 h2 h3, hw, hh, or_self, if_false, hp, State.decodedRegs]

/-- The output of a decode fills the image and fits `OBUF`. -/
theorem decodePixels_length {s : State} {h : Header} {p px : List Byte} (e : decodePixels s h p = .ok px) :
    px.length = 4 * h.width * h.height ∧ 4 * h.width * h.height ≤ s.inst.obuf.bytes := by
  unfold decodePixels at e
  split at e
  · cases e
  · have := decodeCompressed_inv e
    exact ⟨this.2.2.2, this.2.1⟩
  · have := decodeUncompressed_inv e
    exact ⟨this.2.2.1, this.2.1⟩

/-! ## What is read (R344) -/

/-- A block operation on its exact length reads its offsets; in any other case it reads nothing. -/
theorem mem_blockReads {need k : Nat} {offs : List Nat} {f : State → List Byte} {s : State} :
    k ∈ readsAfterChecks (blockOp need f s) offs ↔ (s.inlen ≤ s.inst.ibuf.bytes ∧ s.inlen = need) ∧ k ∈ offs := by
  unfold readsAfterChecks
  split
  · rename_i h
    have := blockOp_inv h
    exact ⟨fun hk => ⟨⟨this.1, this.2.1⟩, hk⟩, And.right⟩
  · rename_i e h
    simp only [List.not_mem_nil, false_iff, not_and]
    rintro ⟨h1, h2⟩
    rw [blockOp_ok h1 h2] at h
    cases h

theorem mem_bc1Reads {k : Nat} : k ∈ bc1Reads ↔ k < 64 ∧ k % 4 ≠ 3 := by simp [bc1Reads]

/-- The commands that read a header read the magic of an input that is long enough, and of an accepted header what follows
the checks. -/
theorem mem_headerReads {after : Header → List Nat} {s : State} {k : Nat} :
    k ∈ headerReads after s ↔ s.inlen ≤ s.inst.ibuf.bytes ∧ 128 ≤ s.inlen ∧
      (k < 4 ∨ s.inBytes 0 4 = magic ∧ k ∈ after s.header) := by
  unfold headerReads
  by_cases hc : s.inst.ibuf.bytes < s.inlen
  · simp [inputHeader_capacity hc, hc]
  have hc := Nat.not_lt.1 hc
  by_cases hl : s.inlen < 128
  · simp [inputHeader_short hc hl, hl]
  have hl := Nat.not_lt.1 hl
  by_cases hm : s.inBytes 0 4 = magic
  · simp [inputHeader_ok hc hl hm, hm, hc, hl]
  · simp [inputHeader_magic hc hl hm, hm, hc, hl]

theorem mem_imageReads {f : Fmt} {s : State} {k : Nat} :
    k ∈ imageReads f s ↔ k < 4 * s.width * s.height ∧ (f = .dxt1 → k % 4 ≠ 3) := by
  cases f <;> simp [imageReads]

/-- A frame encode whose checks pass reads the image; in any other case it reads nothing. -/
theorem mem_encFrameReads {f : Fmt} {s : State} {k : Nat} (h : k ∈ encFrameReads f s) :
    k < s.inlen ∧ (f = .dxt1 → k % 4 ≠ 3) := by
  unfold encFrameReads readsAfterChecks at h
  split at h
  · rename_i hr
    obtain ⟨-, -, -, -, hn, -⟩ := encFrame_inv hr
    rw [hn]; exact mem_imageReads.1 h
  · cases h

theorem mem_encFrameReads_ok {f : Fmt} {s : State} {r : Result} (hr : encFrame f s = .ok r) {k : Nat}
    (h : k < s.inlen) (h3 : f = .dxt1 → k % 4 ≠ 3) : k ∈ encFrameReads f s := by
  obtain ⟨-, -, -, -, hn, -⟩ := encFrame_inv hr
  rw [encFrameReads, hr]
  exact mem_imageReads.2 ⟨hn ▸ h, h3⟩

/-- Of an accepted header DEC_FRAME reads height, width and bit count; if the image is not empty, the whole header; and if no
check stops it, the payload. -/
theorem mem_decodeReads {s : State} {h : Header} {k : Nat} :
    k ∈ decodeReads s h ↔ (12 ≤ k ∧ k < 20) ∨ (88 ≤ k ∧ k < 92) ∨
      (h.width ≠ 0 ∧ h.height ≠ 0) ∧ (k < 128 ∨ payloadCheck s h = none ∧ 128 ≤ k ∧ k < 128 + (s.inlen - 128)) := by
  unfold decodeReads
  split_ifs with h1 h2 <;> simp_all [List.mem_range'_1]
  all_goals omega

/-- A command reads only below `x[2]` (R30, R57). -/
theorem commandReads_lt {i : Instr} {s : State} {k : Nat} (h : k ∈ commandReads i s) : k < s.inlen := by
  cases i <;> simp only [commandReads, command, List.not_mem_nil, mem_blockReads, List.mem_range, mem_bc1Reads] at h
  case hdrParse =>
    have := mem_headerReads.1 h
    simp only [List.mem_append, List.mem_range'_1] at this
    omega
  case fccResolve =>
    have := mem_headerReads.1 h
    simp only [List.mem_range] at this
    omega
  case encFrameRgba => exact (mem_encFrameReads h).1
  case encFrameDxt1 => exact (mem_encFrameReads h).1
  case encFrameDxt5 => exact (mem_encFrameReads h).1
  case decFrame =>
    have := mem_headerReads.1 h
    simp only [mem_decodeReads] at this
    omega
  all_goals omega

/-! ## Every command -/

/-- A successful command's output fits `OBUF` (R57). -/
theorem command_length {i : Instr} {s : State} {r : Result} (h : command i s = .ok r) :
    r.out.length ≤ s.inst.obuf.bytes := by
  have hl := s.inst.obuf.lower
  cases i <;> simp only [command] at h
  case hdrBuildRgba => obtain ⟨-, -, -, rfl⟩ := hdrBuild_inv h; simpa using hl
  case hdrBuildDxt1 => obtain ⟨-, -, -, rfl⟩ := hdrBuild_inv h; simpa using hl
  case hdrBuildDxt5 => obtain ⟨-, -, -, rfl⟩ := hdrBuild_inv h; simpa using hl
  case hdrParse =>
    unfold hdrParse at h
    split at h
    · cases h
    · rename_i hh
      obtain ⟨-, -, -, rfl⟩ := inputHeader_inv hh
      cases h
      simp only [State.header, State.length_inBytes]; omega
  case fccResolve =>
    unfold fccResolve at h
    split at h
    · cases h
    · cases h; simp
  case bc1Enc => obtain ⟨-, -, rfl⟩ := blockOp_inv h; simp only [length_bc1]; omega
  case bc3aEnc => obtain ⟨-, -, rfl⟩ := blockOp_inv h; simp only [length_bc3a]; omega
  case pack2 => obtain ⟨-, -, rfl⟩ := blockOp_inv h; simp only [packBytes, length_bytesLE]; omega
  case pack3 => obtain ⟨-, -, rfl⟩ := blockOp_inv h; simp only [packBytes, length_bytesLE]; omega
  case unpack2 => obtain ⟨-, -, rfl⟩ := blockOp_inv h; simp [unpackBytes, unpackFields]; omega
  case unpack3 => obtain ⟨-, -, rfl⟩ := blockOp_inv h; simp [unpackBytes, unpackFields]; omega
  case encFrameRgba => obtain ⟨-, -, -, -, -, -, hb, rfl⟩ := encFrame_inv h; simpa using hb
  case encFrameDxt1 => obtain ⟨-, -, -, -, -, -, hb, rfl⟩ := encFrame_inv h; simpa using hb
  case encFrameDxt5 => obtain ⟨-, -, -, -, -, -, hb, rfl⟩ := encFrame_inv h; simpa using hb
  case decFrame =>
    obtain ⟨-, -, -, -, -, hp, -⟩ := decFrame_inv h
    have := decodePixels_length hp
    omega

/-- The number of output bytes fits `x[3]` (R23). -/
theorem command_length_lt {i : Instr} {s : State} {r : Result} (h : command i s = .ok r) :
    r.out.length < 2 ^ 32 :=
  (command_length h).trans_lt s.inst.obuf.upper

/-- No command writes `x[2]`; only HDR_PARSE and DEC_FRAME write `x[0]` and `x[1]`; only they and FCC_RESOLVE write
`x[4]`, `x[5]` and `x[6]` (R21, R347). -/
theorem command_regs {i : Instr} {s : State} {r : Result} (h : command i s = .ok r) :
    r.x.inlen = s.x.inlen ∧
      (i ≠ .hdrParse → i ≠ .decFrame → r.x.width = s.x.width ∧ r.x.height = s.x.height) ∧
      (i ≠ .hdrParse → i ≠ .fccResolve → i ≠ .decFrame →
        r.x.fourcc = s.x.fourcc ∧ r.x.bitcount = s.x.bitcount ∧ r.x.probe = s.x.probe) := by
  cases i <;> simp only [command] at h
  case hdrBuildRgba => obtain ⟨-, -, -, rfl⟩ := hdrBuild_inv h; simp
  case hdrBuildDxt1 => obtain ⟨-, -, -, rfl⟩ := hdrBuild_inv h; simp
  case hdrBuildDxt5 => obtain ⟨-, -, -, rfl⟩ := hdrBuild_inv h; simp
  case hdrParse =>
    unfold hdrParse at h
    split at h
    · cases h
    · cases h; simp
  case fccResolve =>
    unfold fccResolve at h
    split at h
    · cases h
    · cases h; simp
  case bc1Enc => obtain ⟨-, -, rfl⟩ := blockOp_inv h; simp
  case bc3aEnc => obtain ⟨-, -, rfl⟩ := blockOp_inv h; simp
  case pack2 => obtain ⟨-, -, rfl⟩ := blockOp_inv h; simp
  case pack3 => obtain ⟨-, -, rfl⟩ := blockOp_inv h; simp
  case unpack2 => obtain ⟨-, -, rfl⟩ := blockOp_inv h; simp
  case unpack3 => obtain ⟨-, -, rfl⟩ := blockOp_inv h; simp
  case encFrameRgba => obtain ⟨-, -, -, -, -, -, -, rfl⟩ := encFrame_inv h; simp
  case encFrameDxt1 => obtain ⟨-, -, -, -, -, -, -, rfl⟩ := encFrame_inv h; simp
  case encFrameDxt5 => obtain ⟨-, -, -, -, -, -, -, rfl⟩ := encFrame_inv h; simp
  case decFrame =>
    obtain ⟨-, -, -, -, -, -, hx⟩ := decFrame_inv h
    rw [hx]
    simp [State.decodedRegs]

/-! ## Host actions -/

/-- What a host action does when the machine goes on, but for the commands (R22, R28, R30, R31, R79, R340). -/
theorem hostLoad_inv {bs : List Byte} {s t : State} (h : hostLoad bs s = .next t) :
    bs.length ≤ s.inst.ibuf.bytes ∧
      t = { s with ibuf := s.ibuf.writeBytes 0 bs, x := { s.x with inlen := reg bs.length } } := by
  unfold hostLoad at h
  split at h
  · rename_i hb
    exact ⟨hb, by injection h with h; exact h.symm⟩
  · cases h

theorem runCommand_cases (w : Word) (s : State) :
    (∃ i, decode w = .ok i ∧ runCommand w s = exec i s) ∨
      ((∃ e, decode w = .error e) ∧ runCommand w s = .next (s.raise .illegalCommand)) := by
  unfold runCommand
  cases h : decode w with
  | ok i => exact .inl ⟨i, rfl, rfl⟩
  | error e => exact .inr ⟨⟨e, rfl⟩, rfl⟩

end Sys2Proof.Machine
end

