-- ==== Sys2Proof/Laws/Completion.lean ====
section
/-!
SUPPORT. From the pure result of a command to the step it takes: success completes as `Completes` says, an error changes
nothing but `STATUS` (60_exceptions.md R300, R303, R304).
-/

namespace Sys2Proof.Machine

theorem statusOk_eq : statusOk = 0x80#32 := by decide

theorem statusErr_ne_ok (e : Err) : statusErr e ≠ 0x80#32 := by cases e <;> decide

/-- What `done` leaves, field by field (R303). -/
theorem State.done_completes (s : State) (r : Result) (h : r.out.length < 2 ^ 32) :
    Completes s (s.done r) r.x r.out where
  regs := rfl
  fits := h
  status := statusOk_eq
  written := fun k b hb => by simpa using hb
  beyond := fun k hk => by simpa using hk
  ibuf := ⟨rfl, rfl⟩
  rest := ⟨rfl, rfl⟩

/-- A command whose result is a success, and whose input bytes are written, completes with it. -/
theorem exec_completes {i : Instr} {s : State} {r : Result} (h : command i s = .ok r)
    (hw : ∀ k ∈ commandReads i s, s.written k) : ∃ t, exec i s = .next t ∧ Completes s t r.x r.out :=
  ⟨_, exec_eq_finish hw, by rw [h]; exact s.done_completes r (command_length_lt h)⟩

/-- A command whose result is an error, and whose input bytes are written, changes nothing but `STATUS`. -/
theorem exec_raises {i : Instr} {s : State} {e : Err} (h : command i s = .error e)
    (hw : ∀ k ∈ commandReads i s, s.written k) : exec i s = .next { s with status := statusErr e } := by
  rw [exec_eq_finish hw, h]; rfl

/-- A block operation on its exact length completes once its input bytes are written, and stops on one that is not. -/
theorem exec_block {i : Instr} {need : Nat} {offs : List Nat} {f : State → List Byte} {s : State}
    (hc : command i s = blockOp need f s) (hr : commandReads i s = readsAfterChecks (blockOp need f s) offs)
    (hn : s.inlen = need) (h128 : need ≤ 128) :
    ((∀ k ∈ offs, s.written k) → ∃ t, exec i s = .next t ∧ Completes s t s.x (f s)) ∧
      ((∃ k ∈ offs, s.written k = false) → exec i s = .fault .unwrittenInput) := by
  have hb : s.inlen ≤ s.inst.ibuf.bytes := by have := s.inst.ibuf.lower; omega
  have hm : ∀ k, k ∈ commandReads i s ↔ k ∈ offs := fun k => by
    rw [hr, mem_blockReads]; exact ⟨And.right, fun hk => ⟨⟨hb, hn⟩, hk⟩⟩
  refine ⟨fun hw => ?_, fun ⟨k, hk, h⟩ => exec_stops ((hm k).2 hk) h⟩
  exact exec_completes (hc.trans (blockOp_ok hb hn)) fun k hk => hw k ((hm k).1 hk)

theorem State.width_lt (s : State) : s.width < 2 ^ 32 := s.x.width.isLt
theorem State.height_lt (s : State) : s.height < 2 ^ 32 := s.x.height.isLt
theorem State.inlen_lt (s : State) : s.inlen < 2 ^ 32 := s.x.inlen.isLt

end Sys2Proof.Machine
end

