-- ==== Sys2Proof/Laws/Header.lean ====
section
/-!
SUPPORT. What the header operations do: the fields of a built header (40_header.md R103, R104), the success of a build,
and that the resolver gives the one outcome `Resolves` describes (R121).
-/

namespace Sys2Proof.Machine

theorem le_bytesLE_four {v : Nat} (h : v < 2 ^ 32) : le (bytesLE v 4) = v := by
  rw [le_bytesLE]; exact Nat.mod_eq_of_lt h

theorem slice_all {bs : List Byte} {n : Nat} (h : n = bs.length) : slice bs 0 n = bs := by simp [slice, h]

theorem slice_slice (bs : List Byte) {a n o m : Nat} (h : o + m ≤ n) : slice (slice bs a n) o m = slice bs (a + o) m := by
  simp only [slice, List.drop_take, List.take_take, List.drop_drop]
  rw [Nat.min_eq_left (by omega)]

theorem getElem?_slice (bs : List Byte) {a n k : Nat} (h : k < n) : (slice bs a n)[k]? = bs[a + k]? := by
  simp [slice, h]

/-- Every field of a built header, at its offset (R103, R104). -/
theorem buildHeader_fields (w h : Nat) (f : Fmt) :
    slice (buildHeader w h f) 0 4 = magic ∧ slice (buildHeader w h f) 4 4 = bytesLE 124 4 ∧
      slice (buildHeader w h f) 8 4 = bytesLE (headerFlags f) 4 ∧ slice (buildHeader w h f) 12 4 = bytesLE h 4 ∧
      slice (buildHeader w h f) 16 4 = bytesLE w 4 ∧
      slice (buildHeader w h f) 20 4 = bytesLE (pitchOrLinearSize w h f) 4 ∧
      slice (buildHeader w h f) 24 52 = List.replicate 52 0 ∧ slice (buildHeader w h f) 76 32 = pixelFormat f ∧
      slice (buildHeader w h f) 108 4 = bytesLE ddscapsTexture 4 ∧
      slice (buildHeader w h f) 112 16 = List.replicate 16 0 := by
  have e : ∀ v, bytesLE v 4 =
      [BitVec.ofNat 8 v, BitVec.ofNat 8 (v >>> 8), BitVec.ofNat 8 (v >>> 16), BitVec.ofNat 8 (v >>> 24)] :=
    fun v => rfl
  refine ⟨?_, ?_, ?_, ?_, ?_, ?_, ?_, ?_, ?_, ?_⟩ <;> cases f <;>
    simp only [buildHeader, magic, e, pixelFormat, compTagBytes, slice] <;> rfl

/-- A 4-byte field of the pixel-format block. -/
theorem slice_pixelFormat (w h : Nat) (f : Fmt) {o : Nat} (ho : o + 4 ≤ 32) :
    slice (buildHeader w h f) (76 + o) 4 = slice (pixelFormat f) o 4 := by
  rw [← (buildHeader_fields w h f).2.2.2.2.2.2.2.1, slice_slice _ ho]

theorem hdrBuild_ok {f : Fmt} {s : State} (hw : 1 ≤ s.width) (hh : 1 ≤ s.height)
    (hp : pitchOrLinearSize s.width s.height f < 2 ^ 32) :
    hdrBuild f s = .ok { x := s.x, out := buildHeader s.width s.height f } := by
  unfold hdrBuild
  rw [if_neg (by omega), if_neg (by omega)]

theorem HeaderAccepted.inputHeader {s : State} (h : HeaderAccepted s) : inputHeader s = .ok s.header :=
  inputHeader_ok h.fits h.long h.magic

theorem HeaderAccepted.inputProbe {s : State} (h : HeaderAccepted s) :
    inputProbe s = resolveFourCC s.inst.alt.off (s.inBytes 0 128) := by
  rw [Machine.inputProbe, s.headerBytes_eq h.long]

/-! ## The resolver (R121) -/

theorem matchTag_eq_some {w : List Byte} {t : Tag} : matchTag w = some t ↔ w = tagBytes t := by
  unfold matchTag
  constructor
  · intro h
    have := List.find?_some h
    exact (by simpa using this : tagBytes t = w).symm
  · rintro rfl
    rcases t with (_ | _ | _) | _ <;> rfl

theorem matchTag_eq_none {w : List Byte} : matchTag w = none ↔ ∀ t, w ≠ tagBytes t := by
  constructor
  · intro h t e
    rw [matchTag_eq_some.2 e] at h; cases h
  · intro h
    cases e : matchTag w with
    | none => rfl
    | some t => exact absurd (matchTag_eq_some.1 e) (h t)

theorem findSome?_range'_first {β : Type} {f : Nat → Option β} {a n : Nat} {b : β}
    (h : (List.range' a n).findSome? f = some b) :
    ∃ o, a ≤ o ∧ o < a + n ∧ f o = some b ∧ ∀ j, a ≤ j → j < o → f j = none := by
  induction n generalizing a with
  | zero => simp at h
  | succ n ih =>
    rw [List.range'_succ, List.findSome?_cons] at h
    cases e : f a with
    | some c => rw [e] at h; cases h; exact ⟨a, le_rfl, by omega, e, fun j h1 h2 => by omega⟩
    | none =>
      rw [e] at h
      obtain ⟨o, h1, h2, h3, h4⟩ := ih h
      refine ⟨o, by omega, by omega, h3, fun j hj1 hj2 => ?_⟩
      rcases Nat.eq_or_lt_of_le hj1 with rfl | hj
      · exact e
      · exact h4 j hj hj2

/-- The scan finds the first window that is a tag. -/
theorem scanHeader_some {hdr : List Byte} {p : Probe} (h : scanHeader hdr = some p) :
    ∃ t o, p = ⟨some t, 2, o⟩ ∧ 4 ≤ o ∧ o ≤ 124 ∧ WindowIs hdr o t ∧ ∀ j, 4 ≤ j → j < o → NoTagAt hdr j := by
  obtain ⟨o, h1, h2, h3, h4⟩ := findSome?_range'_first h
  obtain ⟨t, ht, rfl⟩ := Option.map_eq_some_iff.1 h3
  refine ⟨t, o, rfl, h1, by omega, matchTag_eq_some.1 ht, fun j hj1 hj2 => ?_⟩
  exact matchTag_eq_none.1 (Option.map_eq_none_iff.1 (h4 j hj1 hj2))

theorem scanHeader_none {hdr : List Byte} (h : scanHeader hdr = none) : ∀ o, 4 ≤ o → o ≤ 124 → NoTagAt hdr o := by
  intro o h1 h2
  have := List.findSome?_eq_none_iff.1 h o (List.mem_range'_1.2 ⟨h1, by omega⟩)
  exact matchTag_eq_none.1 (Option.map_eq_none_iff.1 this)

/-- The resolver's answer is an outcome of the three ordered probes. -/
theorem resolveFourCC_resolves (alt : Nat) (hdr : List Byte) :
    Resolves alt hdr (resolveFourCC alt hdr).tag (resolveFourCC alt hdr).stage (resolveFourCC alt hdr).off := by
  have scan : ∀ (n0 : NoTagAt hdr 84) (n1 : slice hdr 84 4 = [0, 0, 0, 0] → NoTagAt hdr alt),
      Resolves alt hdr ((scanHeader hdr).getD ⟨none, 3, 0⟩).tag ((scanHeader hdr).getD ⟨none, 3, 0⟩).stage
        ((scanHeader hdr).getD ⟨none, 3, 0⟩).off := fun n0 n1 => by
    refine .inr (.inr ⟨n0, n1, ?_⟩)
    cases h2 : scanHeader hdr with
    | some p =>
      obtain ⟨t, o, rfl, h3, h4, h5, h6⟩ := scanHeader_some h2
      exact .inl ⟨rfl, h3, h4, ⟨t, rfl, h5⟩, h6⟩
    | none => exact .inr ⟨rfl, rfl, rfl, scanHeader_none h2⟩
  unfold resolveFourCC
  cases h0 : matchTag (slice hdr 84 4) with
  | some t =>
    simp only [probeCanonical, canonicalOff, h0, Option.map_some]
    exact .inl ⟨rfl, rfl, t, rfl, matchTag_eq_some.1 h0⟩
  | none =>
    simp only [probeCanonical, canonicalOff, h0, Option.map_none]
    have n0 : NoTagAt hdr 84 := matchTag_eq_none.1 h0
    by_cases hz : slice hdr 84 4 = [0, 0, 0, 0]
    · cases h1 : matchTag (slice hdr alt 4) with
      | some t =>
        simp only [probeAlternate, canonicalOff, hz, h1, if_true, Option.map_some]
        exact .inr (.inl ⟨rfl, rfl, hz, t, rfl, matchTag_eq_some.1 h1⟩)
      | none =>
        simp only [probeAlternate, canonicalOff, hz, h1, if_true, Option.map_none]
        exact scan n0 fun _ => matchTag_eq_none.1 h1
    · simp only [probeAlternate, canonicalOff, hz, if_false]
      exact scan n0 fun h => absurd h hz

theorem tagBytes_injective {a b : Tag} (h : tagBytes a = tagBytes b) : a = b := by
  rcases a with (_ | _ | _) | _ <;> rcases b with (_ | _ | _) | _ <;> first | rfl | exact absurd h (by decide)

theorem WindowIs.unique {hdr : List Byte} {o : Nat} {a b : Tag} (h1 : WindowIs hdr o a) (h2 : WindowIs hdr o b) :
    a = b :=
  tagBytes_injective (h1.symm.trans h2)

/-- Zero bytes are no tag. -/
theorem noTagAt_of_zero {hdr : List Byte} {o : Nat} (h : slice hdr o 4 = [0, 0, 0, 0]) : NoTagAt hdr o := by
  intro t ht
  unfold WindowIs at ht
  rw [h] at ht
  rcases t with (_ | _ | _) | _ <;> exact absurd ht (by decide)

/-- The three probes have one outcome. -/
theorem Resolves.unique {alt : Nat} {hdr : List Byte} {t1 t2 : Option Tag} {s1 s2 o1 o2 : Nat}
    (h1 : Resolves alt hdr t1 s1 o1) (h2 : Resolves alt hdr t2 s2 o2) : t1 = t2 ∧ s1 = s2 ∧ o1 = o2 := by
  rcases h1 with ⟨rfl, rfl, t, rfl, ht⟩ | ⟨rfl, rfl, hz, t, rfl, ht⟩ | ⟨n0, n1, h1⟩
  · rcases h2 with ⟨rfl, rfl, u, rfl, hu⟩ | ⟨rfl, rfl, hz, u, rfl, hu⟩ | ⟨n0, n1, h2⟩
    · exact ⟨by rw [ht.unique hu], rfl, rfl⟩
    · exact absurd ht (noTagAt_of_zero hz t)
    · exact absurd ht (n0 t)
  · rcases h2 with ⟨rfl, rfl, u, rfl, hu⟩ | ⟨rfl, rfl, hz, u, rfl, hu⟩ | ⟨n0, n1, h2⟩
    · exact absurd hu (noTagAt_of_zero hz u)
    · exact ⟨by rw [ht.unique hu], rfl, rfl⟩
    · exact absurd ht (n1 hz t)
  · rcases h2 with ⟨rfl, rfl, u, rfl, hu⟩ | ⟨rfl, rfl, hz, u, rfl, hu⟩ | ⟨m0, m1, h2⟩
    · exact absurd hu (n0 u)
    · exact absurd hu (n1 hz u)
    · rcases h1 with ⟨rfl, a1, a2, ⟨t, rfl, ht⟩, a3⟩ | ⟨rfl, rfl, rfl, a3⟩ <;>
        rcases h2 with ⟨rfl, b1, b2, ⟨u, rfl, hu⟩, b3⟩ | ⟨rfl, rfl, rfl, b3⟩
      · have : o1 = o2 := by
          rcases lt_trichotomy o1 o2 with h | h | h
          · exact absurd ht (b3 o1 a1 h t)
          · exact h
          · exact absurd hu (a3 o2 b1 h u)
        subst this
        exact ⟨by rw [ht.unique hu], rfl, rfl⟩
      · exact absurd ht (b3 o1 a1 a2 t)
      · exact absurd hu (a3 o2 b1 b2 u)
      · exact ⟨rfl, rfl, rfl⟩

theorem Resolves.eq {alt : Nat} {hdr : List Byte} {t : Option Tag} {s o : Nat} (h : Resolves alt hdr t s o) :
    resolveFourCC alt hdr = ⟨t, s, o⟩ := by
  obtain ⟨h1, h2, h3⟩ := (resolveFourCC_resolves alt hdr).unique h
  cases e : resolveFourCC alt hdr
  simp_all

theorem Probe.fourCC_eq (p : Probe) : p.fourCC = fourCCOf p.tag := by
  unfold Probe.fourCC fourCCOf
  split <;> simp_all [tagWord]

/-- The register value of an outcome (R125). -/
theorem Resolves.word {alt : Nat} {hdr : List Byte} {t : Option Tag} {s o : Nat} (h : Resolves alt hdr t s o) :
    (⟨t, s, o⟩ : Probe).word = s + 256 * o := by
  have hs : s < 4 := by rcases h with ⟨rfl, _⟩ | ⟨rfl, _⟩ | ⟨_, _, ⟨rfl, _⟩ | ⟨rfl, _⟩⟩ <;> omega
  simp only [Probe.word, Nat.shiftLeft_eq]
  rw [Nat.or_comm, Nat.mul_comm o, ← Nat.two_pow_add_eq_or_of_lt (show s < 2 ^ 8 by omega)]
  omega

end Sys2Proof.Machine
end

