-- ==== Sys2Proof/Laws/Blocks.lean ====
section
/-!
SUPPORT. What the block compressors store: selection, endpoint order, and the fields of a stored block (41_bc1.md R150,
R153 to R155, 42_bc3_alpha.md R182 to R186).
-/

namespace Sys2Proof.Machine

/-- `argmin` over the costs of a list is the nearest entry, the lowest on a tie (R10). -/
theorem argmin_nearestLowest {α : Type} (cost : α → Nat) {xs : List α} (h : xs ≠ []) :
    NearestLowest cost xs (argmin (xs.map cost)) := by
  have hlt := argmin_lt (costs := xs.map cost) (by simpa using h)
  have hlt' : argmin (xs.map cost) < xs.length := by simpa using hlt
  refine ⟨xs[argmin (xs.map cost)], List.getElem?_eq_getElem hlt', ?_, ?_⟩
  · intro b hb
    obtain ⟨j, hj, rfl⟩ := List.getElem_of_mem hb
    have := argmin_le hlt (j := j) (by simpa using hj)
    rw [List.getElem_map, List.getElem_map] at this
    exact this
  · intro j b hj hb
    obtain ⟨hj', rfl⟩ := List.getElem?_eq_some_iff.1 hb
    simpa using argmin_first hlt hj

/-! ## BC1 -/

theorem pack565_lt {c : V3 Nat} (hr : c.r < 256) (hg : c.g < 256) (hb : c.b < 256) : pack565 c < 2 ^ 16 := by
  refine Nat.or_lt_two_pow (Nat.or_lt_two_pow ?_ ?_) ?_ <;>
    simp only [Nat.shiftLeft_eq, Nat.shiftRight_eq_div_pow] <;> omega

theorem Ratio.toByte_le (q : Ratio) : q.toByte ≤ 255 := by
  unfold Ratio.toByte
  split_ifs with h1 h2
  · omega
  · exact le_rfl
  · rcases Nat.eq_zero_or_pos q.den with hd | hd
    · rw [hd]; simp
    · have : (2 * q.num + q.den) / (2 * (q.den : Int)) < 256 := by
        rw [Int.ediv_lt_iff_lt_mul (by positivity)]
        omega
      omega

/-- The packed value, field by field (R142, R149). -/
theorem pack565_eq {c : V3 Nat} (hg : c.g < 256) (hb : c.b < 256) :
    pack565 c = 2048 * (c.r / 8) + 32 * (c.g / 4) + c.b / 8 := by
  have o : ∀ k a b, b < 2 ^ k → a <<< k ||| b = 2 ^ k * a + b := fun k a b h => by
    rw [Nat.shiftLeft_eq, Nat.mul_comm, Nat.two_pow_add_eq_or_of_lt h]
  simp only [pack565, Nat.shiftRight_eq_div_pow]
  rw [Nat.or_assoc, o 5 _ _ (by omega), o 11 _ _ (by omega)]
  omega

/-- `Q565` drops the low bits of the rounded bytes (R149). -/
theorem q565_eq (e : V3 Ratio) : q565 e = 2048 * (e.r.toByte / 8) + 32 * (e.g.toByte / 4) + e.b.toByte / 8 :=
  pack565_eq (Nat.lt_succ_of_le e.g.toByte_le) (Nat.lt_succ_of_le e.b.toByte_le)

/-- The squared distance, channel by channel (R153). -/
theorem dist2_eq (p q : Rgb) :
    dist2 p q =
      ((p.r : Int) - q.r).natAbs ^ 2 + ((p.g : Int) - q.g).natAbs ^ 2 + ((p.b : Int) - q.b).natAbs ^ 2 := by
  have : ∀ a b : Nat, (((a : Int) - b) ^ 2).toNat = ((a : Int) - b).natAbs ^ 2 := fun a b => by
    rw [← Int.natAbs_sq]; norm_cast
  simp only [dist2, this]

/-- The channel sums (R143). -/
theorem sampleSum_eq (ps : List Rgb) :
    sampleSum ps = ⟨(ps.map fun p => (p.r : Int)).sum, (ps.map fun p => (p.g : Int)).sum,
      (ps.map fun p => (p.b : Int)).sum⟩ := by
  induction ps with
  | nil => rfl
  | cons p ps ih => rw [show sampleSum (p :: ps) = V3.zip (· + ·) (p.map Int.ofNat) (sampleSum ps) from rfl, ih]; rfl

/-- An endpoint of another evaluation has a positive denominator. -/
theorem ratioOf_den_pos (q : Int × Nat) : 0 < (ratioOf q).den := Nat.succ_pos _

theorem q565_lt (e : V3 Ratio) : q565 e < 2 ^ 16 :=
  pack565_lt (Nat.lt_succ_of_le e.r.toByte_le) (Nat.lt_succ_of_le e.g.toByte_le) (Nat.lt_succ_of_le e.b.toByte_le)

/-- The larger endpoint is stored first (R150). -/
theorem bc1Endpoints_eq (fit : Fit) (ps : List Rgb) :
    bc1Endpoints fit ps =
      (max (q565 (fit ps).1) (q565 (fit ps).2), min (q565 (fit ps).1) (q565 (fit ps).2)) := by
  unfold bc1Endpoints orderEndpoints
  split_ifs with h
  · rw [max_eq_right h.le, min_eq_left h.le]
  · rw [max_eq_left (not_lt.1 h), min_eq_right (not_lt.1 h)]

theorem bc1Index_lt (c0 c1 : Nat) (p : Rgb) : bc1Index (bc1Palette c0 c1) p < 2 ^ 2 :=
  argmin_lt (costs := (bc1Palette c0 c1).map (dist2 p)) (by simp [bc1Palette])

theorem bc1Indices_lt (fit : Fit) (ps : List Rgb) : ∀ v ∈ bc1Indices fit ps, v < 2 ^ 2 := by
  intro v hv
  obtain ⟨p, _, rfl⟩ := List.mem_map.1 hv
  exact bc1Index_lt _ _ _

theorem le_bytesLE_of_lt {v n : Nat} (h : v < 256 ^ n) : le (bytesLE v n) = v := by
  rw [le_bytesLE, Nat.mod_eq_of_lt h]

/-- The three fields of a stored colour block (R141, R155). -/
theorem bc1With_fields (fit : Fit) {ps : List Rgb} (hl : ps.length = 16) :
    le (slice (bc1With fit ps) 0 2) = (bc1Endpoints fit ps).1 ∧
      le (slice (bc1With fit ps) 2 2) = (bc1Endpoints fit ps).2 ∧
      le (slice (bc1With fit ps) 4 4) = packFields 2 (bc1Indices fit ps) := by
  have hA := q565_lt (fit ps).1
  have hB := q565_lt (fit ps).2
  have hp := packFields_lt (bc1Indices_lt fit ps)
  have hlen : (bc1Indices fit ps).length = 16 := by simp [bc1Indices, hl]
  rw [hlen] at hp
  have e1 : (bc1Endpoints fit ps).1 < 256 ^ 2 := by rw [bc1Endpoints_eq]; exact max_lt hA hB
  have e2 : (bc1Endpoints fit ps).2 < 256 ^ 2 := by rw [bc1Endpoints_eq]; exact min_lt_of_left_lt hA
  unfold bc1With
  simp only
  refine ⟨?_, ?_, ?_⟩
  · rw [slice_append_left (by simp), slice_append_left (by simp), slice_all (by simp), le_bytesLE_of_lt e1]
  · rw [slice_append_left (by simp), slice_append_right (by simp)]
    simp only [length_bytesLE, Nat.sub_self]
    rw [slice_all (by simp), le_bytesLE_of_lt e2]
  · rw [slice_append_right (by simp)]
    simp only [List.length_append, length_bytesLE, Nat.reduceAdd, Nat.sub_self]
    rw [slice_all (by simp), le_bytesLE_of_lt]
    simpa using hp

/-! ## BC3 alpha -/

theorem length_alphaPalette (a0 a1 : Nat) : (alphaPalette a0 a1).length = 8 := by
  unfold alphaPalette
  split_ifs <;> simp [ramp8, rampFixed]

theorem alphaPalette_ne_nil (a0 a1 : Nat) : alphaPalette a0 a1 ≠ [] := by
  intro h
  have := length_alphaPalette a0 a1
  simp [h] at this

theorem alphaIndices_lt (als : List Nat) : ∀ v ∈ alphaIndices als, v < 2 ^ 3 := by
  intro v hv
  obtain ⟨a, _, rfl⟩ := List.mem_map.1 hv
  have := argmin_lt
    (costs := (alphaPalette (maxNat als) (minNat als)).map fun p : Nat => ((a : Int) - (p : Int)).natAbs)
    (by simp [alphaPalette_ne_nil])
  rw [List.length_map, length_alphaPalette] at this
  exact this

/-- The three fields of a stored alpha block (R181, R182, R186). -/
theorem bc3a_fields {als : List Nat} (hl : als.length = 16) (h : ∀ a ∈ als, a ≤ 255) :
    le (slice (bc3a als) 0 1) = maxNat als ∧ le (slice (bc3a als) 1 1) = minNat als ∧
      le (slice (bc3a als) 2 6) = packFields 3 (alphaIndices als) := by
  have hne : als ≠ [] := by rintro rfl; simp at hl
  have h1 := h _ (maxNat_mem hne)
  have h2 := h _ (minNat_mem hne)
  have hp := packFields_lt (alphaIndices_lt als)
  have hlen : (alphaIndices als).length = 16 := by simp [alphaIndices, hl]
  rw [hlen] at hp
  refine ⟨?_, ?_, ?_⟩
  · have : slice (bc3a als) 0 1 = [BitVec.ofNat 8 (maxNat als)] := rfl
    rw [this]; simp [le]; omega
  · have : slice (bc3a als) 1 1 = [BitVec.ofNat 8 (minNat als)] := rfl
    rw [this]; simp [le]; omega
  · unfold bc3a
    rw [slice_append_right (by simp)]
    simp only [List.length_cons, List.length_nil, Nat.reduceAdd, Nat.sub_self]
    rw [slice_all (by simp), le_bytesLE_of_lt]
    simpa using hp

end Sys2Proof.Machine
end

