-- ==== Sys2Proof/Laws/Frames.lean ====
section
/-!
SUPPORT. What the frame operations share: blocks at their offsets, pixels at theirs, the branch a resolved tag takes
(45_frame_decode.md R251), and what a `MOVE` leaves in the input (30_encoding.md R79).
-/

namespace Sys2Proof.Machine

/-- A concatenation of pieces of one length has piece `i` at `i` times that length. -/
theorem slice_flatMap_range {g : Nat → List Byte} {m n i : Nat} (hg : ∀ j, (g j).length = m) (hi : i < n) :
    slice ((List.range n).flatMap g) (i * m) m = g i := by
  have hlen : ∀ k, ((List.range k).flatMap g).length = k * m := fun k => by
    simp [List.length_flatMap, hg]
  induction n with
  | zero => omega
  | succ n ih =>
    rw [List.range_succ, List.flatMap_append]
    rcases Nat.lt_or_ge i n with h | h
    · rw [slice_append_left (by rw [hlen, ← Nat.succ_mul]; exact Nat.mul_le_mul_right _ h), ih h]
    · have : i = n := by omega
      subst this
      rw [slice_append_right (by rw [hlen]), hlen, Nat.sub_self]
      simp [slice, hg]

/-- Block `(bx, by)` of a payload stands at its offset (R226). -/
theorem slice_blockPayload (s : State) (f : Fmt) {bx by' : Nat} (hy : by' < ceil4 s.height) (hx : bx < ceil4 s.width) :
    slice (blockPayload f s) ((by' * ceil4 s.width + bx) * blockBytes f) (blockBytes f) = blockOf s bx by' f := by
  have hlr : ∀ y, ((List.range (ceil4 s.width)).flatMap fun bx => blockOf s bx y f).length =
      ceil4 s.width * blockBytes f := fun y => by simp [List.length_flatMap, length_blockOf]
  have h1 := slice_flatMap_range hlr hy
  have h2 := slice_flatMap_range (fun j => length_blockOf s j by' f) hx
  have hle : bx * blockBytes f + blockBytes f ≤ ceil4 s.width * blockBytes f := by
    rw [← Nat.succ_mul]; exact Nat.mul_le_mul_right _ hx
  rw [show (by' * ceil4 s.width + bx) * blockBytes f =
      by' * (ceil4 s.width * blockBytes f) + bx * blockBytes f by ring, ← slice_slice _ hle, blockPayload, h1, h2]

theorem byteAt_inBytes (s : State) {a n i : Nat} (h : i < n) : byteAt (s.inBytes a n) i = s.inByte (a + i) := by
  simp [byteAt, List.getD, State.inBytes, h]

/-! ## The branch of DEC_FRAME (R251 lines 8, 9 and 17) -/

theorem decodePixels_untagged {s : State} {stage off : Nat} {p : List Byte} (h : HeaderAccepted s)
    (hr : Resolves s.inst.alt.off (s.inBytes 0 128) none stage off) :
    decodePixels s s.header p =
      decodeUncompressed s.inst.obuf.bytes (s.memRead 88 4) (s.memRead 92 4) p (s.memRead 16 4) (s.memRead 12 4) := by
  simp only [decodePixels, h.inputProbe, hr.eq]
  rfl

theorem decodePixels_compressed {s : State} {c : CompTag} {stage off : Nat} {p : List Byte} (h : HeaderAccepted s)
    (hr : Resolves s.inst.alt.off (s.inBytes 0 128) (some (.comp c)) stage off) :
    decodePixels s s.header p = decodeCompressed s.inst.obuf.bytes c p (s.memRead 16 4) (s.memRead 12 4) := by
  simp only [decodePixels, h.inputProbe, hr.eq]
  rfl

theorem decodePixels_dx10 {s : State} {stage off : Nat} {p : List Byte} (h : HeaderAccepted s)
    (hr : Resolves s.inst.alt.off (s.inBytes 0 128) (some .dx10) stage off) :
    decodePixels s s.header p = .error .format := by
  simp only [decodePixels, h.inputProbe, hr.eq]

/-- The end of a decode on an accepted header whose dimensions are not zero: the pixels are the output, or their error is
raised. -/
theorem decFrame_completes {s : State} {tag : Option Tag} {stage off : Nat} {px : List Byte} (h : HeaderAccepted s)
    (hr : Resolves s.inst.alt.off (s.inBytes 0 128) tag stage off) (hw : s.memRead 16 4 ≠ 0) (hh : s.memRead 12 4 ≠ 0)
    (hp : decodePixels s s.header (s.inBytes 128 (s.inlen - 128)) = .ok px) (hws : ∀ k < s.inlen, s.written k) :
    ∃ t, exec .decFrame s = .next t ∧ Completes s t (DecodedRegs s tag stage off) px := by
  have hc : command .decFrame s = .ok { x := s.decodedRegs, out := px } := decFrame_ok h.fits h.long h.magic hw hh hp
  obtain ⟨t, h1, h2⟩ := exec_completes hc fun k hk => hws k (commandReads_lt hk)
  refine ⟨t, h1, ?_⟩
  simp only [State.decodedRegs, h.inputProbe, hr.eq, Probe.fourCC_eq, hr.word] at h2
  exact h2

/-- The check before the payload, by the resolved tag (R251 lines 8 to 12 and 18 to 21). -/
theorem payloadCheck_eq {s : State} {tag : Option Tag} {stage off : Nat} (h : HeaderAccepted s)
    (hr : Resolves s.inst.alt.off (s.inBytes 0 128) tag stage off) :
    payloadCheck s s.header =
      match tag with
      | some .dx10 => some .format
      | some (.comp c) => compressedCheck s.inst.obuf.bytes c (s.inlen - 128) (s.memRead 16 4) (s.memRead 12 4)
      | none =>
        uncompressedCheck s.inst.obuf.bytes (s.memRead 88 4) (s.inlen - 128) (s.memRead 16 4) (s.memRead 12 4) := by
  simp only [payloadCheck, h.inputProbe, hr.eq]
  cases tag with
  | none => rfl
  | some t => cases t <;> rfl

/-- The bytes a decode of an accepted header with non-zero dimensions reads: the header, and the payload unless a check
stops it first. -/
theorem mem_decFrameReads {s : State} {k : Nat} (h : HeaderAccepted s) (hw : s.memRead 16 4 ≠ 0)
    (hh : s.memRead 12 4 ≠ 0) :
    k ∈ commandReads .decFrame s ↔ k < 128 ∨ payloadCheck s s.header = none ∧ 128 ≤ k ∧ k < s.inlen := by
  have := h.long
  have hm : s.inBytes 0 4 = magic := h.magic
  have e := mem_headerReads (after := decodeReads s) (s := s) (k := k)
  rw [show commandReads .decFrame s = headerReads (decodeReads s) s from rfl, e, mem_decodeReads]
  have hz : s.header.width ≠ 0 ∧ s.header.height ≠ 0 := ⟨hw, hh⟩
  by_cases hp : payloadCheck s s.header = none <;> simp [h.fits, h.long, hm, hz, hp] <;> omega

theorem decFrame_raises {s : State} {e : Err} (h : HeaderAccepted s) (hw : s.memRead 16 4 ≠ 0)
    (hh : s.memRead 12 4 ≠ 0) (hp : decodePixels s s.header (s.inBytes 128 (s.inlen - 128)) = .error e)
    (hws : ∀ k, (k < 128 ∨ payloadCheck s s.header = none ∧ k < s.inlen) → s.written k) :
    exec .decFrame s = .next { s with status := statusErr e } := by
  refine exec_raises ?_ fun k hk => hws k <| ((mem_decFrameReads h hw hh).1 hk).imp_right fun h => ⟨h.1, h.2.2⟩
  simp only [command, decFrame, h.inputHeader]
  rw [if_neg (by simp [State.header, hw, hh]), hp]

/-! ## `MOVE` (R79) -/

/-- After a `MOVE` of a command's whole output, the input bytes are the output bytes. -/
theorem hostMove_output {s : State} {out : List Byte} (ho : ∀ k b, out[k]? = some b → s.obuf.get? k = some b)
    (h1 : out.length ≤ s.inst.obuf.bytes) (h2 : out.length ≤ s.inst.ibuf.bytes) :
    ∃ u, hostStep (.move out.length) s = .next u ∧ u.inlen = out.length ∧ u.inst = s.inst ∧
      u.x = { s.x with inlen := reg out.length } ∧
      ∀ k (hk : k < out.length), u.inByte k = out[k] ∧ u.written k := by
  have hl : (s.hostReadObufBytes out.length).length = out.length := by simp [State.hostReadObufBytes]
  have h3 := h1.trans_lt s.inst.obuf.upper
  refine ⟨{ s with
    ibuf := s.ibuf.writeBytes 0 (s.hostReadObufBytes out.length), x := { s.x with inlen := reg out.length } },
    ?_, ?_, rfl, rfl, ?_⟩
  · simp [hostStep, hostMove, hostLoad, h1, hl, h2]
  · simp [State.inlen, reg]; omega
  · intro k hk
    have := Memory.get?_writeBytes_inside s.ibuf (o := 0) (i := k) (bs := s.hostReadObufBytes out.length)
      (by rw [hl]; exact hk)
    rw [Nat.zero_add] at this
    simp only [State.inByte, State.written, this, Option.getD_some, Option.isSome_some, and_true]
    simp [State.hostReadObufBytes, State.hostReadObuf, ho k _ (List.getElem?_eq_getElem hk)]

end Sys2Proof.Machine
end

