-- ==== Sys2Proof/Laws/PerInstr.lean ====
section
/-!
SUPPORT. The law of every instruction as syntax: its encoded fields are well formed (30_encoding.md R74), and its word has
these fields (R70).
-/

namespace Sys2Proof.Laws.EncodesLegally

/-- The word of the instruction is legal and its fields are those of the opcode map. -/
def Statement (i : Instr) : Prop :=
  (encodeFields i).wellFormed = true ∧ CmdFields.ofWord (encode i) = encodeFields i

theorem hdrBuildRgba : Statement .hdrBuildRgba := ⟨by decide, by decide⟩
theorem hdrBuildDxt1 : Statement .hdrBuildDxt1 := ⟨by decide, by decide⟩
theorem hdrBuildDxt5 : Statement .hdrBuildDxt5 := ⟨by decide, by decide⟩
theorem hdrParse : Statement .hdrParse := ⟨by decide, by decide⟩
theorem fccResolve : Statement .fccResolve := ⟨by decide, by decide⟩
theorem bc1Enc : Statement .bc1Enc := ⟨by decide, by decide⟩
theorem bc3aEnc : Statement .bc3aEnc := ⟨by decide, by decide⟩
theorem pack2 : Statement .pack2 := ⟨by decide, by decide⟩
theorem pack3 : Statement .pack3 := ⟨by decide, by decide⟩
theorem unpack2 : Statement .unpack2 := ⟨by decide, by decide⟩
theorem unpack3 : Statement .unpack3 := ⟨by decide, by decide⟩
theorem encFrameRgba : Statement .encFrameRgba := ⟨by decide, by decide⟩
theorem encFrameDxt1 : Statement .encFrameDxt1 := ⟨by decide, by decide⟩
theorem encFrameDxt5 : Statement .encFrameDxt5 := ⟨by decide, by decide⟩
theorem decFrame : Statement .decFrame := ⟨by decide, by decide⟩

end Sys2Proof.Laws.EncodesLegally
end

