-- ==== Sys2Proof/Tests/Slice0.lean ====
section
/-!
SUPPORT. Tests of single steps, each with its expected result from 95_test_vectors.md or the cited rule, the smoke test of
well-formedness, and for every obligation with hypotheses a named witness that meets them.
-/

open Sys2Proof Sys2Proof.Machine

namespace Sys2Proof.Tests

-- One theorem after another: each kernel evaluation in a thread of its own would ask for too much stack at once.
set_option Elab.async false

/-! ## Helpers -/

/-- An instance with 4096-byte buffers. -/
def small : Instance := ⟨⟨4096, by decide, by decide⟩, ⟨4096, by decide, by decide⟩, .at80, .reference⟩

/-- The same with the other alternate offset. -/
def small88 : Instance := { small with alt := .at88 }

/-- The smallest instance: 128-byte buffers. -/
def tiny : Instance := ⟨⟨128, by decide, by decide⟩, ⟨128, by decide, by decide⟩, .at80, .reference⟩

/-- A 4096-byte input buffer and a 128-byte output buffer. -/
def narrow : Instance := ⟨⟨4096, by decide, by decide⟩, ⟨128, by decide, by decide⟩, .at88, .reference⟩

/-- The small instance with another evaluation of `BC1_FIT` (R148). -/
def otherFit : Instance := { small with fit := .other 0 }

/-- After reset, width `w`, height `h`, and an input of `n` bytes of which `bs` are written. -/
def given (inst : Instance) (w h n : Nat) (bs : List Byte) : State :=
  { State.resetOf inst with
    x := { Regs.zero with width := BitVec.ofNat 32 w, height := BitVec.ofNat 32 h, inlen := BitVec.ofNat 32 n }
    ibuf := Memory.ofBytes 0 bs }

/-- A loaded input on the small instance. -/
def loaded (bs : List Byte) : State := given small 0 0 bs.length bs

/-- The host's next actions. -/
def acting (s : State) (as : List HostAction) : State := { s with host := as }

/-- What a test looks at: `STATUS`, `x[0]`, `x[1]`, `x[3]` to `x[6]`, and the defined bytes of `OBUF`. -/
def seen (o : Host.Outcome State Fault Refusal) : Option (Nat × List Nat × List Byte) :=
  match o with
  | .next t => some (t.status.toNat,
      [t.x.width.toNat, t.x.height.toNat, t.x.outlen.toNat, t.x.fourcc.toNat, t.x.bitcount.toNat, t.x.probe.toNat],
      t.obuf.map Prod.snd)
  | _ => none

/-- The command takes no step because of an input byte that is not written (R343). -/
def stops (o : Host.Outcome State Fault Refusal) : Bool :=
  match o with
  | .fault .unwrittenInput => true
  | _ => false

/-- `STATUS` and output only. -/
def output (o : Host.Outcome State Fault Refusal) : Option (Nat × List Byte) := (seen o).map fun r => (r.1, r.2.2)

/-- A header after the tables of 95_test_vectors.md 2.1: bytes 8 to 11, bytes 12 to 23, and the 32 bytes at 76. -/
def header (flags dims pf : List Byte) : List Byte :=
  [0x44, 0x44, 0x53, 0x20, 0x7C, 0, 0, 0] ++ flags ++ dims ++ List.replicate 52 0 ++ pf ++ [0, 0x10, 0, 0] ++
    List.replicate 16 0

/-- Bytes 76 to 107 of vector H1. -/
def pfLossless : List Byte :=
  [0x20, 0, 0, 0, 0x41, 0, 0, 0, 0, 0, 0, 0, 0x20, 0, 0, 0, 0xFF, 0, 0, 0, 0, 0xFF, 0, 0, 0, 0, 0xFF, 0, 0, 0, 0, 0xFF]

/-- Bytes 76 to 107 of vectors H2 and H3, with the four bytes at 84. -/
def pfTag (tag : List Byte) : List Byte := [0x20, 0, 0, 0, 4, 0, 0, 0] ++ tag ++ List.replicate 20 0

/-- Vector H1: 2x2 lossless. -/
def h1 : List Byte := header [0x0F, 0x10, 0, 0] [2, 0, 0, 0, 2, 0, 0, 0, 8, 0, 0, 0] pfLossless

/-- Vector H2: 8x8 DXT5. -/
def h2 : List Byte :=
  header [0x07, 0x10, 0x08, 0] [8, 0, 0, 0, 8, 0, 0, 0, 0x40, 0, 0, 0] (pfTag [0x44, 0x58, 0x54, 0x35])

/-- Vector H5, 4x4 DXT1, with other bytes at 84. -/
def h5With (tag : List Byte) : List Byte :=
  header [0x07, 0x10, 0x08, 0] [4, 0, 0, 0, 4, 0, 0, 0, 8, 0, 0, 0] (pfTag tag)

/-- A compressed header 33x1, with its tag. -/
def h33 (tag : List Byte) : List Byte :=
  header [0x07, 0x10, 0x08, 0] [1, 0, 0, 0, 33, 0, 0, 0, 8, 0, 0, 0] (pfTag tag)

/-- A lossless header of one row, of the given width and bit count, with the low three bytes of the red mask. -/
def row (w bits : Byte) (mask : List Byte) : List Byte :=
  header [0x0F, 0x10, 0, 0] [1, 0, 0, 0, w, 0, 0, 0, 8, 0, 0, 0]
    ([0x20, 0, 0, 0, 0x41, 0, 0, 0, 0, 0, 0, 0, bits, 0, 0, 0] ++ mask ++ List.replicate 13 0)

/-- `bs` with the bytes at `o` replaced. -/
def put (bs : List Byte) (o : Nat) (ws : List Byte) : List Byte := bs.take o ++ ws ++ bs.drop (o + ws.length)

/-- "DXT" and a last byte. -/
def dxt (c : Byte) : List Byte := [0x44, 0x58, 0x54, c]

/-- Samples of a colour block, alpha 0. -/
def colours (ps : List (Nat × Nat × Nat)) : List Byte :=
  ps.flatMap fun p => [BitVec.ofNat 8 p.1, BitVec.ofNat 8 p.2.1, BitVec.ofNat 8 p.2.2, 0]

/-! ## Decoding: the fifteen words of R72, bit by bit -/

theorem test_decode_hdrBuildRgba : decode 0b00000000000000000000000000000001#32 = .ok .hdrBuildRgba := by decide
theorem test_decode_hdrBuildDxt1 : decode 0b00000000000000000000000100000001#32 = .ok .hdrBuildDxt1 := by decide
theorem test_decode_hdrBuildDxt5 : decode 0b00000000000000000000001000000001#32 = .ok .hdrBuildDxt5 := by decide
theorem test_decode_hdrParse : decode 0b00000000000000000000000000000010#32 = .ok .hdrParse := by decide
theorem test_decode_fccResolve : decode 0b00000000000000000000000000000011#32 = .ok .fccResolve := by decide
theorem test_decode_bc1Enc : decode 0b00000000000000000000000000010000#32 = .ok .bc1Enc := by decide
theorem test_decode_bc3aEnc : decode 0b00000000000000000000000000010001#32 = .ok .bc3aEnc := by decide
theorem test_decode_pack2 : decode 0b00000000000000000000000000100000#32 = .ok .pack2 := by decide
theorem test_decode_pack3 : decode 0b00000000000000000000000000100001#32 = .ok .pack3 := by decide
theorem test_decode_unpack2 : decode 0b00000000000000000000000000100010#32 = .ok .unpack2 := by decide
theorem test_decode_unpack3 : decode 0b00000000000000000000000000100011#32 = .ok .unpack3 := by decide
theorem test_decode_encFrameRgba : decode 0b00000000000000000000000000110000#32 = .ok .encFrameRgba := by decide
theorem test_decode_encFrameDxt1 : decode 0b00000000000000000000000100110000#32 = .ok .encFrameDxt1 := by decide
theorem test_decode_encFrameDxt5 : decode 0b00000000000000000000001000110000#32 = .ok .encFrameDxt5 := by decide
theorem test_decode_decFrame : decode 0b00000000000000000000000000110001#32 = .ok .decFrame := by decide

/-- Vectors I1 to I10: every reason a word is illegal. -/
theorem test_decode_illegal :
    decode 0x00000000#32 = .error .opcode ∧ decode 0x00000301#32 = .error .format ∧
      decode 0x00000330#32 = .error .format ∧ decode 0x00000102#32 = .error .format ∧
      decode 0x00000131#32 = .error .format ∧ decode 0x00000110#32 = .error .format ∧
      decode 0x00000220#32 = .error .format ∧ decode 0x00000401#32 = .error .reservedBits ∧
      decode 0x80000030#32 = .error .reservedBits ∧ decode 0x00000004#32 = .error .opcode ∧
      decode 0x000000FF#32 = .error .opcode ∧ decode 0xFFFFFFFF#32 = .error .reservedBits := by decide

/-- The table's numbering of bits is the word's own; bits beyond the row are 0. -/
theorem test_decodeTableWord : decodeTableWord 32 0x00000230 = some .encFrameDxt5 ∧
    decodeTableWord 8 0x230 = some .encFrameRgba ∧ decodeTableWord 32 0x330 = none := by decide

/-! ## Well-formedness: one ill-formed word for each check -/

theorem test_wellFormed_zero : (⟨1#22, 0#2, 0x01#8⟩ : CmdFields).zeroOk = false ∧
    (⟨1#22, 0#2, 0x01#8⟩ : CmdFields).wellFormed = false := by decide

theorem test_wellFormed_opc : (⟨0#22, 0#2, 0x04#8⟩ : CmdFields).opcOk = false ∧
    (⟨0#22, 0#2, 0x04#8⟩ : CmdFields).wellFormed = false := by decide

theorem test_wellFormed_fmt : (⟨0#22, 1#2, 0x02#8⟩ : CmdFields).fmtOk = false ∧
    (⟨0#22, 3#2, 0x30#8⟩ : CmdFields).fmtOk = false ∧ (⟨0#22, 3#2, 0x30#8⟩ : CmdFields).wellFormed = false := by decide

theorem test_wellFormed_accepts : (⟨0#22, 2#2, 0x30#8⟩ : CmdFields).wellFormed = true ∧
    (⟨0#22, 0#2, 0x31#8⟩ : CmdFields).wellFormed = true := by decide

/-! ## Steps -/

/-- The first step after reset runs the placed command: HDR_BUILD of a 0x0 image is an EncodeError (R106). -/
theorem test_step_from_reset : (seen (step (State.reset.withFetchWord 32 0x001))).map Prod.fst = some 0x83 := by
  decide +kernel

/-- Vector I7: an illegal word changes nothing but `STATUS`. -/
theorem test_step_illegal : seen (step (acting (given small 5 6 7 []) [.writeCmd 0x401#32])) =
    some (0x84, [5, 6, 0, 0, 0, 0], []) := by decide +kernel

/-- Vector H1. -/
theorem test_hdrBuildRgba : output (exec .hdrBuildRgba (given small 2 2 0 [])) = some (0x80, h1) := by decide +kernel

/-- Vector H14. -/
theorem test_hdrBuildRgba_pitch : output (exec .hdrBuildRgba (given small 0x40000000 1 0 [])) = some (0x83, []) := by
  decide +kernel

/-- Vector H9. -/
theorem test_hdrBuildDxt1 : output (exec .hdrBuildDxt1 (given small 1024 512 0 [])) =
    some (0x80, header [0x07, 0x10, 0x08, 0] [0, 2, 0, 0, 0, 4, 0, 0, 0, 0, 4, 0] (pfTag (dxt 0x31))) := by
  decide +kernel

/-- Vector H13. -/
theorem test_hdrBuildDxt1_large : (output (exec .hdrBuildDxt1 (given small 65535 65535 0 []))).map
    (fun r => (r.1, slice r.2 20 4)) = some (0x80, [0, 0, 0, 0x80]) := by decide +kernel

/-- Vector H2. -/
theorem test_hdrBuildDxt5 : output (exec .hdrBuildDxt5 (given small 8 8 0 [])) = some (0x80, h2) := by decide +kernel

/-- Vector H12. -/
theorem test_hdrBuildDxt5_linearSize : output (exec .hdrBuildDxt5 (given small 65535 65535 0 [])) = some (0x83, []) := by
  decide +kernel

/-- Vector G1. -/
theorem test_hdrParse : seen (exec .hdrParse (loaded h2)) =
    some (0x80, [8, 8, 32, 0x35545844, 0, 0], pfTag (dxt 0x35)) := by decide +kernel

/-- Vector G7: the raw four bytes, unresolved. -/
theorem test_hdrParse_raw : seen (exec .hdrParse (loaded (put h2 84 [0x41, 0x54, 0x49, 0x32]))) =
    some (0x80, [8, 8, 32, 0x32495441, 0, 0], pfTag [0x41, 0x54, 0x49, 0x32]) := by decide +kernel

/-- Vector Q8: the alternate probe, for both values of the parameter. -/
theorem test_fccResolve_alternate :
    seen (exec .fccResolve (loaded (put (put (h5With [0, 0, 0, 0]) 80 (dxt 0x31)) 88 (dxt 0x35)))) =
        some (0x80, [0, 0, 0, 0x31545844, 0x35545844, 0x5001], []) ∧
      seen (exec .fccResolve
        (given small88 0 0 128 (put (put (h5With [0, 0, 0, 0]) 80 (dxt 0x31)) 88 (dxt 0x35)))) =
        some (0x80, [0, 0, 0, 0x35545844, 0x35545844, 0x5801], []) := by decide +kernel

/-- Vectors Q10 and Q16: the last window, and a non-zero canonical field that skips the alternate probe. -/
theorem test_fccResolve_scan :
    seen (exec .fccResolve (loaded (put (h5With [0, 0, 0, 0]) 124 (dxt 0x31)))) =
        some (0x80, [0, 0, 0, 0x31545844, 0, 0x7C02], []) ∧
      seen (exec .fccResolve (loaded (put (h5With [0, 0, 0, 1]) 80 (dxt 0x31)))) =
        some (0x80, [0, 0, 0, 0x31545844, 0, 0x5002], []) := by decide +kernel

/-- Vector F5: endpoints outside 0 .. 255, clamped. -/
theorem test_bc1Enc_clamp : output (exec .bc1Enc (loaded (colours [(0, 0, 255), (40, 0, 215), (80, 0, 175), (120, 0, 135),
    (0, 60, 255), (40, 60, 215), (80, 60, 175), (120, 60, 135), (0, 120, 255), (40, 120, 215), (80, 120, 175),
    (120, 120, 135), (0, 0, 0), (0, 0, 0), (0, 0, 0), (0, 0, 0)]))) =
    some (0x80, [0x9F, 0x3A, 0x00, 0x18, 0xA8, 0xA8, 0xA0, 0x55]) := by decide +kernel

/-- Vector F9b: the endpoints are exchanged. -/
theorem test_bc1Enc_swap : output (exec .bc1Enc (loaded (colours (List.replicate 4 (0, 255, 255) ++
    List.replicate 4 (85, 170, 170) ++ List.replicate 4 (170, 85, 85) ++ List.replicate 4 (255, 0, 0))))) =
    some (0x80, [0x00, 0xF8, 0xFF, 0x07, 0x55, 0xFF, 0xAA, 0x00]) := by decide +kernel

/-- Vector A7: ties take the lowest index. -/
theorem test_bc3aEnc_ties :
    output (exec .bc3aEnc (loaded [14, 0, 1, 2, 3, 4, 5, 6, 7, 8, 9, 10, 11, 12, 13, 7])) =
      some (0x80, [0x0E, 0x00, 0x48, 0x6E, 0xB7, 0xE4, 0x26, 0x81]) := by decide +kernel

/-- Vector A1: the fixed-extremes ramp. -/
theorem test_bc3aEnc_flat : output (exec .bc3aEnc (loaded (List.replicate 16 200))) =
    some (0x80, [0xC8, 0xC8, 0, 0, 0, 0, 0, 0]) := by decide +kernel

/-- Vectors K6 and K7. -/
theorem test_pack2 : output (exec .pack2 (loaded [0, 1, 2, 3, 3, 2, 1, 0, 1, 1, 2, 2, 3, 3, 0, 0])) =
      some (0x80, [0xE4, 0x1B, 0xA5, 0x0F]) ∧
    output (exec .pack2 (loaded ([0xFE, 0x05, 0x82, 0x03] ++ List.replicate 12 0))) = some (0x80, [0xE6, 0, 0, 0]) := by
  decide +kernel

/-- Vectors K8 and K12. -/
theorem test_pack3 : output (exec .pack3 (loaded [0, 1, 2, 3, 4, 5, 6, 7, 7, 6, 5, 4, 3, 2, 1, 0])) =
      some (0x80, [0x88, 0xC6, 0xFA, 0x77, 0x39, 0x05]) ∧
    output (exec .pack3 (loaded ([0, 0, 5] ++ List.replicate 13 0))) = some (0x80, [0x40, 1, 0, 0, 0, 0]) := by
  decide +kernel

/-- Vector K15. -/
theorem test_unpack2 : output (exec .unpack2 (loaded [0xD5, 0xFF, 0xAA, 0x02])) =
    some (0x80, [1, 1, 1, 3, 3, 3, 3, 3, 2, 2, 2, 2, 2, 0, 0, 0]) := by decide +kernel

/-- Vector K18, and the length error at 4 bytes. -/
theorem test_unpack3 : output (exec .unpack3 (loaded [0xC9, 0x6F, 0xB7, 0xE4, 0x26, 0x01])) =
      some (0x80, [1, 1, 7, 7, 6, 6, 5, 5, 4, 4, 3, 3, 2, 2, 0, 0]) ∧
    output (exec .unpack3 (loaded [1, 2, 3, 4])) = some (0x83, []) := by decide +kernel

/-- Vector E3. -/
theorem test_encFrameRgba : output (exec .encFrameRgba (given small 3 1 12
    [0x10, 0x11, 0x12, 0x13, 0x14, 0x15, 0x16, 0x17, 0x18, 0x19, 0x1A, 0x1B])) =
    some (0x80, header [0x0F, 0x10, 0, 0] [1, 0, 0, 0, 3, 0, 0, 0, 0x0C, 0, 0, 0] pfLossless ++
      [0x10, 0x11, 0x12, 0x13, 0x14, 0x15, 0x16, 0x17, 0x18, 0x19, 0x1A, 0x1B]) := by decide +kernel

/-- Vectors E8 and E10. -/
theorem test_encFrameRgba_errors : output (exec .encFrameRgba (given small 0 4 0 [])) = some (0x83, []) ∧
    output (exec .encFrameRgba (given small 2 2 17 (List.replicate 17 1))) = some (0x83, []) := by decide +kernel

/-- Program P3: 5x3 DXT1, partly covered blocks in order. -/
theorem test_encFrameDxt1 : (output (exec .encFrameDxt1 (given small 5 3 60 ((List.range 3).flatMap fun y =>
    (List.range 5).flatMap fun x => [BitVec.ofNat 8 (40 * x), BitVec.ofNat 8 (60 * y), BitVec.ofNat 8 (255 - 40 * x),
      255])))).map (fun r => (r.1, slice r.2 12 12, r.2.drop 128)) =
    some (0x80, [3, 0, 0, 0, 5, 0, 0, 0, 0x10, 0, 0, 0],
      [0x9F, 0x3A, 0x00, 0x18, 0xA8, 0xA8, 0xA0, 0x55, 0x2D, 0xAA, 0x00, 0x00, 0x56, 0x54, 0x54, 0x55]) := by
  decide +kernel

/-- Vector E4: 1x1 DXT5, the alpha block first. -/
theorem test_encFrameDxt5 : (output (exec .encFrameDxt5 (given small 1 1 4 [9, 8, 7, 6]))).map
    (fun r => (r.1, slice r.2 12 12, r.2.drop 128)) = some (0x80, [1, 0, 0, 0, 1, 0, 0, 0, 0x10, 0, 0, 0],
      [0x06, 0x00, 0x48, 0x92, 0x24, 0x49, 0x92, 0x24, 0x40, 0x08, 0x00, 0x00, 0x54, 0x55, 0x55, 0x55]) := by
  decide +kernel

/-- Vectors X2 (24-bit) and X3 (32-bit, B, G, R, A order). -/
theorem test_decFrame_pixels :
    seen (exec .decFrame (loaded (row 2 24 [0xFF, 0, 0] ++ [0x10, 0x20, 0x30, 0x40, 0x50, 0x60]))) =
        some (0x80, [2, 1, 8, 0, 24, 3], [0x30, 0x20, 0x10, 0xFF, 0x60, 0x50, 0x40, 0xFF]) ∧
      seen (exec .decFrame (loaded (row 1 32 [0, 0, 0xFF] ++ [1, 2, 3, 4]))) =
        some (0x80, [1, 1, 4, 0, 32, 3], [3, 2, 1, 4]) := by decide +kernel

/-- Vectors X4, X6, X7 and X14: no tag and bit count 0, a short payload, "DX10", and a width that spells a tag. -/
theorem test_decFrame_errors :
    output (exec .decFrame (loaded (h5With [0, 0, 0, 0] ++ List.replicate 8 1))) = some (0x81, []) ∧
      output (exec .decFrame (loaded (h5With (dxt 0x31) ++ List.replicate 7 1))) = some (0x82, []) ∧
      output (exec .decFrame (loaded (h5With [0x44, 0x58, 0x31, 0x30]))) = some (0x81, []) ∧
      output (exec .decFrame (loaded (put (row 1 32 [0xFF, 0, 0]) 16 (dxt 0x31) ++ [1, 2, 3, 4]))) = some (0x82, []) := by
  decide +kernel

/-- R343, R344: a command takes no step on an unwritten byte that it reads; a byte it does not read (alpha of a colour block,
the payload of a stream a check has rejected, anything after a failed check) need not be written. -/
theorem test_unwrittenInput :
    stops (exec .pack3 (given small 0 0 16 (List.replicate 15 1))) ∧
      output (exec .pack3 (given small 0 0 15 [])) = some (0x83, []) ∧
      stops (exec .bc1Enc (given small 0 0 64 (colours (List.replicate 15 (7, 7, 7))))) ∧
      output (exec .bc1Enc { loaded (colours (List.replicate 16 (128, 128, 128))) with
        ibuf := (Memory.ofBytes 0 (colours (List.replicate 16 (128, 128, 128)))).filter fun c => c.1 % 4 ≠ 3 }) =
          some (0x80, [0x10, 0x84, 0x10, 0x84, 0, 0, 0, 0]) ∧
      stops (exec .decFrame (given small 0 0 136 (h5With (dxt 0x31)))) ∧
      output (exec .decFrame (given small 0 0 135 (h5With (dxt 0x31)))) = some (0x82, []) ∧
      stops (exec .hdrParse (given small 0 0 128 (h1.take 107))) ∧
      output (exec .hdrParse (given small 0 0 127 [])) = some (0x81, []) := by decide +kernel

/-! ## Host actions -/

/-- `LOAD`, then a register write: program P6's first steps. -/
theorem test_host_load : (match step (acting (given small 2 2 0 []) [.load [0xFF, 0, 0]]) with
    | .next t => some (t.x.inlen.toNat, t.ibuf) | _ => none) = some (3, [(0, 0xFF), (1, 0), (2, 0)]) := by decide +kernel

/-- `MOVE` copies the output (R79). -/
theorem test_host_move :
    (match step (acting { given small 0 0 0 [] with obuf := Memory.ofBytes 0 [7, 8] } [.move 2]) with
    | .next t => some (t.x.inlen.toNat, t.ibuf) | _ => none) = some (2, [(0, 7), (1, 8)]) := by decide +kernel

/-- Reset leaves R35's values (R340). -/
theorem test_host_reset : (match step (acting (given small 2 2 3 [1]) [.reset]) with
    | .next t => some (t.x.width.toNat, t.x.inlen.toNat, t.status.toNat, t.ibuf) | _ => none) = some (0, 0, 0, []) := by
  decide +kernel

/-! ## Witnesses: for every obligation with hypotheses, states and operands that meet them -/

theorem given_written {inst : Instance} {w h n k : Nat} {bs : List Byte} (hk : k < bs.length) :
    (given inst w h n bs).written k := by
  simp [State.written, given, hk]

theorem given_unwritten {inst : Instance} {w h n k : Nat} {bs : List Byte} (hk : bs.length ≤ k) :
    (given inst w h n bs).written k = false := by
  simp [State.written, given, hk]

/-- An input whose listed bytes are as many as its length is written. -/
theorem given_all {inst : Instance} {w h n : Nat} {bs : List Byte} (hn : n ≤ bs.length) :
    ∀ k < (given inst w h n bs).inlen, (given inst w h n bs).written k := fun _ hk =>
  given_written (hk.trans_le ((BitVec.toNat_ofNat n 32 ▸ Nat.mod_le n (2 ^ 32) : (BitVec.ofNat 32 n).toNat ≤ n).trans hn))

theorem given_reads {i : Instr} {inst : Instance} {w h n : Nat} {bs : List Byte} (hn : n ≤ bs.length) :
    ∀ k ∈ commandReads i (given inst w h n bs), (given inst w h n bs).written k :=
  fun k hk => given_all hn k (commandReads_lt hk)

/-- A command on a written input answers a next state. -/
theorem given_next (i : Instr) {inst : Instance} {w h n : Nat} {bs : List Byte} (hn : n ≤ bs.length) :
    exec i (given inst w h n bs) = .next ((given inst w h n bs).finish (command i (given inst w h n bs))) :=
  exec_eq_finish (given_reads hn)

theorem witness_IllegalWordRaisesIllegalCommand :
    (acting (given small 5 6 7 []) [.writeCmd 0x401#32, .reset]).host = .writeCmd 0x401#32 :: [.reset] ∧
      ∀ i, decode 0x401#32 ≠ .ok i :=
  ⟨rfl, fun i h => by rw [show decode 0x401#32 = .error .reservedBits by decide] at h; cases h⟩

theorem witness_StepRunsTheDecodedCommand :
    (acting (given small 1 1 0 []) [.writeCmd 0x230#32, .reset]).host = .writeCmd 0x230#32 :: [.reset] ∧
      decode 0x230#32 = .ok .encFrameDxt5 := by decide +kernel

/-- A command that writes no register but `x[3]`, one that writes the probe registers, and an error. -/
theorem witness_CommandFrame :
    (∃ t, exec .pack2 (loaded (List.replicate 16 1)) = .next t) ∧ (∃ t, exec .fccResolve (loaded h2) = .next t) ∧
      (∃ t, exec .pack2 (loaded []) = .next t) ∧ Instr.pack2 ∉ [Instr.hdrParse, .decFrame] ∧
      Instr.pack2 ∉ [Instr.hdrParse, .fccResolve, .decFrame] ∧ Instr.fccResolve ∉ [Instr.hdrParse, .decFrame] :=
  ⟨⟨_, given_next _ le_rfl⟩, ⟨_, given_next _ le_rfl⟩, ⟨_, given_next _ le_rfl⟩, by decide, by decide, by decide⟩

/-- One command with no output byte and one with 128 on the smallest buffer. -/
theorem witness_SuccessDefinesOutputBytes :
    (∃ t, exec .fccResolve (loaded h2) = .next t ∧ t.status = 0x80#32) ∧
      ∃ t, exec .hdrBuildRgba (given tiny 1 1 0 []) = .next t ∧ t.status = 0x80#32 :=
  ⟨⟨_, given_next _ le_rfl, by decide +kernel⟩, ⟨_, given_next _ (Nat.zero_le _), by decide +kernel⟩⟩

/-- For each kind of in-register: two states that agree on what the command reads and differ elsewhere. -/
theorem witness_CommandsAreStateless :
    (∃ t v, exec .hdrBuildDxt1 (given small 4 4 9 []) = .next t ∧ exec .hdrBuildDxt1 (given small 4 4 2 [7]) = .next v ∧
      (given small 4 4 2 [7]).x.width = (given small 4 4 9 []).x.width ∧
      (given small 4 4 2 [7]).x.height = (given small 4 4 9 []).x.height ∧ t.status = 0x80#32) ∧
    (∃ t v, exec .encFrameRgba (given small 1 1 4 [1, 2, 3, 4]) = .next t ∧
      exec .encFrameRgba { given small 1 1 4 [1, 2, 3, 4, 5] with obufEpoch := 3 } = .next v ∧
      (∀ k < (given small 1 1 4 [1, 2, 3, 4]).inlen,
        ({ given small 1 1 4 [1, 2, 3, 4, 5] with obufEpoch := 3 } : State).inByte k =
          (given small 1 1 4 [1, 2, 3, 4]).inByte k) ∧ t.status = 0x80#32) ∧
    (∃ t v, exec .decFrame (loaded (row 1 32 [0xFF, 0, 0] ++ [1, 2, 3, 4])) = .next t ∧
      exec .decFrame (given small 9 9 132 (row 1 32 [0xFF, 0, 0] ++ [1, 2, 3, 4])) = .next v ∧
      (given small 9 9 132 (row 1 32 [0xFF, 0, 0] ++ [1, 2, 3, 4])).x.inlen =
        (loaded (row 1 32 [0xFF, 0, 0] ++ [1, 2, 3, 4])).x.inlen ∧ t.status = 0x80#32) := by
  refine ⟨⟨_, _, exec_eq_finish (i := .hdrBuildDxt1) (by simp [commandReads]),
      exec_eq_finish (i := .hdrBuildDxt1) (by simp [commandReads]), rfl, rfl, by decide +kernel⟩,
    ⟨_, _, given_next _ le_rfl, exec_eq_finish fun k hk => ?_, fun k hk => ?_, by decide +kernel⟩,
    ⟨_, _, given_next _ le_rfl, given_next _ (by decide +kernel), by decide +kernel, by decide +kernel⟩⟩
  · have hk : k < 4 := commandReads_lt hk
    exact given_written (inst := small) (w := 1) (h := 1) (n := 4) (bs := [1, 2, 3, 4, 5]) (hk.trans (by decide))
  have hk : k < 4 := hk
  interval_cases k <;> rfl

theorem witness_InputCapacityComesFirst :
    (given small 0 0 4097 []).inst.ibuf.bytes < (given small 0 0 4097 []).inlen ∧
      Instr.encFrameRgba ∉ [Instr.hdrBuildRgba, .hdrBuildDxt1, .hdrBuildDxt5] := by decide +kernel

theorem inv_small : (given small 1 1 0 []).Inv where
  ibufWf := by decide
  ibufBound := fun c hc => by simp [given, Memory.ofBytes] at hc
  obufSegment := rfl
  obufBound := by decide
  status := .inl rfl

theorem witness_StepKeepsInvariant :
    (acting (given small 1 1 0 []) [.writeCmd 0x201#32]).Inv ∧
      ∃ t, step (acting (given small 1 1 0 []) [.writeCmd 0x201#32]) = .next t :=
  ⟨⟨inv_small.ibufWf, inv_small.ibufBound, inv_small.obufSegment, inv_small.obufBound, inv_small.status⟩,
    ⟨_, exec_eq_finish (i := .hdrBuildDxt5) (by simp [commandReads])⟩⟩

theorem witness_ResetActionRestoresReset :
    (acting (given small 1 2 3 [4]) [.reset, .move 1]).host = .reset :: [.move 1] := rfl

theorem witness_HostWritesRegister :
    (acting (given small 1 2 3 [4]) [.setX 6 9]).host = .setX 6 9#32 :: [] := rfl

theorem witness_HostWritesIgnored :
    (acting (given tiny 1 2 3 [4]) [.writeStatus 5]).host = .writeStatus 5 :: [] ∧
      (acting (given tiny 1 2 3 [4]) [.writeObuf 127 5]).host = .writeObuf 127 5 :: [] ∧
      127 < (given tiny 1 2 3 [4]).inst.obuf.bytes := by decide +kernel

theorem witness_HostLoadsInput :
    (acting (given tiny 0 0 0 []) [.load (List.replicate 128 1)]).host = .load (List.replicate 128 1) :: [] ∧
      (List.replicate 128 (1 : Byte)).length ≤ (given tiny 0 0 0 []).inst.ibuf.bytes ∧
      (acting (given tiny 0 0 0 []) [.writeIbuf 127 5]).host = .writeIbuf 127 5 :: [] ∧
      127 < (given tiny 0 0 0 []).inst.ibuf.bytes := by decide +kernel

theorem witness_HostMovesOutputToInput :
    (acting (given tiny 0 0 0 []) [.move 128]).host = .move 128 :: [] ∧
      128 ≤ (given tiny 0 0 0 []).inst.obuf.bytes ∧ 128 ≤ (given tiny 0 0 0 []).inst.ibuf.bytes := by decide +kernel

/-- Each clause at the first offset that does not exist. -/
theorem witness_IdleBlockKeepsStateAndAbsentOffsetsFault :
    (given tiny 0 0 0 []).host = [] ∧ (given tiny 0 0 0 []).inst.ibuf.bytes ≤ 128 ∧
      (given tiny 0 0 0 []).inst.obuf.bytes ≤ 128 ∧
      (given tiny 0 0 0 []).inst.ibuf.bytes < (List.replicate 129 (1 : Byte)).length ∧
      (given narrow 0 0 0 []).inst.obuf.bytes < 129 ∧
      (acting (given tiny 0 0 0 []) [.writeIbuf 128 5]).host = .writeIbuf 128 5 :: [] ∧
      (acting (given tiny 0 0 0 []) [.writeObuf 128 5]).host = .writeObuf 128 5 :: [] ∧
      (acting (given tiny 0 0 0 []) [.load (List.replicate 129 1)]).host = .load (List.replicate 129 1) :: [] ∧
      (acting (given narrow 0 0 0 []) [.move 129]).host = .move 129 :: [] := by decide +kernel

/-! ### Header codec -/

/-- The smallest image and the greatest width whose pitch fits (H15). -/
theorem witness_HdrBuildRgbaFields :
    (1 ≤ (given small 1 1 0 []).width ∧ 1 ≤ (given small 1 1 0 []).height ∧ 4 * (given small 1 1 0 []).width < 2 ^ 32) ∧
      1 ≤ (given small 0x3FFFFFFF 1 0 []).width ∧ 4 * (given small 0x3FFFFFFF 1 0 []).width < 2 ^ 32 := by
  decide +kernel

/-- Each format, at the greatest square DXT1 header (H13) and a DXT5 one just below 2^32. -/
theorem witness_HdrBuildCompressedFields :
    (1 ≤ (given small 65535 65535 0 []).width ∧ 1 ≤ (given small 65535 65535 0 []).height ∧
      ((given small 65535 65535 0 []).width + 3) / 4 * (((given small 65535 65535 0 []).height + 3) / 4) * 8 < 2 ^ 32) ∧
    (1 ≤ (given small 65535 65532 0 []).width ∧ 1 ≤ (given small 65535 65532 0 []).height ∧
      ((given small 65535 65532 0 []).width + 3) / 4 * (((given small 65535 65532 0 []).height + 3) / 4) * 16 < 2 ^ 32)
      := by decide +kernel

/-- Each clause: a zero width, a zero height, and for each format a size of exactly 2^32. -/
theorem witness_HdrBuildEncodeErrors :
    (given small 0 5 0 []).width = 0 ∧ (given small 5 0 0 []).height = 0 ∧
      2 ^ 32 ≤ 4 * (given small 0x40000000 1 0 []).width ∧
      2 ^ 32 ≤ ((given small 131072 65536 0 []).width + 3) / 4 * (((given small 131072 65536 0 []).height + 3) / 4) * 8 ∧
      2 ^ 32 ≤ ((given small 65535 65535 0 []).width + 3) / 4 * (((given small 65535 65535 0 []).height + 3) / 4) * 16
      := by decide +kernel

theorem accepted_given {inst : Instance} {w h n : Nat} {bs : List Byte} (h1 : (given inst w h n bs).inlen ≤ inst.ibuf.bytes)
    (h2 : 128 ≤ (given inst w h n bs).inlen) (h3 : slice bs 0 4 = [0x44, 0x44, 0x53, 0x20]) :
    HeaderAccepted (given inst w h n bs) := by
  have hl : 4 ≤ bs.length := by
    have := congrArg List.length h3
    simp [slice] at this
    omega
  refine ⟨h1, h2, fun k hk => given_written (hk.trans_le hl), h3 ▸ ?_⟩
  apply List.ext_getElem
  · simp [slice]; omega
  · intro k hk _
    have hk : k < 4 := by simpa using hk
    simp [slice, State.inBytes, State.inByte, given, List.getElem?_eq_getElem (hk.trans_le hl)]

/-- Exactly 128 bytes, all written; and the last byte of the pixel-format block not written. -/
theorem witness_HdrParseReportsFields :
    (HeaderAccepted (given tiny 0 0 128 h2) ∧
      ∀ k, (12 ≤ k ∧ k < 20) ∨ (76 ≤ k ∧ k < 108) → (given tiny 0 0 128 h2).written k) ∧
    HeaderAccepted (given tiny 0 0 128 (h2.take 107)) ∧ (given tiny 0 0 128 (h2.take 107)).written 107 = false :=
  ⟨⟨accepted_given (by decide +kernel) (by decide +kernel) (by decide +kernel),
      fun k hk => given_written (show k < 128 by omega)⟩,
    accepted_given (by decide +kernel) (by decide +kernel) (by decide +kernel), by decide +kernel⟩

/-- Each clause: 127 bytes, a wrong magic that is written, and a magic whose last byte is not. -/
theorem witness_HeaderFormatErrors :
    ((given small 0 0 127 h1).inlen ≤ small.ibuf.bytes ∧ (given small 0 0 127 h1).inlen < 128) ∧
      ((loaded (put h1 3 [0])).inlen ≤ small.ibuf.bytes ∧ (∀ k < 4, (loaded (put h1 3 [0])).written k) ∧
        (loaded (put h1 3 [0])).inBytes 0 4 ≠ [0x44, 0x44, 0x53, 0x20]) ∧
      ((given small 0 0 128 (h1.take 3)).inlen ≤ small.ibuf.bytes ∧ 128 ≤ (given small 0 0 128 (h1.take 3)).inlen ∧
        (given small 0 0 128 (h1.take 3)).written 3 = false) ∧
      Instr.decFrame ∈ [Instr.hdrParse, .fccResolve, .decFrame] := by decide +kernel

theorem witness_HeaderRoundTrip :
    (pitchOrLinearSize 0x3FFFFFFF 1 .rgba < 2 ^ 32 ∧ (0x3FFFFFFF : Nat) < 2 ^ 32) ∧
      pitchOrLinearSize 65535 65535 .dxt1 < 2 ^ 32 ∧ pitchOrLinearSize 65535 65532 .dxt5 < 2 ^ 32 := by decide +kernel

/-- A resolver outcome computed by the model is the outcome of the three probes. -/
theorem resolves_of_eq {inst : Instance} {w h n : Nat} {bs : List Byte} {tag : Option Tag} {stage off : Nat}
    (e : resolveFourCC inst.alt.off ((given inst w h n bs).inBytes 0 128) = ⟨tag, stage, off⟩) :
    Resolves (given inst w h n bs).inst.alt.off ((given inst w h n bs).inBytes 0 128) tag stage off := by
  have := resolveFourCC_resolves inst.alt.off ((given inst w h n bs).inBytes 0 128)
  rw [e] at this
  exact this

/-- A written header and one whose last byte is not written; and each stage: canonical (Q1), alternate (Q3), the first and
the last window of the scan, nothing (Q2). -/
theorem witness_FccResolveRunsOrderedProbes :
    (HeaderAccepted (loaded h2) ∧ ∀ k < 128, (loaded h2).written k) ∧
      (HeaderAccepted (given small 0 0 128 (h2.take 127)) ∧ (given small 0 0 128 (h2.take 127)).written 127 = false) ∧
      Resolves (loaded h2).inst.alt.off ((loaded h2).inBytes 0 128) (some (.comp .dxt5)) 0 84 ∧
      Resolves (loaded (put (h5With [0, 0, 0, 0]) 80 (dxt 0x31))).inst.alt.off
        ((loaded (put (h5With [0, 0, 0, 0]) 80 (dxt 0x31))).inBytes 0 128) (some (.comp .dxt1)) 1 80 ∧
      Resolves (loaded (put (h5With [0, 0, 0, 0]) 4 (dxt 0x33))).inst.alt.off
        ((loaded (put (h5With [0, 0, 0, 0]) 4 (dxt 0x33))).inBytes 0 128) (some (.comp .dxt3)) 2 4 ∧
      Resolves (loaded (put (h5With [0, 0, 0, 0]) 124 (dxt 0x31))).inst.alt.off
        ((loaded (put (h5With [0, 0, 0, 0]) 124 (dxt 0x31))).inBytes 0 128) (some (.comp .dxt1)) 2 124 ∧
      Resolves (loaded h1).inst.alt.off ((loaded h1).inBytes 0 128) none 3 0 :=
  ⟨⟨accepted_given (by decide +kernel) (by decide +kernel) (by decide +kernel), by decide +kernel⟩,
    ⟨accepted_given (by decide +kernel) (by decide +kernel) (by decide +kernel), by decide +kernel⟩,
    resolves_of_eq (by decide +kernel), resolves_of_eq (by decide +kernel), resolves_of_eq (by decide +kernel),
    resolves_of_eq (by decide +kernel), resolves_of_eq (by decide +kernel)⟩

theorem witness_DecodeAndResolveReportSameProbe :
    ∃ t u, exec .fccResolve (loaded (row 1 32 [0xFF, 0, 0] ++ [1, 2, 3, 4])) = .next t ∧
      exec .decFrame (loaded (row 1 32 [0xFF, 0, 0] ++ [1, 2, 3, 4])) = .next u ∧ u.status = 0x80#32 :=
  ⟨_, _, given_next _ le_rfl, given_next _ le_rfl, by decide +kernel⟩

/-! ### BC1 -/

theorem witness_RdivIsNearest : (3 : Nat) ∈ [3, 5, 7] ∧ (7 : Nat) ∈ [3, 5, 7] := by decide

/-- Below 0, the half, and above 255. -/
theorem witness_ByteRoundingIsExact : 0 < (⟨-1, 2⟩ : Ratio).den ∧ 0 < (⟨255, 2⟩ : Ratio).den ∧ 0 < (⟨256, 1⟩ : Ratio).den ∧
    (⟨-1, 2⟩ : Ratio).toByte = 0 ∧ (⟨255, 2⟩ : Ratio).toByte = 128 ∧ (⟨256, 1⟩ : Ratio).toByte = 255 := by decide

/-- Eight black and eight white samples: every iterate is the normalised (1, 1, 1). -/
theorem witness_ExactFitIsTheRealLineFit :
    let ps : List Rgb := List.replicate 8 ⟨0, 0, 0⟩ ++ List.replicate 8 ⟨255, 255, 255⟩
    let a : Nat → V3 ℝ := fun _ => ⟨1 / Real.sqrt 3, 1 / Real.sqrt 3, 1 / Real.sqrt 3⟩
    let mu : V3 ℝ :=
      ⟨(ps.map fun p => (p.r : ℝ)).sum / 16, (ps.map fun p => (p.g : ℝ)).sum / 16, (ps.map fun p => (p.b : ℝ)).sum / 16⟩
    let dot : V3 ℝ → V3 ℝ → ℝ := fun p q => p.r * q.r + p.g * q.g + p.b * q.b
    let norm : V3 ℝ → ℝ := fun p => Real.sqrt (dot p p)
    let pt : Rgb → V3 ℝ := fun p => p.map fun c : Nat => (c : ℝ)
    let dev : Rgb → V3 ℝ := fun p => V3.zip (fun c m => c - m) (pt p) mu
    let cov : V3 ℝ → V3 ℝ := fun v =>
      ⟨(ps.map fun p => (dev p).r * dot (dev p) v).sum, (ps.map fun p => (dev p).g * dot (dev p) v).sum,
        (ps.map fun p => (dev p).b * dot (dev p) v).sum⟩
    ps.length = 16 ∧ a 0 = ⟨1 / Real.sqrt 3, 1 / Real.sqrt 3, 1 / Real.sqrt 3⟩ ∧
      (∀ k < 5, norm (cov (a k)) ≠ 0 ∧ a (k + 1) = (cov (a k)).map fun c => c / norm (cov (a k))) ∧
      (∃ tmax, (∃ p ∈ ps, tmax = dot (pt p) (a 5)) ∧ ∀ p ∈ ps, dot (pt p) (a 5) ≤ tmax) ∧
      ∃ tmin, (∃ p ∈ ps, tmin = dot (pt p) (a 5)) ∧ ∀ p ∈ ps, tmin ≤ dot (pt p) (a 5) := by
  intro ps a mu dot norm pt dev cov
  have h3 : (0 : ℝ) < Real.sqrt 3 := by positivity
  have hmu : mu = ⟨255 / 2, 255 / 2, 255 / 2⟩ := by
    simp only [mu, ps, List.map_append, List.map_replicate, List.sum_append, List.sum_replicate, nsmul_eq_mul,
      V3.mk.injEq]
    refine ⟨?_, ?_, ?_⟩ <;> norm_num
  have hcov : ∀ k, cov (a k) = ⟨780300 / Real.sqrt 3, 780300 / Real.sqrt 3, 780300 / Real.sqrt 3⟩ := by
    intro k
    simp only [cov, ps, a, dev, hmu, dot, pt, V3.zip, V3.map, List.map_append, List.map_replicate, List.sum_append,
      List.sum_replicate, nsmul_eq_mul, V3.mk.injEq]
    refine ⟨?_, ?_, ?_⟩ <;> · field_simp; norm_num
  have hn : ∀ k, norm (cov (a k)) = 780300 := by
    intro k
    simp only [norm, dot, hcov]
    rw [show 780300 / Real.sqrt 3 * (780300 / Real.sqrt 3) + 780300 / Real.sqrt 3 * (780300 / Real.sqrt 3) +
        780300 / Real.sqrt 3 * (780300 / Real.sqrt 3) = 780300 ^ 2 by
      have := Real.mul_self_sqrt (show (0 : ℝ) ≤ 3 by norm_num)
      field_simp
      rw [Real.sq_sqrt (by norm_num)]
      norm_num]
    exact Real.sqrt_sq (by norm_num)
  have hd : ∀ p ∈ ps, dot (pt p) (a 5) = 0 ∨ dot (pt p) (a 5) = 765 / Real.sqrt 3 := by
    intro p hp
    simp only [ps, List.mem_append, List.mem_replicate] at hp
    rcases hp with ⟨-, rfl⟩ | ⟨-, rfl⟩
    · left; simp [dot, pt, V3.map]
    · right; simp only [dot, pt, a, V3.map]; push_cast; ring
  have h0 : (0 : ℝ) ≤ 765 / Real.sqrt 3 := by positivity
  refine ⟨by decide, rfl, fun k _ => ⟨by rw [hn k]; norm_num, ?_⟩, ⟨765 / Real.sqrt 3, ⟨⟨255, 255, 255⟩, by simp [ps], ?_⟩,
    fun p hp => ?_⟩, ⟨0, ⟨⟨0, 0, 0⟩, by simp [ps], ?_⟩, fun p hp => ?_⟩⟩
  · rw [hn k, hcov k]
    simp only [a, V3.map, V3.mk.injEq]
    refine ⟨?_, ?_, ?_⟩ <;> ring
  · simp only [dot, pt, a, V3.map]; push_cast; ring
  · rcases hd p hp with h | h <;> rw [h]
    exact h0
  · simp [dot, pt, V3.map]
  · rcases hd p hp with h | h <;> rw [h]
    exact h0

/-- Flat, and varying only across (1,1,1) (vector F8). -/
theorem witness_ZeroAxisGivesTheMean :
    mulVec (scatter (centred (List.replicate 16 ⟨7, 7, 7⟩))) ⟨1, 1, 1⟩ = ⟨0, 0, 0⟩ ∧
      mulVec (scatter (centred (List.replicate 8 ⟨255, 0, 0⟩ ++ List.replicate 8 ⟨0, 0, 255⟩))) ⟨1, 1, 1⟩ = ⟨0, 0, 0⟩ := by
  decide +kernel

theorem witness_ExpansionReplicatesHighBits : (0 : Nat) < 65536 ∧ (65535 : Nat) < 65536 ∧
    expand565 65535 = ⟨255, 255, 255⟩ := by decide

/-- Written samples, for the reference fit and for another one; and the last colour byte not written. -/
theorem witness_Bc1EncStoresEndpointsAndNearestIndices :
    (∀ inst ∈ [small, otherFit], let s := given inst 0 0 64 (colours (List.replicate 16 (7, 7, 7)))
      s.inlen = 64 ∧ ∀ k < 64, k % 4 ≠ 3 → s.written k) ∧
    let s := given small 0 0 64 ((colours (List.replicate 16 (7, 7, 7))).take 62)
    s.inlen = 64 ∧ s.written 62 = false := by decide +kernel

/-- Equal endpoints (F12) and different ones (F3). -/
theorem witness_Bc1EndpointOrderInvariant :
    (List.replicate 16 (⟨7, 7, 7⟩ : Rgb)).length = 16 ∧
      le (slice (bc1With bc1Fit (List.replicate 16 ⟨7, 7, 7⟩)) 2 2) =
        le (slice (bc1With bc1Fit (List.replicate 16 ⟨7, 7, 7⟩)) 0 2) ∧
      le (slice (bc1With bc1Fit (List.replicate 8 ⟨0, 0, 0⟩ ++ List.replicate 8 ⟨255, 255, 255⟩)) 2 2) <
        le (slice (bc1With bc1Fit (List.replicate 8 ⟨0, 0, 0⟩ ++ List.replicate 8 ⟨255, 255, 255⟩)) 0 2) := by
  decide +kernel

theorem witness_Bc1FlatBlock : (⟨255, 255, 255⟩ : Rgb).r ≤ 255 ∧ (⟨255, 255, 255⟩ : Rgb).g ≤ 255 ∧
    (⟨255, 255, 255⟩ : Rgb).b ≤ 255 ∧ (⟨0, 0, 0⟩ : Rgb).r ≤ 255 := by decide

/-- Two inputs that differ in every alpha byte, on instances that share the fit and nothing else. -/
theorem witness_Bc1IgnoresAlpha :
    let s := loaded ((List.range 16).flatMap fun _ => [255, 0, 0, 0])
    let u := given narrow 0 0 64 ((List.range 16).flatMap fun _ => [255, 0, 0, 255])
    s.inlen = 64 ∧ u.inlen = 64 ∧ u.inst.fit = s.inst.fit ∧ (∀ k < 64, k % 4 ≠ 3 → u.inByte k = s.inByte k) ∧
      (∃ t, exec .bc1Enc s = .next t) ∧ ∃ v, exec .bc1Enc u = .next v := by
  refine ⟨by decide +kernel, by decide +kernel, rfl, ?_, ⟨_, given_next _ le_rfl⟩, ⟨_, given_next _ (by decide)⟩⟩
  intro k hk h3
  interval_cases k <;> first | rfl | exact absurd rfl h3

/-- For each operation a length next to the exact one. -/
theorem witness_BlockLengthErrors :
    (Instr.bc1Enc, 64) ∈ [(Instr.bc1Enc, 64), (.bc3aEnc, 16), (.pack2, 16), (.pack3, 16), (.unpack2, 4), (.unpack3, 6)] ∧
      ∀ n ∈ [0, 3, 5, 15, 17, 63, 65, 4096], (given small 0 0 n []).inlen ≤ small.ibuf.bytes ∧
        (n ≤ 5 → (given small 0 0 n []).inlen ≠ 4 ∧ (given small 0 0 n []).inlen ≠ 6) ∧
        (given small 0 0 n []).inlen ≠ 16 ∧ (given small 0 0 n []).inlen ≠ 64 := by decide +kernel

/-! ### BC3 alpha and packers -/

/-- Both ramps: a flat block and a varying one; and a block whose last byte is not written. -/
theorem witness_Bc3aEncStoresExtremesAndNearestIndices :
    (∀ bs ∈ [List.replicate 16 200, List.replicate 15 255 ++ [(254 : Byte)]],
      (loaded bs).inlen = 16 ∧ ∀ k < 16, (loaded bs).written k) ∧
    (given small 0 0 16 (List.replicate 15 1)).inlen = 16 ∧
      (given small 0 0 16 (List.replicate 15 1)).written 15 = false := by decide +kernel

theorem witness_Bc3aFlatExactlyWhenEndpointsEqual :
    ((List.replicate 16 200).length = 16 ∧ ∀ a ∈ List.replicate 16 200, a ≤ 255) ∧
      (∀ a ∈ List.replicate 16 200, ∀ b ∈ List.replicate 16 200, a = b) ∧
      (List.replicate 15 255 ++ [254]).length = 16 ∧ (∀ a ∈ List.replicate 15 255 ++ [254], a ≤ 255) ∧
      ∃ a ∈ List.replicate 15 255 ++ [254], ∃ b ∈ List.replicate 15 255 ++ [254], a ≠ b := by decide +kernel

theorem witness_PackPutsMaskedFields :
    ((loaded (List.replicate 16 0xFF)).inlen = 16 ∧ ∀ k < 16, (loaded (List.replicate 16 0xFF)).written k) ∧
      (given small 0 0 16 [1]).inlen = 16 ∧ (given small 0 0 16 [1]).written 15 = false := by decide +kernel

theorem witness_UnpackGivesFields :
    ((loaded [1, 2, 3, 0xC0]).inlen = 4 ∧ ∀ k < 4, (loaded [1, 2, 3, 0xC0]).written k) ∧
      ((given small 0 0 4 [1, 2, 3]).inlen = 4 ∧ (given small 0 0 4 [1, 2, 3]).written 3 = false) ∧
      ((loaded [1, 2, 3, 4, 5, 0xE0]).inlen = 6 ∧ ∀ k < 6, (loaded [1, 2, 3, 4, 5, 0xE0]).written k) ∧
      (given small 0 0 6 []).inlen = 6 ∧ (given small 0 0 6 []).written 0 = false := by decide +kernel

theorem witness_PackAndUnpackAreInverse :
    (List.replicate 16 3).length = 16 ∧ (∀ v ∈ List.replicate 16 3, v < 2 ^ 2) ∧ (∀ v ∈ List.replicate 16 7, v < 2 ^ 3) ∧
      0xFFFFFFFF < 2 ^ (16 * 2) ∧ 0xFFFFFFFFFFFF < 2 ^ (16 * 3) := by decide +kernel

theorem witness_UnpackUndoesTheCompressors :
    (List.replicate 16 (⟨7, 7, 7⟩ : Rgb)).length = 16 ∧ (List.replicate 16 200).length = 16 := by decide

/-! ### Frame encode -/

/-- An image whose frame fills `OBUF` exactly: all of it written, and all but its last byte. -/
theorem witness_EncFrameRgbaCopiesTheImage :
    (∀ bs, let s := given small 31 32 3968 bs
      1 ≤ s.width ∧ 1 ≤ s.height ∧ s.inlen = 4 * s.width * s.height ∧ s.inlen ≤ s.inst.ibuf.bytes ∧
        128 + s.inlen ≤ s.inst.obuf.bytes) ∧
    (∀ k < (given small 31 32 3968 (List.replicate 3968 0)).inlen,
      (given small 31 32 3968 (List.replicate 3968 0)).written k) ∧
    3967 < (given small 31 32 3968 (List.replicate 3967 0)).inlen ∧
      (given small 31 32 3968 (List.replicate 3967 0)).written 3967 = false :=
  ⟨fun _ => by simp [given, State.width, State.height, State.inlen, State.resetOf, small],
    given_all List.length_replicate.ge, show 3967 < 3968 by decide, given_unwritten List.length_replicate.le⟩

/-- 5x3: two blocks, both partly covered; for both formats, all of it written; and for DXT5 only an alpha byte, for DXT1 a
colour byte not written. -/
theorem witness_EncFrameCompressedBlocks :
    ((∀ k < 60, (given small 5 3 60 (List.replicate 60 9)).written k) ∧
      (given small 5 3 60 (List.replicate 59 9)).written 59 = false ∧
      (given small 5 3 60 (List.replicate 58 9)).written 58 = false ∧ 58 % 4 ≠ 3) ∧
    ∀ n ∈ [58, 59, 60], let s := given small 5 3 60 (List.replicate n 9)
    1 ≤ s.width ∧ 1 ≤ s.height ∧ s.inlen = 4 * s.width * s.height ∧ s.inlen ≤ s.inst.ibuf.bytes ∧
      (s.width + 3) / 4 * ((s.height + 3) / 4) * 16 < 2 ^ 32 ∧
      128 + (s.width + 3) / 4 * ((s.height + 3) / 4) * 8 ≤ s.inst.obuf.bytes ∧
      128 + (s.width + 3) / 4 * ((s.height + 3) / 4) * 16 ≤ s.inst.obuf.bytes ∧
      (0 < (s.height + 3) / 4 ∧ 1 < (s.width + 3) / 4) := by decide +kernel

/-- Each clause: E8, a zero height, E11 (exactly 2^32), E10, and linear sizes of exactly 2^32. -/
theorem witness_EncFrameEncodeErrors :
    (given small 0 4 0 []).width = 0 ∧ (given small 4 0 0 []).height = 0 ∧
      2 ^ 32 ≤ 4 * (given small 65536 16384 0 []).width * (given small 65536 16384 0 []).height ∧
      (given small 2 2 17 []).inlen ≠ 4 * (given small 2 2 17 []).width * (given small 2 2 17 []).height ∧
      (given small 2 2 17 []).inlen ≤ small.ibuf.bytes ∧
      2 ^ 32 ≤ ((given small 131072 65536 0 []).width + 3) / 4 * (((given small 131072 65536 0 []).height + 3) / 4) * 8 ∧
      2 ^ 32 ≤ ((given small 65535 65535 0 []).width + 3) / 4 * (((given small 65535 65535 0 []).height + 3) / 4) * 16 ∧
      (given small 65535 65535 0 []).inlen ≤ small.ibuf.bytes := by decide +kernel

/-- Each format: the output buffer holds the header and no byte more. -/
theorem witness_EncFrameOutputCapacity :
    let s := given narrow 1 1 4 [1, 2, 3, 4]
    1 ≤ s.width ∧ 1 ≤ s.height ∧ s.inlen = 4 * s.width * s.height ∧ s.inlen ≤ s.inst.ibuf.bytes ∧
      s.inst.obuf.bytes < 128 + 4 * s.width * s.height ∧
      s.inst.obuf.bytes < 128 + (s.width + 3) / 4 * ((s.height + 3) / 4) * 8 ∧
      s.inst.obuf.bytes < 128 + (s.width + 3) / 4 * ((s.height + 3) / 4) * 16 ∧
      (s.width + 3) / 4 * ((s.height + 3) / 4) * 16 < 2 ^ 32 := by decide +kernel

theorem witness_EncFrameHeaderIsHdrBuilds :
    ∃ t u, exec .encFrameDxt5 (given small 1 1 4 [9, 8, 7, 6]) = .next t ∧
      exec .hdrBuildDxt5 (given small 1 1 4 [9, 8, 7, 6]) = .next u ∧ t.status = 0x80#32 :=
  ⟨_, _, given_next _ le_rfl, given_next _ le_rfl, by decide +kernel⟩

/-- The first sample to the right of a 1x1 image and the first below it. -/
theorem witness_PartlyCoveredBlockHasZeroAlpha :
    (given small 1 1 4 []).width ≤ 4 * 0 + 1 % 4 ∧ (given small 1 1 4 []).height ≤ 4 * 0 + 4 / 4 := by decide +kernel

/-! ### Frame decode -/

/-- Both red-mask cases: R, G, B, A and B, G, R, A; with the whole input written, and without its last byte. -/
theorem witness_DecFrame32BitPixels :
    ∀ mask ∈ [[0xFF, 0, 0], [0, 0, (0xFF : Byte)]],
      ((∀ k < (loaded (row 1 32 mask ++ [1, 2, 3, 4])).inlen, (loaded (row 1 32 mask ++ [1, 2, 3, 4])).written k) ∧
        (given small 0 0 132 (row 1 32 mask ++ [1, 2, 3])).written 131 = false) ∧
      ∀ n ∈ [3, 4], let s := given small 0 0 132 (row 1 32 mask ++ [1, 2, 3, 4].take n)
      HeaderAccepted s ∧ Resolves s.inst.alt.off (s.inBytes 0 128) none 3 0 ∧ s.memRead 16 4 ≠ 0 ∧ s.memRead 12 4 ≠ 0 ∧
        s.memRead 88 4 = 32 ∧ s.inlen = 128 + 4 * s.memRead 16 4 * s.memRead 12 4 ∧
        4 * s.memRead 16 4 * s.memRead 12 4 ≤ s.inst.obuf.bytes := by
  intro mask hm
  simp only [List.mem_cons, List.not_mem_nil, or_false] at hm
  rcases hm with rfl | rfl <;> refine ⟨⟨given_all le_rfl, by decide +kernel⟩, fun n hn => ?_⟩ <;>
    simp only [List.mem_cons, List.not_mem_nil, or_false] at hn <;> rcases hn with rfl | rfl <;>
    exact ⟨accepted_given (by decide +kernel) (by decide +kernel) (by decide +kernel), resolves_of_eq (by decide +kernel),
      by decide +kernel, by decide +kernel, by decide +kernel, by decide +kernel, by decide +kernel⟩

/-- The whole input written, and only its header. -/
theorem witness_DecFrame24BitPixels :
    ((∀ k < (loaded (row 2 24 [0xFF, 0, 0] ++ [0x10, 0x20, 0x30, 0x40, 0x50, 0x60])).inlen,
        (loaded (row 2 24 [0xFF, 0, 0] ++ [0x10, 0x20, 0x30, 0x40, 0x50, 0x60])).written k) ∧
      (given small 0 0 134 (row 2 24 [0xFF, 0, 0])).written 128 = false) ∧
    ∀ n ∈ [0, 6], let s := given small 0 0 134 (row 2 24 [0xFF, 0, 0] ++ [0x10, 0x20, 0x30, 0x40, 0x50, 0x60].take n)
    HeaderAccepted s ∧ Resolves s.inst.alt.off (s.inBytes 0 128) none 3 0 ∧ s.memRead 16 4 ≠ 0 ∧ s.memRead 12 4 ≠ 0 ∧
      s.memRead 88 4 = 24 ∧ s.inlen = 128 + 3 * (s.memRead 16 4 * s.memRead 12 4) ∧
      4 * s.memRead 16 4 * s.memRead 12 4 ≤ s.inst.obuf.bytes := by
  refine ⟨⟨given_all le_rfl, by decide +kernel⟩, fun n hn => ?_⟩
  simp only [List.mem_cons, List.not_mem_nil, or_false] at hn
  rcases hn with rfl | rfl <;>
    exact ⟨accepted_given (by decide +kernel) (by decide +kernel) (by decide +kernel), resolves_of_eq (by decide +kernel),
      by decide +kernel, by decide +kernel, by decide +kernel, by decide +kernel, by decide +kernel⟩

/-- Each tag: a 4x4 image of one block, written and not written. -/
theorem witness_DecFrameCompressedAsksDecomp :
    ∀ c, ((∀ k < (given small 0 0 (128 + compBlockBytes c) (h5With (compTagBytes c) ++ List.replicate 16 1)).inlen,
        (given small 0 0 (128 + compBlockBytes c) (h5With (compTagBytes c) ++ List.replicate 16 1)).written k) ∧
      (given small 0 0 (128 + compBlockBytes c) (h5With (compTagBytes c) ++ List.replicate 0 1)).written 128 = false) ∧
    ∀ n ∈ [0, 16], let s := given small 0 0 (128 + compBlockBytes c) (h5With (compTagBytes c) ++ List.replicate n 1)
      HeaderAccepted s ∧ Resolves s.inst.alt.off (s.inBytes 0 128) (some (.comp c)) 0 84 ∧ s.memRead 16 4 ≠ 0 ∧
        s.memRead 12 4 ≠ 0 ∧
        s.inlen = 128 + (s.memRead 16 4 + 3) / 4 * ((s.memRead 12 4 + 3) / 4) * (if c = .dxt1 then 8 else 16) ∧
        4 * s.memRead 16 4 * s.memRead 12 4 ≤ s.inst.obuf.bytes := by
  rintro (_ | _ | _) <;> refine ⟨⟨given_all (by decide +kernel), by decide +kernel⟩, fun n hn => ?_⟩ <;>
    simp only [List.mem_cons, List.not_mem_nil, or_false] at hn <;> rcases hn with rfl | rfl <;>
    exact ⟨accepted_given (by decide +kernel) (by decide +kernel) (by decide +kernel), resolves_of_eq (by decide +kernel),
      by decide +kernel, by decide +kernel, by decide +kernel, by decide +kernel⟩

/-- Each clause: a bit count that is not written; a zero width (X10) and a zero height, written; a header that is not
written to its end; "DX10" (X7), and no tag with bit count 0 (X4). -/
theorem witness_DecFrameFormatErrors :
    (∀ n ∈ [91, 127], HeaderAccepted (given small 0 0 128 (h2.take n)) ∧
      Resolves (given small 0 0 128 (h2.take n)).inst.alt.off ((given small 0 0 128 (h2.take n)).inBytes 0 128)
        (some (.comp .dxt5)) 0 84 ∧ (given small 0 0 128 (h2.take n)).written n = false) ∧
      ((given small 0 0 128 (h2.take 127)).memRead 16 4 ≠ 0 ∧ (given small 0 0 128 (h2.take 127)).memRead 12 4 ≠ 0) ∧
      (∀ o ∈ [12, 16], HeaderAccepted (loaded (put h1 o [0])) ∧ (loaded (put h1 o [0])).memRead o 4 = 0 ∧
        ∀ k < 128, (loaded (put h1 o [0])).written k) ∧
      (HeaderAccepted (loaded (h5With [0x44, 0x58, 0x31, 0x30])) ∧
        Resolves (loaded (h5With [0x44, 0x58, 0x31, 0x30])).inst.alt.off
          ((loaded (h5With [0x44, 0x58, 0x31, 0x30])).inBytes 0 128) (some .dx10) 0 84 ∧
        ∀ k < 128, (loaded (h5With [0x44, 0x58, 0x31, 0x30])).written k) ∧
      HeaderAccepted (loaded (h5With [0, 0, 0, 0])) ∧
      Resolves (loaded (h5With [0, 0, 0, 0])).inst.alt.off ((loaded (h5With [0, 0, 0, 0])).inBytes 0 128) none 3 0 ∧
      (loaded (h5With [0, 0, 0, 0])).memRead 88 4 ≠ 24 ∧ (loaded (h5With [0, 0, 0, 0])).memRead 88 4 ≠ 32 ∧
      ∀ k < 128, (loaded (h5With [0, 0, 0, 0])).written k := by
  refine ⟨fun n hn => ?_, by decide +kernel, fun o ho => ?_,
    ⟨accepted_given (by decide +kernel) (by decide +kernel) (by decide +kernel), resolves_of_eq (by decide +kernel),
      by decide +kernel⟩,
    accepted_given (by decide +kernel) (by decide +kernel) (by decide +kernel), resolves_of_eq (by decide +kernel),
    by decide +kernel, by decide +kernel, by decide +kernel⟩
  · simp only [List.mem_cons, List.not_mem_nil, or_false] at hn
    rcases hn with rfl | rfl <;>
      exact ⟨accepted_given (by decide +kernel) (by decide +kernel) (by decide +kernel),
        resolves_of_eq (by decide +kernel), by decide +kernel⟩
  · simp only [List.mem_cons, List.not_mem_nil, or_false] at ho
    rcases ho with rfl | rfl <;>
      exact ⟨accepted_given (by decide +kernel) (by decide +kernel) (by decide +kernel), by decide +kernel,
        by decide +kernel⟩

/-- Each clause, one byte short (X6 and its uncompressed likes). -/
theorem witness_DecFramePayloadLengthErrors :
    (∀ c, let s := loaded (h5With (compTagBytes c) ++ List.replicate 7 1)
      HeaderAccepted s ∧ Resolves s.inst.alt.off (s.inBytes 0 128) (some (.comp c)) 0 84 ∧ s.memRead 16 4 ≠ 0 ∧
        s.memRead 12 4 ≠ 0 ∧
        s.inlen - 128 ≠ (s.memRead 16 4 + 3) / 4 * ((s.memRead 12 4 + 3) / 4) * compBlockBytes c ∧
        ∀ k < 128, s.written k) ∧
    ∀ bits ∈ [24, (32 : Byte)], let s := loaded (row 1 bits [0xFF, 0, 0] ++ [1, 2])
      HeaderAccepted s ∧ Resolves s.inst.alt.off (s.inBytes 0 128) none 3 0 ∧ s.memRead 88 4 = bits.toNat ∧
        s.memRead 16 4 ≠ 0 ∧ s.memRead 12 4 ≠ 0 ∧
        s.inlen - 128 ≠ s.memRead 16 4 * s.memRead 12 4 * (bits.toNat / 8) ∧ ∀ k < 128, s.written k := by
  refine ⟨?_, fun bits hb => ?_⟩
  · rintro (_ | _ | _) <;>
      exact ⟨accepted_given (by decide +kernel) (by decide +kernel) (by decide +kernel), resolves_of_eq (by decide +kernel),
        by decide +kernel, by decide +kernel, by decide +kernel⟩
  · simp only [List.mem_cons, List.not_mem_nil, or_false] at hb
    rcases hb with rfl | rfl <;>
      exact ⟨accepted_given (by decide +kernel) (by decide +kernel) (by decide +kernel), resolves_of_eq (by decide +kernel),
        by decide +kernel, by decide +kernel, by decide +kernel, by decide +kernel⟩

/-- Each clause: 33x1, whose image is one pixel longer than a 128-byte `OBUF`. -/
theorem witness_DecFrameOutputCapacity :
    (∀ c, let s := given narrow 0 0 (128 + 9 * compBlockBytes c) (h33 (compTagBytes c))
      HeaderAccepted s ∧ Resolves s.inst.alt.off (s.inBytes 0 128) (some (.comp c)) 0 84 ∧ s.memRead 16 4 ≠ 0 ∧
        s.memRead 12 4 ≠ 0 ∧
        s.inlen - 128 = (s.memRead 16 4 + 3) / 4 * ((s.memRead 12 4 + 3) / 4) * compBlockBytes c ∧
        s.inst.obuf.bytes < 4 * s.memRead 16 4 * s.memRead 12 4 ∧ ∀ k < 128, s.written k) ∧
    ∀ bits ∈ [24, (32 : Byte)], let s := given narrow 0 0 (128 + 33 * (bits.toNat / 8)) (row 33 bits [0xFF, 0, 0])
      HeaderAccepted s ∧ Resolves s.inst.alt.off (s.inBytes 0 128) none 3 0 ∧ s.memRead 88 4 = bits.toNat ∧
        s.memRead 16 4 ≠ 0 ∧ s.memRead 12 4 ≠ 0 ∧ s.inlen - 128 = s.memRead 16 4 * s.memRead 12 4 * (bits.toNat / 8) ∧
        s.inst.obuf.bytes < 4 * s.memRead 16 4 * s.memRead 12 4 ∧ ∀ k < 128, s.written k := by
  refine ⟨?_, fun bits hb => ?_⟩
  · rintro (_ | _ | _) <;>
      exact ⟨accepted_given (by decide +kernel) (by decide +kernel) (by decide +kernel), resolves_of_eq (by decide +kernel),
        by decide +kernel, by decide +kernel, by decide +kernel, by decide +kernel, by decide +kernel⟩
  · simp only [List.mem_cons, List.not_mem_nil, or_false] at hb
    rcases hb with rfl | rfl <;>
      exact ⟨accepted_given (by decide +kernel) (by decide +kernel) (by decide +kernel), resolves_of_eq (by decide +kernel),
        by decide +kernel, by decide +kernel, by decide +kernel, by decide +kernel, by decide +kernel, by decide +kernel⟩

/-- 1x1, and an image whose frame fills both buffers exactly, all written. -/
theorem witness_LosslessRoundTrip :
    ∀ d ∈ [(1, 1), (31, 32)],
      let s := given small d.1 d.2 (4 * d.1 * d.2) (List.replicate (4 * d.1 * d.2) 0)
      (1 ≤ s.width ∧ 1 ≤ s.height ∧ s.inlen = 4 * s.width * s.height ∧ 128 + s.inlen ≤ s.inst.ibuf.bytes ∧
        128 + s.inlen ≤ s.inst.obuf.bytes ∧ ¬ RoundTripException s.width s.height) ∧ ∀ k < s.inlen, s.written k := by
  have h : ∀ d ∈ [(1, 1), (31, 32)], ∀ bs, let s := given small d.1 d.2 (4 * d.1 * d.2) bs
      1 ≤ s.width ∧ 1 ≤ s.height ∧ s.inlen = 4 * s.width * s.height ∧ 128 + s.inlen ≤ s.inst.ibuf.bytes ∧
        128 + s.inlen ≤ s.inst.obuf.bytes ∧ ¬ RoundTripException s.width s.height := by
    intro d hd bs
    simp only [List.mem_cons, List.not_mem_nil, or_false] at hd
    unfold RoundTripException
    rcases hd with rfl | rfl <;>
      simp [given, State.width, State.height, State.inlen, State.resetOf, small]
  exact fun d hd => ⟨h d hd _, given_all List.length_replicate.ge⟩

/-- On the reference instance, with the image written: each clause, at the dimensions with the smallest image, and for "DXT3"
and "DXT5" at the width and at the height. -/
theorem witness_LosslessRoundTripExceptionsAreNotRepaired :
    ∀ d ∈ [(0x0C0C5611, 1), (0x0C551611, 5), (0x30315844, 1), (1, 0x30315844), (0x315844CC, 1), (1, 0x31545844),
        (0x33545844, 1), (1, 0x35545844)],
      let s := given Instance.reference d.1 d.2 (4 * d.1 * d.2) (List.replicate (4 * d.1 * d.2) 0)
      (1 ≤ s.width ∧ 1 ≤ s.height ∧ s.inlen = 4 * s.width * s.height ∧ 128 + s.inlen ≤ s.inst.ibuf.bytes ∧
        128 + s.inlen ≤ s.inst.obuf.bytes ∧ RoundTripException s.width s.height) ∧ ∀ k < s.inlen, s.written k := by
  have h : ∀ d ∈ [(0x0C0C5611, 1), (0x0C551611, 5), (0x30315844, 1), (1, 0x30315844), (0x315844CC, 1),
        (1, 0x31545844), (0x33545844, 1), (1, 0x35545844)], ∀ bs,
      let s := given Instance.reference d.1 d.2 (4 * d.1 * d.2) bs
      1 ≤ s.width ∧ 1 ≤ s.height ∧ s.inlen = 4 * s.width * s.height ∧ 128 + s.inlen ≤ s.inst.ibuf.bytes ∧
        128 + s.inlen ≤ s.inst.obuf.bytes ∧ RoundTripException s.width s.height := by
    intro d hd bs
    simp only [List.mem_cons, List.not_mem_nil, or_false] at hd
    unfold RoundTripException
    rcases hd with rfl | rfl | rfl | rfl | rfl | rfl | rfl | rfl <;>
      simp [given, State.width, State.height, State.inlen, State.resetOf, Instance.reference]
  exact fun d hd => ⟨h d hd _, given_all List.length_replicate.ge⟩

/-- 1x1, for DXT5 all written, and for DXT1 all but the alpha byte. -/
theorem witness_CompressedRoundTripReachesDecomp :
    (∀ k < 4, (given small 1 1 4 [1, 2, 3, 4]).written k) ∧
      (∀ k < 4, k % 4 ≠ 3 → (given small 1 1 4 [1, 2, 3]).written k) ∧
      ∀ n ∈ [3, 4], let s := given small 1 1 4 ([1, 2, 3, 4].take n)
        1 ≤ s.width ∧ 1 ≤ s.height ∧ s.inlen = 4 * s.width * s.height ∧ s.inlen ≤ s.inst.ibuf.bytes ∧
          (s.width + 3) / 4 * ((s.height + 3) / 4) * 16 < 2 ^ 32 ∧
          128 + (s.width + 3) / 4 * ((s.height + 3) / 4) * 16 ≤ s.inst.ibuf.bytes ∧
          128 + (s.width + 3) / 4 * ((s.height + 3) / 4) * 16 ≤ s.inst.obuf.bytes ∧ s.inlen ≤ s.inst.obuf.bytes := by
  decide +kernel

end Sys2Proof.Tests
end

section
/-!
PROOFS. Tags and rounding (00_scope.md R8, R10, 40_header.md R120, 41_bc1.md R149).
-/

namespace Sys2Proof.Machine

/-! ## Rounding to a byte -/

theorem Ratio.toByte_of_num_neg {q : Ratio} (h : q.num < 0) : q.toByte = 0 := if_pos h

theorem Ratio.toByte_of_lt_num {q : Ratio} (h : 255 * (q.den : Int) < q.num) : q.toByte = 255 := by
  have h0 : ¬ q.num < 0 := by omega
  rw [Ratio.toByte, if_neg h0, if_pos h]

theorem Ratio.toByte_of_num_mem {q : Ratio} (h0 : 0 ≤ q.num) (h255 : q.num ≤ 255 * (q.den : Int)) :
    (q.toByte : Int) = (2 * q.num + q.den) / (2 * q.den) := by
  rw [Ratio.toByte, if_neg h0.not_gt, if_neg h255.not_gt]
  exact Int.toNat_of_nonneg (by positivity)

/-- R10's `rhu` of an exact rational, as one integer division. -/
theorem floor_div_add_half (n : Int) {d : Nat} (hd : 0 < d) :
    ⌊(n : ℚ) / d + 1 / 2⌋ = (2 * n + d) / (2 * (d : Int)) := by
  have hq : (n : ℚ) / d + 1 / 2 = ((2 * n + d : Int) : ℚ) / ((2 * d : Nat) : ℚ) := by
    push_cast
    field_simp
  rw [hq, Rat.floor_intCast_div_natCast]
  push_cast
  rfl

/-- Settles O31, by the three ranges the clamp tells apart: below 0, above 255, and between, where the clamp does nothing. -/
theorem byteRoundingIsExact : Obligations.ByteRoundingIsExact := by
  intro q hden
  have hd : (0 : ℚ) < q.den := by exact_mod_cast hden
  rcases lt_or_ge q.num 0 with hneg | h0
  · have hq : (q.num : ℚ) / q.den < 0 := div_neg_of_neg_of_pos (by exact_mod_cast hneg) hd
    rw [Ratio.toByte_of_num_neg hneg, max_eq_left (min_le_of_right_le hq.le)]
    norm_num
  rcases lt_or_ge (255 * (q.den : Int)) q.num with hbig | h255
  · have hq : 255 < (q.num : ℚ) / q.den := by
      rw [lt_div_iff₀ hd]
      exact_mod_cast hbig
    rw [Ratio.toByte_of_lt_num hbig, min_eq_left hq.le]
    norm_num
  · have hlow : 0 ≤ (q.num : ℚ) / q.den := div_nonneg (by exact_mod_cast h0) hd.le
    have hhigh : (q.num : ℚ) / q.den ≤ 255 := by
      rw [div_le_iff₀ hd]
      exact_mod_cast h255
    rw [Ratio.toByte_of_num_mem h0 h255, min_eq_right hhigh, max_eq_right hlow, floor_div_add_half _ hden]

/-! ## Tags -/

/-- Settles O27, by evaluating the four tags. -/
theorem knownTagValues : Obligations.KnownTagValues := by
  unfold Obligations.KnownTagValues
  decide

/-! ## rdiv -/

/-- For an odd divisor there is no tie: `2 * d * rdiv n d` is within less than `d` of `2 * n`. -/
theorem rdiv_bounds_of_odd {d : Nat} (hd : Odd d) (n : Nat) :
    2 * (d * rdiv n d) < 2 * n + d ∧ 2 * n < 2 * (d * rdiv n d) + d := by
  obtain ⟨k, rfl⟩ := hd
  have hdiv : (2 * k + 1) * rdiv n (2 * k + 1) + (n + (2 * k + 1 - 1) / 2) % (2 * k + 1) =
      n + (2 * k + 1 - 1) / 2 := Nat.div_add_mod _ _
  have hmod : (n + (2 * k + 1 - 1) / 2) % (2 * k + 1) < 2 * k + 1 := Nat.mod_lt _ (by omega)
  omega

/-- Settles O30: 3, 5 and 7 are odd. -/
theorem rdivIsNearest : Obligations.RdivIsNearest := by
  intro n d hd
  have hodd : Odd d := (show ∀ d ∈ [3, 5, 7], Odd d by decide) d hd
  obtain ⟨hup, hdown⟩ := rdiv_bounds_of_odd hodd n
  zify at hup hdown
  constructor <;> linarith

end Sys2Proof.Machine
end

section
/-!
PROOFS. Host actions, reset and the invariant (10_state.md R21 to R35, 30_encoding.md R79, 70_reset_and_hazards.md
R340).
-/

namespace Sys2Proof.Machine

/-! ## One step -/

/-- With no action to come the block is idle (R316). -/
theorem step_idle {s : State} (h : s.host = []) : step s = .next s := by rw [step, h]

/-- A step takes the oldest action. -/
theorem step_cons {s : State} {a : HostAction} {rest : List HostAction} (h : s.host = a :: rest) :
    step s = hostStep a { s with host := rest } := by
  rw [step, h]

theorem runCommand_decoded {w : Word} {i : Instr} (h : decode w = .ok i) (s : State) : runCommand w s = exec i s := by
  rw [runCommand, h]

theorem hostWriteIbuf_inside {k : Nat} {b : Byte} {s : State} (h : k < s.inst.ibuf.bytes) :
    hostWriteIbuf k b s = .next { s with ibuf := s.ibuf.write k b } := if_pos h

theorem hostWriteIbuf_absent {k : Nat} {b : Byte} {s : State} (h : s.inst.ibuf.bytes ≤ k) :
    hostWriteIbuf k b s = .fault .hostOffset := if_neg h.not_gt

theorem hostWriteObuf_inside {k : Nat} {s : State} (h : k < s.inst.obuf.bytes) : hostWriteObuf k s = .next s := if_pos h

theorem hostWriteObuf_absent {k : Nat} {s : State} (h : s.inst.obuf.bytes ≤ k) :
    hostWriteObuf k s = .fault .hostOffset := if_neg h.not_gt

theorem hostLoad_inside {bs : List Byte} {s : State} (h : bs.length ≤ s.inst.ibuf.bytes) :
    hostLoad bs s = .next { s with ibuf := s.ibuf.writeBytes 0 bs, x := { s.x with inlen := reg bs.length } } :=
  if_pos h

theorem hostLoad_absent {bs : List Byte} {s : State} (h : s.inst.ibuf.bytes < bs.length) :
    hostLoad bs s = .fault .hostOffset := if_neg h.not_ge

theorem State.length_hostReadObufBytes (s : State) (n : Nat) : (s.hostReadObufBytes n).length = n := by
  simp [State.hostReadObufBytes]

/-- `MOVE` faults when either buffer is too small. -/
theorem hostMove_absent {n : Nat} {s : State} (h : s.inst.obuf.bytes < n ∨ s.inst.ibuf.bytes < n) :
    hostMove n s = .fault .hostOffset := by
  by_cases ho : n ≤ s.inst.obuf.bytes
  · rw [hostMove, if_pos ho]
    apply hostLoad_absent
    rw [s.length_hostReadObufBytes]
    exact h.resolve_left ho.not_gt
  · exact if_neg ho

/-- Settles O5: the oldest action is taken, and a legal word runs. -/
theorem stepRunsTheDecodedCommand : Obligations.StepRunsTheDecodedCommand := by
  intro s w i rest hhost hdecode
  rw [step_cons hhost]
  exact runCommand_decoded hdecode _

/-- Settles O16: an ignored write leaves the state as it is once the action is taken. -/
theorem hostWritesIgnored : Obligations.HostWritesIgnored := by
  refine fun s rest => ⟨fun w h => ?_, fun k b hk h => ?_, rfl⟩
  · rw [step_cons h]
    rfl
  · rw [step_cons h]
    exact hostWriteObuf_inside hk

/-- Settles O19, action by action. -/
theorem idleBlockKeepsStateAndAbsentOffsetsFault : Obligations.IdleBlockKeepsStateAndAbsentOffsetsFault := by
  refine fun s rest =>
    ⟨step_idle, fun k b hk h => ?_, fun k b hk h => ?_, fun bs hn h => ?_, fun n hn h => ?_⟩ <;> rw [step_cons h]
  · exact hostWriteIbuf_absent hk
  · exact hostWriteObuf_absent hk
  · exact hostLoad_absent hn
  · exact hostMove_absent hn

/-- Settles O17: the new buffer is the old one after the writes, and a read after a write gives the byte written. -/
theorem hostLoadsInput : Obligations.HostLoadsInput := by
  refine ⟨fun s bs rest h hn => ⟨s.ibuf.writeBytes 0 bs, ?_, fun k b hb => ?_, fun k hk => ?_⟩,
    fun s j b rest h hj => ⟨s.ibuf.write j b, ?_, s.ibuf.get?_write_same j b, fun k hk => ?_⟩⟩
  · rw [step_cons h]
    exact hostLoad_inside hn
  · obtain ⟨hk, rfl⟩ := List.getElem?_eq_some_iff.1 hb
    simpa using s.ibuf.get?_writeBytes_inside (o := 0) hk
  · exact s.ibuf.get?_writeBytes_other bs (.inr (by omega))
  · rw [step_cons h]
    exact hostWriteIbuf_inside hj
  · exact s.ibuf.get?_write_other b hk

/-- Settles O15: the register written reads as written and each other one as before. -/
theorem hostWritesRegister : Obligations.HostWritesRegister := by
  refine ⟨fun s => ⟨rfl, rfl, rfl, rfl, rfl, rfl, rfl⟩, fun s i v rest h => ?_⟩
  refine ⟨{ s with x := s.x.set i v, host := rest }, step_cons h, rfl, s.x.get_set_same i v, fun j hj => ?_⟩
  exact s.x.get_set_other v hj

/-! ## Reset (R35, R340) -/

@[simp] theorem Regs.get_zero (i : Fin 7) : Regs.zero.get i = 0 := by
  fin_cases i <;> rfl

/-- Settles O11: the registers are 0 and the buffers list nothing. -/
theorem resetValues : Obligations.ResetValues :=
  fun _ i k => ⟨Regs.get_zero i, rfl, rfl, Memory.get?_nil k, Memory.get?_nil k⟩

/-- Settles O14, by what `applyReset` does to each field. -/
theorem resetActionRestoresReset : Obligations.ResetActionRestoresReset := by
  intro s rest h
  refine ⟨State.applyReset { s with host := rest }, step_cons h, fun i => ?_, rfl, fun k => ?_, rfl, rfl⟩
  · simp [State.hostReadX]
  · simp

/-! ## The invariant -/

theorem statusLegal_zero : statusLegal 0 := .inl rfl

theorem statusLegal_statusOk : statusLegal statusOk := .inr (.inl statusOk_eq)

/-- The five codes of R301 are admitted. -/
theorem statusLegal_statusErr (e : Err) : statusLegal (statusErr e) := by
  unfold statusLegal
  cases e <;> decide

/-- Empty buffers and a legal `STATUS` meet the invariant. -/
theorem State.Inv.of_empty {s : State} (hi : s.ibuf = []) (ho : s.obuf = []) (hs : statusLegal s.status) : s.Inv where
  ibufWf := by simp [hi]
  ibufBound := by simp [hi]
  obufSegment := by simp [ho]
  obufBound := by simp [ho]
  status := hs

/-- Registers and later actions are free, and a well-formed `IBUF` inside its capacity may take the place of the old
one. -/
theorem State.Inv.with_input {s : State} (h : s.Inv) {m : Memory} (hwf : m.wf)
    (hbound : ∀ c ∈ m, c.1 < s.inst.ibuf.bytes) (x : Regs) (acts : List HostAction) :
    State.Inv { s with ibuf := m, x := x, host := acts } where
  ibufWf := hwf
  ibufBound := hbound
  obufSegment := h.obufSegment
  obufBound := h.obufBound
  status := h.status

theorem State.Inv.raise {s : State} (h : s.Inv) (e : Err) : (s.raise e).Inv where
  ibufWf := h.ibufWf
  ibufBound := h.ibufBound
  obufSegment := h.obufSegment
  obufBound := h.obufBound
  status := statusLegal_statusErr e

/-- A success whose output fits `OBUF` keeps the invariant. -/
theorem State.Inv.done {s : State} (h : s.Inv) {r : Result} (hr : r.out.length ≤ s.inst.obuf.bytes) :
    (s.done r).Inv where
  ibufWf := h.ibufWf
  ibufBound := h.ibufBound
  obufSegment := by
    rw [State.done_obuf, Memory.offsets_ofBytes, Memory.length_ofBytes, List.range_eq_range']
  obufBound := by simpa using hr
  status := statusLegal_statusOk

/-- Every command keeps the invariant (R57). -/
theorem exec_keeps_inv {i : Instr} {s t : State} (h : s.Inv) (ht : exec i s = .next t) : t.Inv := by
  rw [exec_inv ht]
  cases hc : command i s with
  | ok r => exact h.done (command_length hc)
  | error e => exact h.raise e

/-- A write to `CMD` keeps the invariant: the word runs or is refused. -/
theorem runCommand_keeps_inv {w : Word} {s t : State} (h : s.Inv) (ht : runCommand w s = .next t) : t.Inv := by
  rcases runCommand_cases w s with ⟨i, -, hrun⟩ | ⟨-, hrun⟩ <;> rw [hrun] at ht
  · exact exec_keeps_inv h ht
  · cases ht
    exact h.raise _

theorem hostWriteIbuf_keeps_inv {k : Nat} {b : Byte} {s t : State} (h : s.Inv) (ht : hostWriteIbuf k b s = .next t) :
    t.Inv := by
  rcases Nat.lt_or_ge k s.inst.ibuf.bytes with hk | hk
  · rw [hostWriteIbuf_inside hk] at ht
    cases ht
    refine h.with_input (Memory.wf_write h.ibufWf k b) (fun c hc => ?_) s.x s.host
    rcases Memory.mem_write hc with rfl | hc
    · exact hk
    · exact h.ibufBound c hc
  · rw [hostWriteIbuf_absent hk] at ht
    cases ht

theorem hostWriteObuf_keeps_inv {k : Nat} {s t : State} (h : s.Inv) (ht : hostWriteObuf k s = .next t) : t.Inv := by
  rcases Nat.lt_or_ge k s.inst.obuf.bytes with hk | hk
  · rw [hostWriteObuf_inside hk] at ht
    cases ht
    exact h
  · rw [hostWriteObuf_absent hk] at ht
    cases ht

theorem hostLoad_keeps_inv {bs : List Byte} {s t : State} (h : s.Inv) (ht : hostLoad bs s = .next t) : t.Inv := by
  obtain ⟨hn, rfl⟩ := hostLoad_inv ht
  refine h.with_input (Memory.wf_writeBytes h.ibufWf 0 bs) (fun c hc => ?_) _ s.host
  rcases Memory.mem_writeBytes hc with hc | ⟨-, hc⟩
  · exact h.ibufBound c hc
  · omega

theorem hostMove_keeps_inv {n : Nat} {s t : State} (h : s.Inv) (ht : hostMove n s = .next t) : t.Inv := by
  unfold hostMove at ht
  split at ht
  · exact hostLoad_keeps_inv h ht
  · cases ht

/-- Every host action keeps the invariant. -/
theorem hostStep_keeps_inv {a : HostAction} {s t : State} (h : s.Inv) (ht : hostStep a s = .next t) : t.Inv := by
  cases a with
  | setX i v =>
    cases ht
    exact h.with_input h.ibufWf h.ibufBound _ s.host
  | writeIbuf k b => exact hostWriteIbuf_keeps_inv h ht
  | writeObuf k b => exact hostWriteObuf_keeps_inv h ht
  | writeStatus w =>
    cases ht
    exact h
  | writeCmd w => exact runCommand_keeps_inv h ht
  | load bs => exact hostLoad_keeps_inv h ht
  | move n => exact hostMove_keeps_inv h ht
  | reset =>
    cases ht
    exact .of_empty rfl rfl statusLegal_zero

/-- Settles O12: nothing is listed and `STATUS` is 0. -/
theorem invariantAtReset : Obligations.InvariantAtReset := fun _ => .of_empty rfl rfl statusLegal_zero

/-- Settles O13: an idle block keeps its state, and every host action keeps the invariant. -/
theorem stepKeepsInvariant : Obligations.StepKeepsInvariant := by
  intro s t hinv ht
  cases hhost : s.host with
  | nil =>
    rw [step_idle hhost] at ht
    cases ht
    exact hinv
  | cons a rest =>
    rw [step_cons hhost] at ht
    exact hostStep_keeps_inv (hinv.with_input hinv.ibufWf hinv.ibufBound s.x rest) ht

end Sys2Proof.Machine
end

section
/-!
PROOFS. What every command leaves unchanged, defines, and depends on (10_state.md R29 to R31, 60_exceptions.md R303,
R304).
-/

namespace Sys2Proof.Machine

/-! ## What a command leaves unchanged -/

/-- The registers of a command's outcome are as `command_regs` says, whether it succeeds or raises an error. -/
theorem finish_regs (i : Instr) (s : State) :
    (s.finish (command i s)).x.inlen = s.x.inlen ∧
      (i ∉ [.hdrParse, .decFrame] →
        (s.finish (command i s)).x.width = s.x.width ∧ (s.finish (command i s)).x.height = s.x.height) ∧
      (i ∉ [.hdrParse, .fccResolve, .decFrame] →
        (s.finish (command i s)).x.fourcc = s.x.fourcc ∧ (s.finish (command i s)).x.bitcount = s.x.bitcount ∧
          (s.finish (command i s)).x.probe = s.x.probe) := by
  cases hc : command i s with
  | ok r =>
    obtain ⟨hlen, hsize, hfields⟩ := command_regs hc
    refine ⟨hlen, fun hi => ?_, fun hi => ?_⟩ <;>
      simp only [List.mem_cons, List.not_mem_nil, or_false, not_or] at hi
    · obtain ⟨hparse, hdec⟩ := hi
      exact hsize hparse hdec
    · obtain ⟨hparse, hres, hdec⟩ := hi
      exact hfields hparse hres hdec
  | error e => exact ⟨rfl, fun _ => ⟨rfl, rfl⟩, fun _ => ⟨rfl, rfl, rfl⟩⟩

/-- Settles O7: every command ends in `finish`, which touches neither `IBUF` nor `inst` nor the host's actions. -/
theorem commandFrame : Obligations.CommandFrame := by
  intro i s t ht
  rw [exec_inv ht]
  exact ⟨s.finish_ibuf _, s.finish_ibufEpoch _, s.finish_inst _, s.finish_host _, finish_regs i s⟩

/-! ## What a successful command defines -/

/-- `STATUS` tells success from error. -/
theorem finish_ok_of_status {s : State} {c : Except Err Result} (h : (s.finish c).status = 0x80#32) :
    ∃ r, c = .ok r := by
  cases c with
  | ok r => exact ⟨r, rfl⟩
  | error e => exact absurd h (statusErr_ne_ok e)

/-- Settles O8: a success commits its output bytes and nothing else, and their number fits `OBUF` and `x[3]`. -/
theorem successDefinesOutputBytes : Obligations.SuccessDefinesOutputBytes := by
  intro i s t ht hok
  obtain rfl := exec_inv ht
  obtain ⟨r, hr⟩ := finish_ok_of_status hok
  have hlen : (s.finish (command i s)).x.outlen.toNat = r.out.length := by
    rw [hr]
    exact Nat.mod_eq_of_lt (command_length_lt hr)
  rw [hlen, hr]
  refine ⟨command_length hr, fun k => ?_⟩
  simp

/-! ## The input a command sees (R29) -/

/-- Two states with the same parameters (R5), the same `x[2]` and the same bytes `IBUF[0 .. x[2])`. -/
structure SameInput (s u : State) : Prop where
  /-- The parameters and the fit (R5). -/
  inst : u.inst = s.inst
  /-- `x[2]`. -/
  inlen : u.inlen = s.inlen
  /-- `IBUF[0 .. x[2])`. -/
  byte : ∀ k < s.inlen, u.inByte k = s.inByte k

theorem SameInput.inBytes {s u : State} (h : SameInput s u) {o n : Nat} (hn : o + n ≤ s.inlen) :
    u.inBytes o n = s.inBytes o n :=
  State.inBytes_congr fun k _ hk => h.byte k (by omega)

theorem SameInput.memRead {s u : State} (h : SameInput s u) {o n : Nat} (hn : o + n ≤ s.inlen) :
    u.memRead o n = s.memRead o n := by
  rw [State.memRead, h.inBytes hn, State.memRead]

theorem SameInput.rgbAt {s u : State} (h : SameInput s u) {o : Nat} (ho : o + 2 < s.inlen) : u.rgbAt o = s.rgbAt o := by
  rw [State.rgbAt, h.byte o (by omega), h.byte (o + 1) (by omega), h.byte (o + 2) ho, State.rgbAt]

theorem SameInput.headerBytes {s u : State} (h : SameInput s u) : u.headerBytes = s.headerBytes := by
  rw [State.headerBytes, h.inlen, h.inBytes (by omega), State.headerBytes]

theorem SameInput.inputHeader {s u : State} (h : SameInput s u) : inputHeader u = inputHeader s := by
  rw [Machine.inputHeader, h.inlen, h.inst, h.headerBytes, Machine.inputHeader]

theorem SameInput.inputProbe {s u : State} (h : SameInput s u) : inputProbe u = inputProbe s := by
  rw [Machine.inputProbe, h.inst, h.headerBytes, Machine.inputProbe]

theorem SameInput.bc1Samples {s u : State} (h : SameInput s u) (hn : s.inlen = 64) : u.bc1Samples = s.bc1Samples :=
  List.map_congr_left fun i hi => h.rgbAt (by have := List.mem_range.1 hi; omega)

theorem SameInput.alphaSamples {s u : State} (h : SameInput s u) (hn : s.inlen = 16) :
    u.alphaSamples = s.alphaSamples := by
  rw [State.alphaSamples, h.inBytes (by omega), State.alphaSamples]

theorem SameInput.packBytes {s u : State} (h : SameInput s u) (hn : s.inlen = 16) (w : Nat) :
    packBytes w u = packBytes w s := by
  rw [Machine.packBytes, maskedInputs, h.inBytes (by omega), Machine.packBytes, maskedInputs]

theorem SameInput.unpackBytes {s u : State} (h : SameInput s u) {w : Nat} (hn : s.inlen = 2 * w) :
    unpackBytes w u = unpackBytes w s := by
  rw [Machine.unpackBytes, h.memRead (by omega), Machine.unpackBytes]

/-- The payload of a decode is read below `x[2]` only. -/
theorem SameInput.payload {s u : State} (h : SameInput s u) :
    u.inBytes 128 (u.inlen - 128) = s.inBytes 128 (s.inlen - 128) := by
  rw [h.inlen]
  exact State.inBytes_congr fun k _ hk => h.byte k (by omega)

theorem SameInput.decodePixels {s u : State} (h : SameInput s u) (h128 : 128 ≤ s.inlen) (hdr : Header)
    (p : List Byte) : decodePixels u hdr p = decodePixels s hdr p := by
  simp only [Machine.decodePixels, h.inputProbe, h.inst, h.memRead (o := 92) (n := 4) (by omega)]

/-! ## The image an encode sees -/

/-- A sample inside the image is one of its `W * H` pixels (R225). -/
theorem samplePixel_lt {w h bx by' i j : Nat} (e : samplePixel w h bx by' i = some j) : j < w * h := by
  simp only [samplePixel, Option.ite_none_right_eq_some, Option.some.injEq] at e
  obtain ⟨⟨hx, hy⟩, rfl⟩ := e
  calc (4 * by' + i / 4) * w + (4 * bx + i % 4)
      < (4 * by' + i / 4 + 1) * w := by rw [Nat.succ_mul (4 * by' + i / 4)]; omega
    _ ≤ h * w := Nat.mul_le_mul_right w hy
    _ = w * h := Nat.mul_comm h w

/-- Two states with the same input, the same dimensions, and as many input bytes as the image has. -/
structure SameImage (s u : State) : Prop extends SameInput s u where
  /-- `x[0]`. -/
  width : u.width = s.width
  /-- `x[1]`. -/
  height : u.height = s.height
  /-- The length check of R221. -/
  length : s.inlen = 4 * s.width * s.height

/-- Every byte of a sample inside the image lies in the input. -/
theorem SameImage.sample_lt {s u : State} (h : SameImage s u) {bx by' i j : Nat}
    (e : samplePixel s.width s.height bx by' i = some j) : 4 * j + 3 < s.inlen := by
  have := samplePixel_lt e
  rw [h.length, Nat.mul_assoc]
  omega

theorem SameImage.gatherRgb {s u : State} (h : SameImage s u) (bx by' : Nat) :
    gatherRgb u bx by' = gatherRgb s bx by' := by
  refine List.map_congr_left fun i _ => ?_
  rw [h.width, h.height]
  cases e : samplePixel s.width s.height bx by' i with
  | none => rfl
  | some j => exact h.rgbAt (Nat.lt_of_succ_lt (h.sample_lt e))

theorem SameImage.gatherAlpha {s u : State} (h : SameImage s u) (bx by' : Nat) :
    gatherAlpha u bx by' = gatherAlpha s bx by' := by
  refine List.map_congr_left fun i _ => ?_
  rw [h.width, h.height]
  cases e : samplePixel s.width s.height bx by' i with
  | none => rfl
  | some j => exact congrArg BitVec.toNat (h.byte _ (h.sample_lt e))

theorem SameImage.blockOf {s u : State} (h : SameImage s u) (bx by' : Nat) (f : Fmt) :
    blockOf u bx by' f = blockOf s bx by' f := by
  cases f <;> simp only [Machine.blockOf, h.gatherRgb, h.gatherAlpha, h.inst]

theorem SameImage.framePayload {s u : State} (h : SameImage s u) (f : Fmt) : framePayload f u = framePayload f s := by
  cases f with
  | rgba =>
    rw [Machine.framePayload, h.width, h.height, h.inBytes (by rw [h.length, Nat.zero_add]), Machine.framePayload]
  | dxt1 => simp only [Machine.framePayload, blockPayload, h.width, h.height, h.blockOf]
  | dxt5 => simp only [Machine.framePayload, blockPayload, h.width, h.height, h.blockOf]

/-! ## The result of a command depends on its inputs only -/

/-- The same outcome of the command `i`: the same error, or a success with the same output and the same values in the
out-registers that `i` writes (R21, R29). -/
inductive SameResult (i : Instr) : Except Err Result → Except Err Result → Prop where
  /-- Both raise this error. -/
  | error (e : Err) : SameResult i (.error e) (.error e)
  /-- Both succeed. -/
  | ok {r q : Result} (out : q.out = r.out)
      (size : i ∈ [.hdrParse, .decFrame] → q.x.width = r.x.width ∧ q.x.height = r.x.height)
      (fields : i ∈ [.hdrParse, .fccResolve, .decFrame] →
        q.x.fourcc = r.x.fourcc ∧ q.x.bitcount = r.x.bitcount ∧ q.x.probe = r.x.probe) :
      SameResult i (.ok r) (.ok q)

/-- A command without out-registers but `x[3]` has only its output to report. -/
theorem SameResult.ok_of_out {i : Instr} {r q : Result} (hi : i ∉ [.hdrParse, .fccResolve, .decFrame])
    (out : q.out = r.out) : SameResult i (.ok r) (.ok q) :=
  have hsub : [Instr.hdrParse, .decFrame] ⊆ [.hdrParse, .fccResolve, .decFrame] := by simp
  .ok out (fun h => absurd (hsub h) hi) fun h => absurd h hi

theorem hdrBuild_same {i : Instr} {s u : State} (hi : i ∉ [.hdrParse, .fccResolve, .decFrame])
    (hw : u.width = s.width) (hh : u.height = s.height) (f : Fmt) : SameResult i (hdrBuild f s) (hdrBuild f u) := by
  unfold hdrBuild
  rw [hw, hh]
  split_ifs
  · exact .error _
  · exact .error _
  · exact .ok_of_out hi rfl

/-- A block operation whose meaning reads its exact-length input only. -/
theorem blockOp_same {i : Instr} {s u : State} {need : Nat} {f : State → List Byte}
    (hi : i ∉ [.hdrParse, .fccResolve, .decFrame]) (h : SameInput s u) (hf : s.inlen = need → f u = f s) :
    SameResult i (blockOp need f s) (blockOp need f u) := by
  unfold blockOp
  rw [h.inlen, h.inst]
  split_ifs with hc hn
  · exact .error _
  · exact .error _
  · exact .ok_of_out hi (hf (not_not.1 hn))

theorem encFrame_same {i : Instr} {s u : State} (hi : i ∉ [.hdrParse, .fccResolve, .decFrame]) (h : SameInput s u)
    (hw : u.width = s.width) (hh : u.height = s.height) (f : Fmt) : SameResult i (encFrame f s) (encFrame f u) := by
  simp only [encFrame]
  rw [h.inlen, h.inst, hw, hh]
  split_ifs with h1 h2 h3 hlen
  case neg => exact .ok_of_out hi (by rw [SameImage.framePayload ⟨h, hw, hh, not_not.1 hlen⟩])
  all_goals exact .error _

theorem hdrParse_same {s u : State} (h : SameInput s u) : SameResult .hdrParse (hdrParse s) (hdrParse u) := by
  unfold hdrParse
  rw [h.inputHeader]
  cases inputHeader s with
  | error e => exact .error e
  | ok hdr => exact .ok rfl (fun _ => ⟨rfl, rfl⟩) fun _ => ⟨rfl, rfl, rfl⟩

theorem fccResolve_same {s u : State} (h : SameInput s u) : SameResult .fccResolve (fccResolve s) (fccResolve u) := by
  unfold fccResolve
  rw [h.inputHeader, h.inputProbe]
  cases inputHeader s with
  | error e => exact .error e
  | ok hdr => exact .ok rfl (fun hi => absurd hi (by decide)) fun _ => ⟨rfl, rfl, rfl⟩

theorem decFrame_same {s u : State} (h : SameInput s u) : SameResult .decFrame (decFrame s) (decFrame u) := by
  unfold decFrame
  rw [h.inputHeader, h.inputProbe, h.payload]
  cases hh : inputHeader s with
  | error e => exact .error e
  | ok hdr =>
    obtain ⟨-, h128, -, -⟩ := inputHeader_inv hh
    simp only [h.decodePixels h128]
    split_ifs
    · exact .error _
    · cases decodePixels s hdr (s.inBytes 128 (s.inlen - 128)) with
      | error e => exact .error e
      | ok px => exact .ok rfl (fun _ => ⟨rfl, rfl⟩) fun _ => ⟨rfl, rfl, rfl⟩

/-- The inputs of the command `i` are the same in two states: the dimensions for HDR_BUILD and ENC_FRAME, and the
input, with the parameters it is checked against, for every command but HDR_BUILD (R29). -/
structure SameOperands (i : Instr) (s u : State) : Prop where
  /-- `x[0]` and `x[1]`. -/
  size : i ∈ [.hdrBuildRgba, .hdrBuildDxt1, .hdrBuildDxt5, .encFrameRgba, .encFrameDxt1, .encFrameDxt5] →
    u.width = s.width ∧ u.height = s.height
  /-- `x[2]` and `IBUF[0 .. x[2])`. -/
  input : i ∉ [.hdrBuildRgba, .hdrBuildDxt1, .hdrBuildDxt5] → SameInput s u

/-- Every command gives the same result on the same operands. -/
theorem command_same {i : Instr} {s u : State} (h : SameOperands i s u) : SameResult i (command i s) (command i u) := by
  obtain ⟨size, input⟩ := h
  cases i <;> simp only [command]
  case hdrBuildRgba => exact hdrBuild_same (by decide) (size (by decide)).1 (size (by decide)).2 _
  case hdrBuildDxt1 => exact hdrBuild_same (by decide) (size (by decide)).1 (size (by decide)).2 _
  case hdrBuildDxt5 => exact hdrBuild_same (by decide) (size (by decide)).1 (size (by decide)).2 _
  case hdrParse => exact hdrParse_same (input (by decide))
  case fccResolve => exact fccResolve_same (input (by decide))
  case bc1Enc =>
    have h := input (by decide)
    exact blockOp_same (by decide) h fun hn => by rw [h.inst, h.bc1Samples hn]
  case bc3aEnc =>
    have h := input (by decide)
    exact blockOp_same (by decide) h fun hn => by rw [h.alphaSamples hn]
  case pack2 =>
    have h := input (by decide)
    exact blockOp_same (by decide) h fun hn => h.packBytes hn 2
  case pack3 =>
    have h := input (by decide)
    exact blockOp_same (by decide) h fun hn => h.packBytes hn 3
  case unpack2 =>
    have h := input (by decide)
    exact blockOp_same (by decide) h fun hn => h.unpackBytes hn
  case unpack3 =>
    have h := input (by decide)
    exact blockOp_same (by decide) h fun hn => h.unpackBytes hn
  case encFrameRgba => exact encFrame_same (by decide) (input (by decide)) (size (by decide)).1 (size (by decide)).2 _
  case encFrameDxt1 => exact encFrame_same (by decide) (input (by decide)) (size (by decide)).1 (size (by decide)).2 _
  case encFrameDxt5 => exact encFrame_same (by decide) (input (by decide)) (size (by decide)).1 (size (by decide)).2 _
  case decFrame => exact decFrame_same (input (by decide))

/-- Settles O9: both states end in `finish` of the same result. -/
theorem commandsAreStateless : Obligations.CommandsAreStateless := by
  intro i s u t v ht hv hinst hsize hinput
  have hops : SameOperands i s u :=
    { size := fun hi => (hsize hi).imp (congrArg BitVec.toNat) (congrArg BitVec.toNat)
      input := fun hi => ⟨hinst, congrArg BitVec.toNat (hinput hi).1, (hinput hi).2⟩ }
  have hsame := command_same hops
  rw [exec_inv ht, exec_inv hv]
  cases hs : command i s <;> cases hu : command i u <;> rw [hs, hu] at hsame <;> cases hsame
  case error.error.error e =>
    exact ⟨rfl, fun hok => absurd hok (statusErr_ne_ok e)⟩
  case ok.ok.ok r q out size fields =>
    exact ⟨rfl, fun _ => ⟨by simp [out], by simp [out], size, fields⟩⟩

end Sys2Proof.Machine
end

section
/-!
PROOFS. `CapacityError`, for an input longer than `IBUF` and an output longer than `OBUF` (20_memory.md R57,
44_frame_encode.md R221, 45_frame_decode.md R251, 60_exceptions.md R308).
-/

namespace Sys2Proof.Machine

/-! ## Errors raised before anything is read -/

/-- But for the three commands that read a header, every check comes before the first read (R344). -/
theorem commandReads_eq_nil_of_error {i : Instr} {s : State} {e : Err} (hi : i ∉ [.hdrParse, .fccResolve, .decFrame])
    (h : command i s = .error e) : commandReads i s = [] := by
  have hnil : ∀ offs, readsAfterChecks (command i s) offs = [] := fun offs => by rw [h, readsAfterChecks]
  cases i
  case hdrBuildRgba | hdrBuildDxt1 | hdrBuildDxt5 => rfl
  case hdrParse | fccResolve | decFrame => exact absurd hi (by decide)
  all_goals exact hnil _

/-- An error of a command that reads no header is raised whether or not the input is written. -/
theorem exec_raises_unread {i : Instr} {s : State} {e : Err} (hi : i ∉ [.hdrParse, .fccResolve, .decFrame])
    (h : command i s = .error e) : exec i s = .next { s with status := statusErr e } :=
  exec_raises h (by simp [commandReads_eq_nil_of_error hi h])

/-- A command that reads a header reads nothing of an input longer than `IBUF`. -/
theorem headerCommand_reads_fit {i : Instr} {s : State} {k : Nat} (hi : i ∈ [.hdrParse, .fccResolve, .decFrame])
    (hk : k ∈ commandReads i s) : s.inlen ≤ s.inst.ibuf.bytes := by
  simp only [List.mem_cons, List.not_mem_nil, or_false] at hi
  obtain rfl | rfl | rfl := hi <;> exact (mem_headerReads.1 hk).1

/-! ## The input capacity -/

theorem encFrame_inputCapacity {f : Fmt} {s : State} (h : s.inst.ibuf.bytes < s.inlen) :
    encFrame f s = .error .capacity := if_pos h

/-- The input capacity is the first check of every command that has an input (R308 (2)). -/
theorem command_inputCapacity {i : Instr} {s : State} (hi : i ∉ [.hdrBuildRgba, .hdrBuildDxt1, .hdrBuildDxt5])
    (h : s.inst.ibuf.bytes < s.inlen) : command i s = .error .capacity := by
  cases i
  case hdrBuildRgba | hdrBuildDxt1 | hdrBuildDxt5 => exact absurd hi (by decide)
  case hdrParse => rw [command, hdrParse, inputHeader_capacity h]
  case fccResolve => rw [command, fccResolve, inputHeader_capacity h]
  case decFrame => rw [command, decFrame, inputHeader_capacity h]
  case encFrameRgba | encFrameDxt1 | encFrameDxt5 => exact encFrame_inputCapacity h
  all_goals
    rw [command]
    exact blockOp_capacity h

/-- Settles O10: the first check fails, and no command has read a byte by then. -/
theorem inputCapacityComesFirst : Obligations.InputCapacityComesFirst := by
  intro i s hi hlong
  have hcommand := command_inputCapacity hi hlong
  by_cases hheader : i ∈ [.hdrParse, .fccResolve, .decFrame]
  · exact exec_raises hcommand fun k hk => absurd (headerCommand_reads_fit hheader hk) hlong.not_ge
  · exact exec_raises_unread hheader hcommand

/-! ## The output capacity of an encode -/

/-- The output capacity is the last check of ENC_FRAME (R221). -/
theorem encFrame_outputCapacity {f : Fmt} {s : State} (h1 : s.inlen ≤ s.inst.ibuf.bytes) (h2 : 1 ≤ s.width)
    (h3 : 1 ≤ s.height) (h4 : s.inlen = 4 * s.width * s.height) (h5 : linearSizeFits s.width s.height f = true)
    (h6 : s.inst.obuf.bytes < 128 + payloadLength s.width s.height f) : encFrame f s = .error .capacity := by
  have h32 : 4 * s.width * s.height < 2 ^ 32 := h4 ▸ s.inlen_lt
  simp only [encFrame]
  rw [if_neg h1.not_gt, if_neg (by omega), if_neg h32.not_ge, if_neg (not_not.2 h4), if_neg (by simp [h5]), if_pos h6]

/-- Settles O49, format by format: the obligation's payload is `payloadLength`, and its bound is the `LINEARSIZE` check. -/
theorem encFrameOutputCapacity : Obligations.EncFrameOutputCapacity := by
  intro s i payload hformat hw hh hlen hfits hsmall
  obtain ⟨rfl, rfl⟩ | ⟨rfl, rfl, h32⟩ | ⟨rfl, rfl, h32⟩ := hformat
  · have hc : encFrame .rgba s = .error .capacity := encFrame_outputCapacity hfits hw hh hlen rfl hsmall
    exact exec_raises_unread (i := .encFrameRgba) (by decide) hc
  · have hc : encFrame .dxt1 s = .error .capacity := by
      refine encFrame_outputCapacity hfits hw hh hlen (decide_eq_true h32) ?_
      rwa [payloadLength, Nat.mul_comm 8]
    exact exec_raises_unread (i := .encFrameDxt1) (by decide) hc
  · have hc : encFrame .dxt5 s = .error .capacity := by
      refine encFrame_outputCapacity hfits hw hh hlen (decide_eq_true h32) ?_
      rwa [payloadLength, Nat.mul_comm 16]
    exact exec_raises_unread (i := .encFrameDxt5) (by decide) hc

/-! ## The output capacity of a decode -/

/-- A check that fails before the payload is read is the outcome of the decode (R251 lines 8 to 12 and 18 to 21). -/
theorem decodePixels_of_payloadCheck {s : State} {hdr : Header} {e : Err} (h : payloadCheck s hdr = some e) :
    decodePixels s hdr (s.inBytes 128 (s.inlen - 128)) = .error e := by
  unfold payloadCheck at h
  unfold decodePixels
  split at h
  · exact congrArg Except.error (Option.some.inj h)
  · rw [decodeCompressed, s.length_inBytes, h]
  · rw [decodeUncompressed, s.length_inBytes, h]

/-- DEC_FRAME raises the error of a check that fails before the payload is read once the header is written (R344). -/
theorem decFrame_raises_payloadCheck {s : State} {e : Err} (h : HeaderAccepted s) (hw : s.memRead 16 4 ≠ 0)
    (hh : s.memRead 12 4 ≠ 0) (hcheck : payloadCheck s s.header = some e) (hws : ∀ k < 128, s.written k) :
    exec .decFrame s = .next { s with status := statusErr e } :=
  decFrame_raises h hw hh (decodePixels_of_payloadCheck hcheck) fun k hk =>
    hws k (hk.resolve_right (by simp [hcheck]))

theorem compressedCheck_capacity {ob : Nat} {c : CompTag} {n w h : Nat} (hn : n = nblocks w h * compBlockBytes c)
    (hsmall : ob < 4 * w * h) : compressedCheck ob c n w h = some .capacity := by
  rw [compressedCheck, if_neg (not_not.2 hn), if_pos hsmall]

theorem uncompressedCheck_capacity {ob bits n w h : Nat} (hbits : bits = 24 ∨ bits = 32) (hn : n = w * h * (bits / 8))
    (hsmall : ob < 4 * w * h) : uncompressedCheck ob bits n w h = some .capacity := by
  rw [uncompressedCheck, if_neg (by omega), if_neg (not_not.2 hn), if_pos hsmall]

/-- Settles O57: on either branch the output capacity is the last check before the payload is read. -/
theorem decFrameOutputCapacity : Obligations.DecFrameOutputCapacity := by
  intro s tag stage off need haccepted hresolves w h blocks hw hh hkind hlen hsmall hws
  refine decFrame_raises_payloadCheck (e := .capacity) haccepted hw hh ?_ hws
  rw [payloadCheck_eq haccepted hresolves]
  obtain ⟨rfl, rfl⟩ | ⟨rfl, rfl⟩ | ⟨rfl, rfl⟩ | ⟨rfl, hbits, rfl⟩ | ⟨rfl, hbits, rfl⟩ := hkind
  · exact compressedCheck_capacity hlen hsmall
  · exact compressedCheck_capacity hlen hsmall
  · exact compressedCheck_capacity hlen hsmall
  · exact uncompressedCheck_capacity (.inl hbits) (by rw [hbits]; exact hlen) hsmall
  · exact uncompressedCheck_capacity (.inr hbits) (by rw [hbits]; exact hlen) hsmall

end Sys2Proof.Machine
end

section
/-!
PROOFS. The command word: decoder against encoder, and which words are legal (30_encoding.md R70 to R76).
-/

namespace Sys2Proof

/-! ## The fields of a word (R70) -/

theorem CmdFields.toNat_toWord (f : CmdFields) :
    f.toWord.toNat = 1024 * f.zero.toNat + 256 * f.fmt.toNat + f.opc.toNat := by
  have hor : ∀ {k b : Nat} (a : Nat), b < 2 ^ k → a <<< k ||| b = 2 ^ k * a + b := fun a hb => by
    rw [Nat.shiftLeft_eq, Nat.mul_comm, Nat.two_pow_add_eq_or_of_lt hb]
  rw [CmdFields.toWord, BitVec.toNat_append, BitVec.toNat_append, hor _ f.opc.isLt, hor _ f.fmt.isLt]
  omega

theorem CmdFields.toNat_zero_ofWord (w : Word) : (CmdFields.ofWord w).zero.toNat = w.toNat / 1024 := by
  have := w.isLt
  simp only [CmdFields.ofWord, BitVec.extractLsb'_toNat, Nat.shiftRight_eq_div_pow]
  omega

theorem CmdFields.toNat_fmt_ofWord (w : Word) : (CmdFields.ofWord w).fmt.toNat = w.toNat / 256 % 4 := by
  simp only [CmdFields.ofWord, BitVec.extractLsb'_toNat, Nat.shiftRight_eq_div_pow, Nat.reducePow]

theorem CmdFields.toNat_opc_ofWord (w : Word) : (CmdFields.ofWord w).opc.toNat = w.toNat % 256 := by
  simp only [CmdFields.ofWord, BitVec.extractLsb'_toNat, Nat.shiftRight_zero, Nat.reducePow]

/-- The three fields are the whole word. -/
theorem CmdFields.toWord_ofWord (w : Word) : (CmdFields.ofWord w).toWord = w := by
  apply BitVec.eq_of_toNat_eq
  rw [CmdFields.toNat_toWord, CmdFields.toNat_zero_ofWord, CmdFields.toNat_fmt_ofWord, CmdFields.toNat_opc_ofWord]
  omega

/-! ## The opcode map (R71, R72) -/

theorem withFmt_eq_ok {fmt : BitVec 2} {a b c i : Instr} :
    withFmt fmt a b c = .ok i ↔ fmt = 0#2 ∧ i = a ∨ fmt = 1#2 ∧ i = b ∨ fmt = 2#2 ∧ i = c := by
  unfold withFmt
  split
  case h_4 => simp_all
  all_goals simp [eq_comm]

theorem noFmt_eq_ok {fmt : BitVec 2} {j i : Instr} : noFmt fmt j = .ok i ↔ fmt = 0#2 ∧ i = j := by
  unfold noFmt
  split_ifs with h <;> simp [h, eq_comm]

theorem decode_encode (i : Instr) : decode (encode i) = .ok i := by
  cases i <;> decide

/-- Operation by operation, the opcode map accepts only the fields of the command it gives. -/
theorem eq_encodeFields_of_decodeFields {f : CmdFields} {i : Instr} (h : decodeFields f = .ok i) :
    f = encodeFields i := by
  obtain ⟨zero, fmt, opc⟩ := f
  unfold decodeFields at h
  split_ifs at h with hz
  dsimp only at h hz
  obtain rfl := not_not.1 hz
  split at h
  case h_1 | h_10 => obtain ⟨rfl, rfl⟩ | ⟨rfl, rfl⟩ | ⟨rfl, rfl⟩ := withFmt_eq_ok.1 h <;> rfl
  case h_12 => cases h
  all_goals
    obtain ⟨rfl, rfl⟩ := noFmt_eq_ok.1 h
    rfl

/-- Settles O2: the fields are the whole word, and the opcode map accepts only the fields of the command it gives. -/
theorem decodeAndEncodeAgree : Obligations.DecodeAndEncodeAgree := by
  refine fun w i => ⟨fun h => ?_, fun h => h ▸ decode_encode i⟩
  rw [encode, ← eq_encodeFields_of_decodeFields h, CmdFields.toWord_ofWord]

/-! ## Legal words (R74) -/

theorem exists_withFmt_eq_ok {fmt : BitVec 2} {a b c : Instr} :
    (∃ i, withFmt fmt a b c = .ok i) ↔ fmt = 0#2 ∨ fmt = 1#2 ∨ fmt = 2#2 := by
  simp only [withFmt_eq_ok, exists_or, exists_and_left, exists_eq, and_true]

theorem exists_noFmt_eq_ok {fmt : BitVec 2} {j : Instr} : (∃ i, noFmt fmt j = .ok i) ↔ fmt = 0#2 := by
  simp only [noFmt_eq_ok, exists_and_left, exists_eq, and_true]

/-- R74's three conditions, on the fields of a word. -/
theorem exists_decodeFields_eq_ok {f : CmdFields} :
    (∃ i, decodeFields f = .ok i) ↔ f.zero = 0#22 ∧
      (f.opc ∈ [0x01#8, 0x30#8] ∧ f.fmt ∈ [0#2, 1#2, 2#2] ∨
        f.opc ∈ [0x02#8, 0x03#8, 0x10#8, 0x11#8, 0x20#8, 0x21#8, 0x22#8, 0x23#8, 0x31#8] ∧ f.fmt = 0#2) := by
  obtain ⟨zero, fmt, opc⟩ := f
  unfold decodeFields
  by_cases hz : zero = 0#22
  · rw [if_neg (not_not.2 hz)]
    dsimp only
    split
    case h_12 => simp_all
    all_goals simp [hz, exists_withFmt_eq_ok, exists_noFmt_eq_ok]
  · simp [hz]

/-- Settles O3: the conditions on the fields, read as arithmetic on the word. -/
theorem legalExactlyWhenDecoded : Obligations.LegalExactlyWhenDecoded := by
  intro w
  rw [show (∃ i, decode w = .ok i) ↔ _ from exists_decodeFields_eq_ok]
  simp only [List.mem_cons, List.not_mem_nil, or_false, ← BitVec.toNat_inj, CmdFields.toNat_zero_ofWord,
    CmdFields.toNat_fmt_ofWord, CmdFields.toNat_opc_ofWord, BitVec.toNat_ofNat]

/-- Settles O1, by evaluating the decoder on the fifteen words. -/
theorem specWordsDecode : Obligations.SpecWordsDecode := by
  unfold Obligations.SpecWordsDecode
  decide

end Sys2Proof

namespace Sys2Proof.Machine

/-- Settles O4: the word is decided on before anything else is looked at. -/
theorem illegalWordRaisesIllegalCommand : Obligations.IllegalWordRaisesIllegalCommand := by
  intro s w rest hhost hillegal
  rw [step_cons hhost]
  obtain ⟨i, hi, -⟩ | ⟨-, hrun⟩ := runCommand_cases w { s with host := rest }
  · exact absurd hi (hillegal i)
  · exact hrun

/-! ## `MOVE` (R79) -/

theorem State.getElem_hostReadObufBytes (s : State) {n k : Nat} (h : k < (s.hostReadObufBytes n).length) :
    (s.hostReadObufBytes n)[k] = s.hostReadObuf k := by
  simp [State.hostReadObufBytes]

theorem State.hostReadObuf_defined {s : State} {k : Nat} {b : Byte} (h : s.obuf.get? k = some b) :
    s.hostReadObuf k = b := by
  rw [State.hostReadObuf, h, Option.getD_some]

theorem hostMove_inside {n : Nat} {s : State} (ho : n ≤ s.inst.obuf.bytes) (hi : n ≤ s.inst.ibuf.bytes) :
    hostMove n s =
      .next { s with ibuf := s.ibuf.writeBytes 0 (s.hostReadObufBytes n), x := { s.x with inlen := reg n } } := by
  rw [hostMove, if_pos ho, hostLoad_inside (by rwa [s.length_hostReadObufBytes]), s.length_hostReadObufBytes]

/-- Settles O18: the new input buffer is the old one after a run of writes of what the host reads of `OBUF`. -/
theorem hostMovesOutputToInput : Obligations.HostMovesOutputToInput := by
  intro s n rest hhost ho hi
  have hlen := s.length_hostReadObufBytes n
  have hmoved : ∀ k < n,
      (s.ibuf.writeBytes 0 (s.hostReadObufBytes n)).get? k = some (s.hostReadObuf k) := fun k hk => by
    have h := s.ibuf.get?_writeBytes_inside (o := 0) (hlen.symm ▸ hk)
    rwa [Nat.zero_add, s.getElem_hostReadObufBytes] at h
  refine ⟨s.ibuf.writeBytes 0 (s.hostReadObufBytes n), ?_, hmoved, fun k hk b hb => ?_, fun k hk => ?_⟩
  · rw [step_cons hhost]
    exact hostMove_inside ho hi
  · rw [hmoved k hk, s.hostReadObuf_defined hb]
  · exact s.ibuf.get?_writeBytes_other _ (.inr (by omega))

end Sys2Proof.Machine
end

section
/-!
PROOFS. Which windows of a lossless header the resolver can take for a tag (40_header.md R103, R121, 44_frame_encode.md
R229).
-/

namespace Sys2Proof.Machine

/-! ## Little-endian integers of slices (R8) -/

theorem le_append (as bs : List Byte) : le (as ++ bs) = le as + 256 ^ as.length * le bs := by
  induction as with
  | nil => simp [le]
  | cons a as ih =>
    rw [List.cons_append, le, ih, le, List.length_cons, Nat.pow_succ]
    ring

theorem le_drop (bs : List Byte) (o : Nat) : le (bs.drop o) = le bs / 256 ^ o := by
  induction o generalizing bs with
  | zero => simp
  | succ o ih =>
    cases bs with
    | nil => simp [le]
    | cons b bs =>
      have hb := b.isLt
      rw [List.drop_succ_cons, ih, le, Nat.pow_succ', ← Nat.div_div_eq_div_mul]
      congr 1
      omega

theorem le_take (bs : List Byte) (n : Nat) : le (bs.take n) = le bs % 256 ^ n := by
  induction n generalizing bs with
  | zero => simp [le, Nat.mod_one]
  | succ n ih =>
    cases bs with
    | nil => simp [le]
    | cons b bs =>
      have hb := b.isLt
      have hdiv : (b.toNat + 256 * le bs) / 256 = le bs := by omega
      rw [List.take_succ_cons, le, ih, le, Nat.pow_succ', Nat.mod_mul, hdiv]
      omega

/-- A window across two lists is the high bytes of the first and the low bytes of the second. -/
theorem le_slice_append_eq_iff {as bs : List Byte} {j v : Nat} (hj : j ≤ as.length) :
    le (slice (as ++ bs) j as.length) = v ↔
      le as / 256 ^ j = v % 256 ^ (as.length - j) ∧ le bs % 256 ^ j = v / 256 ^ (as.length - j) := by
  have hwindow : slice (as ++ bs) j as.length = as.drop j ++ bs.take j := by
    rw [slice, List.drop_append_of_le_length hj, List.take_append, List.length_drop, Nat.sub_sub_self hj,
      List.take_of_length_le (by simp)]
  have hlt : le (as.drop j) < 256 ^ (as.length - j) := by simpa using le_lt (as.drop j)
  rw [hwindow, le_append, ← le_drop, ← le_take, List.length_drop, and_comm, eq_comm (a := le (as.drop j)),
    eq_comm (a := le (bs.take j)), Nat.div_mod_unique (by positivity)]
  exact (and_iff_left hlt).symm

theorem eq_of_le_eq {as bs : List Byte} (hlen : as.length = bs.length) (h : le as = le bs) : as = bs := by
  rw [← bytesLE_le as, ← bytesLE_le bs, h, hlen]

/-- A window is a tag when its `LE32` is the tag's. -/
theorem windowIs_iff_le {hdr : List Byte} {o : Nat} {t : Tag} (ho : o + 4 ≤ hdr.length) :
    WindowIs hdr o t ↔ le (slice hdr o 4) = tagWord t := by
  have hlen : (slice hdr o 4).length = (tagBytes t).length := by
    rw [length_slice, Nat.min_eq_left (by omega)]
    rcases t with (_ | _ | _) | _ <;> rfl
  exact ⟨congrArg le, eq_of_le_eq hlen⟩

/-- No tag has a zero byte. -/
theorem noTagAt_of_zero_byte {hdr : List Byte} {o k : Nat} (hk : k < 4) (h : hdr[o + k]? = some 0) :
    NoTagAt hdr o := by
  intro t ht
  have hzero : (tagBytes t)[k]? = some 0 := by rw [← ht, getElem?_slice _ hk, h]
  have hnone : ∀ k < 4, (tagBytes t)[k]? ≠ some 0 := by rcases t with (_ | _ | _) | _ <;> decide
  exact hnone k hk hzero

theorem tagWord_dxt1 : tagWord (.comp .dxt1) = 0x31545844 := by decide
theorem tagWord_dxt3 : tagWord (.comp .dxt3) = 0x33545844 := by decide
theorem tagWord_dxt5 : tagWord (.comp .dxt5) = 0x35545844 := by decide
theorem tagWord_dx10 : tagWord .dx10 = 0x30315844 := by decide

theorem tagWord_cases (t : Tag) :
    t = .comp .dxt1 ∧ tagWord t = 0x31545844 ∨ t = .comp .dxt3 ∧ tagWord t = 0x33545844 ∨
      t = .comp .dxt5 ∧ tagWord t = 0x35545844 ∨ t = .dx10 ∧ tagWord t = 0x30315844 := by
  rcases t with (_ | _ | _) | _ <;> decide

/-! ## The tags a lossless header can hold (R229) -/

/-- The dimension fields of a lossless header spell the tag `t` at offset `o`: height, width, width and pitch, or
pitch. -/
def DimsSpellTag (w h o : Nat) (t : Tag) : Prop :=
  o = 12 ∧ h = tagWord t ∨ o = 16 ∧ w = tagWord t ∨
    (o = 17 ∧ t = .dx10 ∧ w ∈ [0x3158440C, 0x3158444C, 0x3158448C, 0x315844CC]) ∨ o = 20 ∧ 4 * w = tagWord t

/-- The header after the dimension fields: bytes 24 to 127, which no dimension changes. -/
def losslessTail : List Byte :=
  List.replicate 52 0 ++ pixelFormat .rgba ++ bytesLE ddscapsTexture 4 ++ List.replicate 16 0

theorem lossless_getElem?_tail (w h k : Nat) : (buildHeader w h .rgba)[24 + k]? = losslessTail[k]? := by
  have hdrop : (buildHeader w h .rgba).drop 24 = losslessTail := rfl
  rw [← hdrop, List.getElem?_drop]

theorem losslessTail_zero_byte : ∀ o < 101, ∃ k < 4, losslessTail[o + k]? = some 0 := by
  decide

/-- Every window outside the dimension fields has a zero byte. -/
theorem lossless_noTagAt_outside (w h : Nat) {o : Nat} (h4 : 4 ≤ o) (h124 : o ≤ 124) (hout : o < 12 ∨ 20 < o) :
    NoTagAt (buildHeader w h .rgba) o := by
  have h7 : (buildHeader w h .rgba)[7]? = some 0 := rfl
  have h11 : (buildHeader w h .rgba)[11]? = some 0 := rfl
  have h24 : (buildHeader w h .rgba)[24]? = some 0 := rfl
  obtain ho | ho | ho | ho : o ≤ 7 ∨ 8 ≤ o ∧ o ≤ 11 ∨ 21 ≤ o ∧ o ≤ 23 ∨ 24 ≤ o := by omega
  · exact noTagAt_of_zero_byte (k := 7 - o) (by omega) (by rwa [Nat.add_sub_cancel' ho])
  · exact noTagAt_of_zero_byte (k := 11 - o) (by omega) (by rwa [Nat.add_sub_cancel' ho.2])
  · exact noTagAt_of_zero_byte (k := 24 - o) (by omega) (by rwa [Nat.add_sub_cancel' (by omega)])
  · obtain ⟨k, hk, hzero⟩ := losslessTail_zero_byte (o - 24) (by omega)
    refine noTagAt_of_zero_byte hk ?_
    rw [← hzero, ← lossless_getElem?_tail w h]
    congr 1
    omega

/-- Probes 0 and 1 find nothing, whichever value `ALT_FOURCC_OFF` has. -/
theorem lossless_noTagAt_probes (w h : Nat) (alt : AltOffset) :
    NoTagAt (buildHeader w h .rgba) 84 ∧ NoTagAt (buildHeader w h .rgba) alt.off := by
  have halt : 80 ≤ alt.off ∧ alt.off ≤ 88 := by cases alt <;> decide
  exact ⟨lossless_noTagAt_outside w h (by decide) (by decide) (by decide),
    lossless_noTagAt_outside w h (by omega) (by omega) (by omega)⟩

/-- When a window across the height and width fields is a tag. -/
theorem lossless_windowIs_height_width {w h j : Nat} {t : Tag} (hw : w < 2 ^ 32) (hh : h < 2 ^ 32) (hj : j ≤ 4) :
    WindowIs (buildHeader w h .rgba) (12 + j) t ↔
      h / 256 ^ j = tagWord t % 256 ^ (4 - j) ∧ w % 256 ^ j = tagWord t / 256 ^ (4 - j) := by
  have hfields : slice (buildHeader w h .rgba) 12 8 = bytesLE h 4 ++ bytesLE w 4 := rfl
  have hwindow := le_slice_append_eq_iff (as := bytesLE h 4) (bs := bytesLE w 4) (v := tagWord t) (by simpa using hj)
  rw [length_bytesLE, le_bytesLE_four hh, le_bytesLE_four hw, ← hfields, slice_slice _ (by omega)] at hwindow
  rw [windowIs_iff_le (by simp; omega), hwindow]

/-- When a window across the width and pitch fields is a tag. -/
theorem lossless_windowIs_width_pitch {w h j : Nat} {t : Tag} (hw : 4 * w < 2 ^ 32) (hj : j ≤ 4) :
    WindowIs (buildHeader w h .rgba) (16 + j) t ↔
      w / 256 ^ j = tagWord t % 256 ^ (4 - j) ∧ 4 * w % 256 ^ j = tagWord t / 256 ^ (4 - j) := by
  have hfields : slice (buildHeader w h .rgba) 16 8 = bytesLE w 4 ++ bytesLE (4 * w) 4 := rfl
  have hwindow := le_slice_append_eq_iff (as := bytesLE w 4) (bs := bytesLE (4 * w) 4) (v := tagWord t)
    (by simpa using hj)
  rw [length_bytesLE, le_bytesLE_four (by omega), le_bytesLE_four hw, ← hfields, slice_slice _ (by omega)] at hwindow
  rw [windowIs_iff_le (by simp; omega), hwindow]

/-- The window of width bytes 1 to 3 and pitch byte 0 can be no tag but "DX10". -/
theorem width_pitch_spell_iff {w : Nat} {t : Tag} (hw30 : w < 2 ^ 30) :
    w / 256 = tagWord t % 256 ^ 3 ∧ 4 * w % 256 = tagWord t / 256 ^ 3 ↔
      t = .dx10 ∧ w ∈ [0x3158440C, 0x3158444C, 0x3158448C, 0x315844CC] := by
  simp only [List.mem_cons, List.not_mem_nil, or_false]
  obtain ⟨rfl, htag⟩ | ⟨rfl, htag⟩ | ⟨rfl, htag⟩ | ⟨rfl, htag⟩ := tagWord_cases t <;>
    simp only [htag, reduceCtorEq, true_and, false_and, iff_false] <;> omega

section Dims

variable {w h : Nat} (hw : 1 ≤ w) (hh : 1 ≤ h) (hsize : 4 * w * h < 2 ^ 32)

include hw hh hsize

theorem dims_bound : w < 2 ^ 30 ∧ h < 2 ^ 30 ∧ (w = 1 ∨ 2 * h < 2 ^ 30) ∧ (h = 1 ∨ 2 * w < 2 ^ 30) := by
  rw [Nat.mul_assoc] at hsize
  have h1 := Nat.mul_le_mul_left w hh
  have h2 := Nat.mul_le_mul_right h hw
  have h3 : w = 1 ∨ 2 * h ≤ w * h := (Nat.eq_or_lt_of_le hw).imp Eq.symm fun hlt => Nat.mul_le_mul_right h hlt
  have h4 : h = 1 ∨ w * 2 ≤ w * h := (Nat.eq_or_lt_of_le hh).imp Eq.symm fun hlt => Nat.mul_le_mul_left w hlt
  omega

/-- The windows that can be a tag (the table of R229): at offsets 13 to 15, 18 and 19 a tag byte would be the top byte
of the height or the width, too large for the image, but for "DX10" at 13, which asks too much of both. -/
theorem lossless_windowIs_iff {o : Nat} {t : Tag} (h4 : 4 ≤ o) (h124 : o ≤ 124) :
    WindowIs (buildHeader w h .rgba) o t ↔ DimsSpellTag w h o t := by
  obtain ⟨hw30, hh30, hw1, hh1⟩ := dims_bound hw hh hsize
  by_cases hout : o < 12 ∨ 20 < o
  · refine iff_of_false (lossless_noTagAt_outside w h h4 h124 hout t) fun hspell => ?_
    unfold DimsSpellTag at hspell
    omega
  have htag := tagWord_cases t
  clear hsize
  unfold DimsSpellTag
  obtain ho | ho : o < 16 ∨ 16 ≤ o := by omega
  · obtain ⟨j, rfl⟩ := Nat.exists_eq_add_of_le (show 12 ≤ o by omega)
    rw [lossless_windowIs_height_width (by omega) (by omega) (by omega)]
    have hj : j < 4 := by omega
    interval_cases j
    all_goals
      simp only [Nat.reduceSub, Nat.reducePow, Nat.reduceAdd, Nat.reduceEqDiff, false_and, true_and, or_false,
        iff_false]
      omega
  · obtain ⟨j, rfl⟩ := Nat.exists_eq_add_of_le ho
    rw [lossless_windowIs_width_pitch (by omega) (by omega)]
    have hj : j ≤ 4 := by omega
    interval_cases j
    on_goal 2 => simpa using width_pitch_spell_iff hw30
    all_goals
      simp only [Nat.reduceSub, Nat.reducePow, Nat.reduceAdd, Nat.reduceEqDiff, false_and, true_and, false_or, or_false,
        iff_false]
      omega

/-- At most one window of a lossless header is a tag. -/
theorem DimsSpellTag.unique {o o' : Nat} {t t' : Tag} (ht : DimsSpellTag w h o t) (ht' : DimsSpellTag w h o' t') :
    o = o' := by
  obtain ⟨hw30, hh30, hw1, hh1⟩ := dims_bound hw hh hsize
  have hv := tagWord_cases t
  have hv' := tagWord_cases t'
  clear hsize
  simp only [DimsSpellTag, List.mem_cons, List.not_mem_nil, or_false] at ht ht'
  omega

/-- Dimensions that spell a tag are in the table. -/
theorem roundTripException_of_dimsSpellTag {o : Nat} {t : Tag} (ht : DimsSpellTag w h o t) :
    RoundTripException w h := by
  obtain ⟨hw30, hh30, hw1, hh1⟩ := dims_bound hw hh hsize
  have hv := tagWord_cases t
  simp only [DimsSpellTag, RoundTripException, List.mem_cons, List.not_mem_nil, or_false] at ht ⊢
  obtain ⟨-, ht⟩ | ⟨-, ht⟩ | ⟨-, -, ht⟩ | ⟨-, ht⟩ := ht
  · exact .inl ⟨by omega, by omega⟩
  · exact .inr (.inl ⟨by omega, by omega⟩)
  · exact .inr (.inr (.inl ⟨by omega, ht⟩))
  · refine .inr (.inr (.inr ?_))
    obtain ⟨-, hv⟩ | ⟨-, hv⟩ | ⟨-, hv⟩ | ⟨-, hv⟩ := hv
    · obtain rfl : w = 0x0C551611 := by omega
      exact .inl ⟨rfl, by omega⟩
    · obtain rfl : w = 0x0CD51611 := by omega
      exact .inr (.inl ⟨rfl, by omega⟩)
    · obtain rfl : w = 0x0D551611 := by omega
      exact .inr (.inr (.inl ⟨rfl, by omega⟩))
    · obtain rfl : w = 0x0C0C5611 := by omega
      exact .inr (.inr (.inr ⟨rfl, by omega⟩))

/-- The dimensions that spell a tag resolve to it, at stage 2. -/
theorem lossless_resolves_spelled (alt : AltOffset) {o : Nat} {t : Tag} (ht : DimsSpellTag w h o t) :
    Resolves alt.off (buildHeader w h .rgba) (some t) 2 o := by
  obtain ⟨hcanonical, halternate⟩ := lossless_noTagAt_probes w h alt
  have ho : 12 ≤ o ∧ o ≤ 20 := by unfold DimsSpellTag at ht; omega
  refine .inr (.inr ⟨hcanonical, fun _ => halternate, .inl ⟨rfl, by omega, by omega, ?_, fun o' h4 hlt t' hwin => ?_⟩⟩)
  · exact ⟨t, rfl, (lossless_windowIs_iff hw hh hsize (by omega) (by omega)).2 ht⟩
  · have ht' := (lossless_windowIs_iff hw hh hsize h4 (by omega)).1 hwin
    exact hlt.ne (ht'.unique hw hh hsize ht)

/-- Outside the table of R229 the resolver finds nothing. -/
theorem lossless_resolves_none (alt : AltOffset) (hnone : ¬ RoundTripException w h) :
    Resolves alt.off (buildHeader w h .rgba) none 3 0 := by
  obtain ⟨hcanonical, halternate⟩ := lossless_noTagAt_probes w h alt
  refine .inr (.inr ⟨hcanonical, fun _ => halternate, .inr ⟨rfl, rfl, rfl, fun o h4 h124 t hwin => hnone ?_⟩⟩)
  exact roundTripException_of_dimsSpellTag hw hh hsize ((lossless_windowIs_iff hw hh hsize h4 h124).1 hwin)

end Dims

end Sys2Proof.Machine
end

section
/-!
PROOFS. A frame encoded, moved to the input and decoded again (30_encoding.md R79, 44_frame_encode.md R229,
45_frame_decode.md R251, R272).
-/

namespace Sys2Proof.Machine

/-! ## A command's output as the next input (R79) -/

/-- The input is these bytes, all of them written by the host (R343), and fits `IBUF`. -/
structure InputIs (u : State) (bs : List Byte) : Prop where
  /-- `x[2]`. -/
  length : u.inlen = bs.length
  /-- `x[2] <= IBUF_BYTES`. -/
  fits : bs.length ≤ u.inst.ibuf.bytes
  /-- `IBUF[0 .. x[2])`. -/
  byte : ∀ k (hk : k < bs.length), u.inByte k = bs[k]
  /-- The host has written them. -/
  written : ∀ k < bs.length, u.written k

theorem InputIs.inBytes {u : State} {bs : List Byte} (hu : InputIs u bs) {o n : Nat} (hn : o + n ≤ bs.length) :
    u.inBytes o n = slice bs o n := by
  apply List.ext_getElem
  · rw [u.length_inBytes, length_slice]
    omega
  · intro k hk _
    rw [u.length_inBytes] at hk
    rw [u.getElem_inBytes, hu.byte _ (by omega)]
    simp [slice]

/-- After a command that succeeds and a `MOVE` of its whole output, that output is the input. -/
theorem command_then_move {i : Instr} {s : State} {r : Result} (hr : command i s = .ok r)
    (hw : ∀ k ∈ commandReads i s, s.written k) (hfits : r.out.length ≤ s.inst.ibuf.bytes) :
    ∃ t u, exec i s = .next t ∧ hostStep (.move r.out.length) t = .next u ∧ u.inst = s.inst ∧ InputIs u r.out := by
  obtain ⟨t, ht, hcompletes⟩ := exec_completes hr hw
  have hinst : t.inst = s.inst := hcompletes.rest.1
  obtain ⟨u, hu, hlen, huinst, -, hbytes⟩ := hostMove_output (s := t) hcompletes.written
    (by rw [hinst]; exact command_length hr) (by rwa [hinst])
  have hu_s : u.inst = s.inst := huinst.trans hinst
  exact ⟨t, u, ht, hu, hu_s, hlen, by rwa [hu_s], fun k hk => (hbytes k hk).1, fun k hk => (hbytes k hk).2⟩

/-- ENC_FRAME on an image that passes its checks, and a `MOVE` of its output: the frame is the input. -/
theorem encFrame_then_move {i : Instr} {f : Fmt} {s : State} (hcommand : command i s = encFrame f s)
    (hreads : commandReads i s = encFrameReads f s) (hw : 1 ≤ s.width) (hh : 1 ≤ s.height)
    (hlen : s.inlen = 4 * s.width * s.height) (hfits : s.inlen ≤ s.inst.ibuf.bytes)
    (hlinear : linearSizeFits s.width s.height f = true)
    (hin : 128 + payloadLength s.width s.height f ≤ s.inst.ibuf.bytes)
    (hout : 128 + payloadLength s.width s.height f ≤ s.inst.obuf.bytes)
    (hws : ∀ k < s.inlen, (f = .dxt1 → k % 4 ≠ 3) → s.written k) :
    ∃ t u, exec i s = .next t ∧ hostStep (.move (128 + payloadLength s.width s.height f)) t = .next u ∧
      u.inst = s.inst ∧ InputIs u (buildHeader s.width s.height f ++ framePayload f s) := by
  have hr := encFrame_ok hfits (by omega) (by omega) (hlen ▸ s.inlen_lt) hlen hlinear hout
  have hsize : (buildHeader s.width s.height f ++ framePayload f s).length =
      128 + payloadLength s.width s.height f := by simp
  rw [← hsize]
  refine command_then_move (hcommand.trans hr) (fun k hk => ?_) (by rwa [hsize])
  obtain ⟨hlt, hk3⟩ := mem_encFrameReads (hreads ▸ hk)
  exact hws k hlt hk3

theorem State.ofNat_width (s : State) : BitVec.ofNat 32 s.width = s.x.width := by simp [State.width]

theorem State.ofNat_height (s : State) : BitVec.ofNat 32 s.height = s.x.height := by simp [State.height]

/-! ## A frame as the input of a decode (R220) -/

section Frame

variable {u : State} {w h : Nat} {f : Fmt} {payload : List Byte} (hu : InputIs u (buildHeader w h f ++ payload))

include hu

theorem frame_inlen : u.inlen = 128 + payload.length := by
  rw [hu.length, List.length_append, length_buildHeader]

theorem frame_written : ∀ k < u.inlen, u.written k := hu.length ▸ hu.written

theorem frame_inBytes {o n : Nat} (hn : o + n ≤ 128) : u.inBytes o n = slice (buildHeader w h f) o n := by
  have hlen : o + n ≤ (buildHeader w h f).length := by rwa [length_buildHeader]
  rw [hu.inBytes (by rw [List.length_append]; omega), slice_append_left hlen]

theorem frame_header : u.inBytes 0 128 = buildHeader w h f := by
  rw [frame_inBytes hu (by decide), slice_all (length_buildHeader w h f).symm]

theorem frame_payload : u.inBytes 128 payload.length = payload := by
  rw [hu.inBytes (by simp), slice_append_right (by simp), length_buildHeader, Nat.sub_self, slice_all rfl]

theorem frame_accepted : HeaderAccepted u where
  fits := hu.length ▸ hu.fits
  long := by rw [frame_inlen hu]; omega
  written := fun k hk => hu.written k (by rw [List.length_append, length_buildHeader]; omega)
  magic := (frame_inBytes hu (by decide)).trans (buildHeader_fields w h f).1

theorem frame_height (hh : h < 2 ^ 32) : u.memRead 12 4 = h := by
  obtain ⟨-, -, -, hheight, -⟩ := buildHeader_fields w h f
  rw [State.memRead, frame_inBytes hu (by decide), hheight, le_bytesLE_four hh]

theorem frame_width (hw : w < 2 ^ 32) : u.memRead 16 4 = w := by
  obtain ⟨-, -, -, -, hwidth, -⟩ := buildHeader_fields w h f
  rw [State.memRead, frame_inBytes hu (by decide), hwidth, le_bytesLE_four hw]

/-- A field of the pixel-format block. -/
theorem frame_pixelFormat {o : Nat} (ho : o + 4 ≤ 32) : u.memRead (76 + o) 4 = le (slice (pixelFormat f) o 4) := by
  rw [State.memRead, frame_inBytes hu (by omega), slice_pixelFormat w h f ho]

end Frame

/-! ## The end of a decode with a compressed tag -/

/-- How DEC_FRAME ends once `DECOMP` has answered (R263, R264): with the answer, if it has the image's length. -/
def EndsAsDecompAnswers (u : State) (x : Regs) (size : Nat) : Option (List Byte) → Prop
  | none => exec .decFrame u = .next { u with status := 0x81#32 }
  | some px =>
    if px.length = size then ∃ v, exec .decFrame u = .next v ∧ Completes u v x px
    else exec .decFrame u = .next { u with status := 0x82#32 }

theorem decodeCompressed_decodeError {ob : Nat} {c : CompTag} {p : List Byte} {w h : Nat}
    (hlen : p.length = nblocks w h * compBlockBytes c) (hcap : 4 * w * h ≤ ob) (hd : Config.decomp c p w h = none) :
    decodeCompressed ob c p w h = .error .format := by
  simp only [decodeCompressed, compressedCheck_none.2 ⟨hlen, hcap⟩, hd]

theorem decodeCompressed_answer {ob : Nat} {c : CompTag} {p px : List Byte} {w h : Nat}
    (hlen : p.length = nblocks w h * compBlockBytes c) (hcap : 4 * w * h ≤ ob)
    (hd : Config.decomp c p w h = some px) :
    decodeCompressed ob c p w h = if px.length ≠ 4 * w * h then .error .size else .ok px := by
  simp only [decodeCompressed, compressedCheck_none.2 ⟨hlen, hcap⟩, hd]

/-- A payload of its exact length is handed to `DECOMP` (R251 lines 10 to 16). -/
theorem decFrame_endsAsDecompAnswers {u : State} {c : CompTag} {stage off : Nat} (hacc : HeaderAccepted u)
    (hres : Resolves u.inst.alt.off (u.inBytes 0 128) (some (.comp c)) stage off) (hw : u.memRead 16 4 ≠ 0)
    (hh : u.memRead 12 4 ≠ 0)
    (hlen : u.inlen - 128 = nblocks (u.memRead 16 4) (u.memRead 12 4) * compBlockBytes c)
    (hcap : 4 * u.memRead 16 4 * u.memRead 12 4 ≤ u.inst.obuf.bytes) (hws : ∀ k < u.inlen, u.written k) :
    EndsAsDecompAnswers u (DecodedRegs u (some (.comp c)) stage off) (4 * u.memRead 16 4 * u.memRead 12 4)
      (Config.decomp c (u.inBytes 128 (u.inlen - 128)) (u.memRead 16 4) (u.memRead 12 4)) := by
  have hlong := hacc.long
  have hpayload := (u.length_inBytes 128 (u.inlen - 128)).trans hlen
  have hpixels := fun p => decodePixels_compressed (p := p) hacc hres
  have hwritten : ∀ k, (k < 128 ∨ payloadCheck u u.header = none ∧ k < u.inlen) → u.written k :=
    fun k hk => hws k (by omega)
  cases hd : Config.decomp c (u.inBytes 128 (u.inlen - 128)) (u.memRead 16 4) (u.memRead 12 4) with
  | none =>
    exact decFrame_raises hacc hw hh ((hpixels _).trans (decodeCompressed_decodeError hpayload hcap hd)) hwritten
  | some px =>
    have hanswer := (hpixels _).trans (decodeCompressed_answer hpayload hcap hd)
    simp only [EndsAsDecompAnswers]
    split_ifs with hsize
    · rw [if_neg (not_not.2 hsize)] at hanswer
      exact decFrame_completes hacc hres hw hh hanswer hws
    · rw [if_pos hsize] at hanswer
      exact decFrame_raises hacc hw hh hanswer hwritten

theorem compressedCheck_length {ob : Nat} {c : CompTag} {n w h : Nat} (hn : n ≠ nblocks w h * compBlockBytes c) :
    compressedCheck ob c n w h = some .size := if_pos hn

/-! ## The compressed round trip (R272 (b)) -/

section Compressed

variable {s : State} {i : Instr} {f : Fmt} {c : CompTag} {size : Nat}

/-- A compressed encode format: its command, its tag, and the bytes of a block. -/
inductive CompressedFormat : Instr → Fmt → CompTag → Nat → Prop where
  | dxt1 : CompressedFormat .encFrameDxt1 .dxt1 .dxt1 8
  | dxt5 : CompressedFormat .encFrameDxt5 .dxt5 .dxt5 16

theorem CompressedFormat.command (hf : CompressedFormat i f c size) : command i s = encFrame f s := by
  cases hf <;> rfl

theorem CompressedFormat.reads (hf : CompressedFormat i f c size) : commandReads i s = encFrameReads f s := by
  cases hf <;> rfl

theorem CompressedFormat.written {k : Nat} (hf : CompressedFormat i f c size) (hk : f = .dxt1 → k % 4 ≠ 3) :
    c = .dxt5 ∨ k % 4 ≠ 3 := by
  cases hf
  · exact .inr (hk rfl)
  · exact .inl rfl

theorem CompressedFormat.payloadLength (hf : CompressedFormat i f c size) (w h : Nat) :
    payloadLength w h f = nblocks w h * size := by
  cases hf <;> exact Nat.mul_comm _ _

theorem CompressedFormat.linearSizeFits {w h : Nat} (hf : CompressedFormat i f c size)
    (hsize : nblocks w h * size < 2 ^ 32) : linearSizeFits w h f = true := by
  cases hf <;> exact decide_eq_true hsize

theorem CompressedFormat.compBlockBytes (hf : CompressedFormat i f c size) : compBlockBytes c = size := by
  cases hf <;> rfl

/-- The pixel format of the header: the tag, and no bit count. -/
theorem CompressedFormat.pixelFormat (hf : CompressedFormat i f c size) :
    slice (pixelFormat f) 8 4 = tagBytes (.comp c) ∧ le (slice (pixelFormat f) 12 4) = 0 := by
  cases hf <;> decide

/-- A built compressed header resolves at the canonical offset (R126). -/
theorem CompressedFormat.resolves (hf : CompressedFormat i f c size) (alt w h : Nat) :
    Resolves alt (buildHeader w h f) (some (.comp c)) 0 84 :=
  .inl ⟨rfl, rfl, .comp c, rfl, (slice_pixelFormat w h f (o := 8) (by decide)).trans hf.pixelFormat.1⟩

end Compressed

/-- Settles O60: the tag stands at the canonical offset, and the payload has the length the header implies. -/
theorem compressedRoundTripReachesDecomp : Obligations.CompressedRoundTripReachesDecomp := by
  intro s i c size hformat hw hh hlen hfits need hneed hin hout himage hws
  obtain ⟨f, hf⟩ : ∃ f, CompressedFormat i f c size := by
    obtain ⟨rfl, rfl, rfl⟩ | ⟨rfl, rfl, rfl⟩ := hformat
    · exact ⟨_, .dxt1⟩
    · exact ⟨_, .dxt5⟩
  have hpayload : payloadLength s.width s.height f = need := hf.payloadLength _ _
  obtain ⟨t, u, ht, hmove, hinst, hu⟩ := encFrame_then_move hf.command hf.reads hw hh hlen hfits
    (hf.linearSizeFits hneed) (by rwa [hpayload]) (by rwa [hpayload]) fun k hk hk3 => hws k hk (hf.written hk3)
  rw [hpayload] at hmove
  refine ⟨t, u, ht, hmove, ?_⟩
  have hacc := frame_accepted hu
  have hwidth := frame_width hu s.width_lt
  have hheight := frame_height hu s.height_lt
  have hplen : u.inlen - 128 = need := by
    rw [frame_inlen hu, length_framePayload, hpayload, Nat.add_sub_cancel_left]
  have hres : Resolves u.inst.alt.off (u.inBytes 0 128) (some (.comp c)) 0 84 := by
    rw [frame_header hu]
    exact hf.resolves _ _ _
  have hend := decFrame_endsAsDecompAnswers hacc hres (by omega) (by omega)
    (by rw [hplen, hwidth, hheight, hf.compBlockBytes]; rfl) (by rw [hwidth, hheight, hinst]; omega) (frame_written hu)
  have hbits : u.memRead 88 4 = 0 := (frame_pixelFormat hu (o := 12) (by decide)).trans hf.pixelFormat.2
  rw [hplen, hwidth, hheight, ← hlen, DecodedRegs, hwidth, hheight, hbits, s.ofNat_width, s.ofNat_height] at hend
  exact hend

/-! ## The lossless round trip (R229) -/

/-- ENC_FRAME.RGBA and a `MOVE` of its output: header and image are the input. -/
theorem lossless_then_move {s : State} (hw : 1 ≤ s.width) (hh : 1 ≤ s.height) (hlen : s.inlen = 4 * s.width * s.height)
    (hin : 128 + s.inlen ≤ s.inst.ibuf.bytes) (hout : 128 + s.inlen ≤ s.inst.obuf.bytes)
    (hws : ∀ k < s.inlen, s.written k) :
    ∃ t u, exec .encFrameRgba s = .next t ∧ hostStep (.move (128 + s.inlen)) t = .next u ∧ u.inst = s.inst ∧
      InputIs u (buildHeader s.width s.height .rgba ++ s.inBytes 0 s.inlen) := by
  have hpayload : payloadLength s.width s.height .rgba = s.inlen := hlen.symm
  have himage : framePayload .rgba s = s.inBytes 0 s.inlen := by rw [framePayload, hlen]
  have hmove := encFrame_then_move (i := .encFrameRgba) (f := .rgba) rfl rfl hw hh hlen (by omega) rfl
    (by rwa [hpayload]) (by rwa [hpayload]) fun k hk _ => hws k hk
  rwa [hpayload, himage] at hmove

/-- A 32-bit payload in R, G, B, A order is the image (R267). -/
theorem decodeUncompressed_rgba {ob rmask : Nat} {p : List Byte} {w h : Nat} (hmask : rmask ≠ bgraRedMask)
    (hlen : p.length = 4 * w * h) (hcap : 4 * w * h ≤ ob) : decodeUncompressed ob 32 rmask p w h = .ok p := by
  have hcheck : uncompressedCheck ob 32 p.length w h = none :=
    uncompressedCheck_none.2 ⟨.inr rfl, by rw [hlen]; ring, hcap⟩
  simp only [decodeUncompressed, hcheck, unpack32, if_neg hmask]
  rfl

section Lossless

variable {u : State} {w h : Nat} {image : List Byte} (hu : InputIs u (buildHeader w h .rgba ++ image))
  (hw : 1 ≤ w) (hh : 1 ≤ h) (hsize : 4 * w * h < 2 ^ 32) (himage : image.length = 4 * w * h)

include hu hw hh hsize

theorem lossless_width : u.memRead 16 4 = w := frame_width hu (by have := dims_bound hw hh hsize; omega)

theorem lossless_height : u.memRead 12 4 = h := frame_height hu (by have := dims_bound hw hh hsize; omega)

theorem lossless_resolved {o : Nat} {t : Tag} (ht : DimsSpellTag w h o t) :
    Resolves u.inst.alt.off (u.inBytes 0 128) (some t) 2 o := by
  rw [frame_header hu]
  exact lossless_resolves_spelled hw hh hsize _ ht

/-- A spelled "DX10" is refused (R254). -/
theorem lossless_raises_dx10 {o : Nat} (ht : DimsSpellTag w h o .dx10) :
    exec .decFrame u = .next { u with status := 0x81#32 } := by
  have hwidth := lossless_width hu hw hh hsize
  have hheight := lossless_height hu hw hh hsize
  have hacc := frame_accepted hu
  refine decFrame_raises_payloadCheck (e := .format) hacc (by omega) (by omega) ?_ fun k hk =>
    frame_written hu k (hk.trans_le hacc.long)
  exact payloadCheck_eq hacc (lossless_resolved hu hw hh hsize ht)

include himage

/-- Outside the table of R229 the image comes back. -/
theorem lossless_decodes (hnone : ¬ RoundTripException w h) (hcap : 4 * w * h ≤ u.inst.obuf.bytes) :
    ∃ v, exec .decFrame u = .next v ∧ Completes u v (DecodedRegs u none 3 0) image := by
  have hacc := frame_accepted hu
  have hwidth := lossless_width hu hw hh hsize
  have hheight := lossless_height hu hw hh hsize
  have hres : Resolves u.inst.alt.off (u.inBytes 0 128) none 3 0 := by
    rw [frame_header hu]
    exact lossless_resolves_none hw hh hsize _ hnone
  have hbits : u.memRead 88 4 = 32 := frame_pixelFormat hu (o := 12) (by decide)
  have hmask : u.memRead 92 4 = 0x000000FF := frame_pixelFormat hu (o := 16) (by decide)
  refine decFrame_completes hacc hres (by omega) (by omega) ?_ (frame_written hu)
  rw [decodePixels_untagged hacc hres, hbits, hmask, hwidth, hheight, frame_inlen hu, Nat.add_sub_cancel_left,
    frame_payload hu]
  exact decodeUncompressed_rgba (by decide) himage hcap

/-- A spelled tag whose blocks are not as long as the image (R261). -/
theorem lossless_raises_size {o : Nat} {c : CompTag} (ht : DimsSpellTag w h o (.comp c))
    (hne : 4 * w * h ≠ nblocks w h * compBlockBytes c) : exec .decFrame u = .next { u with status := 0x82#32 } := by
  have hwidth := lossless_width hu hw hh hsize
  have hheight := lossless_height hu hw hh hsize
  have hacc := frame_accepted hu
  refine decFrame_raises_payloadCheck (e := .size) hacc (by omega) (by omega) ?_ fun k hk =>
    frame_written hu k (hk.trans_le hacc.long)
  rw [payloadCheck_eq hacc (lossless_resolved hu hw hh hsize ht)]
  apply compressedCheck_length
  rwa [hwidth, hheight, frame_inlen hu, Nat.add_sub_cancel_left, himage]

/-- A spelled tag whose blocks are as long as the image: `DECOMP` is asked about the image bytes. -/
theorem lossless_endsAsDecompAnswers {o : Nat} {c : CompTag} (ht : DimsSpellTag w h o (.comp c))
    (heq : 4 * w * h = nblocks w h * compBlockBytes c) (hcap : 4 * w * h ≤ u.inst.obuf.bytes) :
    EndsAsDecompAnswers u (DecodedRegs u (some (.comp c)) 2 o) (4 * w * h) (Config.decomp c image w h) := by
  have hwidth := lossless_width hu hw hh hsize
  have hheight := lossless_height hu hw hh hsize
  have hplen : u.inlen - 128 = image.length := by rw [frame_inlen hu, Nat.add_sub_cancel_left]
  have hend := decFrame_endsAsDecompAnswers (frame_accepted hu) (lossless_resolved hu hw hh hsize ht) (by omega)
    (by omega) (by rw [hplen, hwidth, hheight, himage, heq]) (by rwa [hwidth, hheight]) (frame_written hu)
  rwa [hplen, hwidth, hheight, frame_payload hu] at hend

end Lossless

/-! ## The table of R229 -/

/-- The rows of "DX10". -/
theorem dimsSpellTag_dx10 {w h : Nat}
    (hdims : w = 0x30315844 ∨ h = 0x30315844 ∨ w ∈ [0x3158440C, 0x3158444C, 0x3158448C, 0x315844CC, 0x0C0C5611]) :
    ∃ o, DimsSpellTag w h o .dx10 := by
  obtain hw | hh | hw := hdims
  · exact ⟨16, .inr (.inl ⟨rfl, hw.trans tagWord_dx10.symm⟩)⟩
  · exact ⟨12, .inl ⟨rfl, hh.trans tagWord_dx10.symm⟩⟩
  · by_cases hpitch : w = 0x0C0C5611
    · exact ⟨20, .inr (.inr (.inr ⟨rfl, by rw [hpitch, tagWord_dx10]⟩))⟩
    · exact ⟨17, .inr (.inr (.inl ⟨rfl, rfl, by simpa [hpitch] using hw⟩))⟩

section Dims

variable {w h : Nat} (hw : 1 ≤ w) (hh : 1 ≤ h) (hsize : 4 * w * h < 2 ^ 32)

include hw hh hsize

/-- The rows whose blocks are not as long as the image. -/
theorem dimsSpellTag_other_length
    (hdims : w = 0x31545844 ∨ h = 0x31545844 ∨ w ∈ [0x0C551611, 0x0CD51611, 0x0D551611]) :
    ∃ o c, DimsSpellTag w h o (.comp c) ∧ 4 * w * h ≠ nblocks w h * compBlockBytes c := by
  obtain ⟨-, -, hw1, hh1⟩ := dims_bound hw hh hsize
  simp only [List.mem_cons, List.not_mem_nil, or_false] at hdims
  obtain rfl | rfl | rfl | rfl | rfl := hdims
  · obtain rfl : h = 1 := by omega
    exact ⟨16, .dxt1, .inr (.inl ⟨rfl, tagWord_dxt1.symm⟩), by decide⟩
  · obtain rfl : w = 1 := by omega
    exact ⟨12, .dxt1, .inl ⟨rfl, tagWord_dxt1.symm⟩, by decide⟩
  · refine ⟨20, .dxt1, .inr (.inr (.inr ⟨rfl, tagWord_dxt1.symm⟩)), ?_⟩
    have : h ≤ 5 := by omega
    interval_cases h <;> decide
  · refine ⟨20, .dxt3, .inr (.inr (.inr ⟨rfl, tagWord_dxt3.symm⟩)), ?_⟩
    have : h ≤ 5 := by omega
    interval_cases h <;> decide
  · refine ⟨20, .dxt5, .inr (.inr (.inr ⟨rfl, tagWord_dxt5.symm⟩)), ?_⟩
    have : h ≤ 5 := by omega
    interval_cases h <;> decide

/-- "DXT3" or "DXT5" as width or height: the other dimension is 1, and 16 bytes for 4 pixels are the image's length. -/
theorem dimsSpellTag_same_length {c : CompTag} {tag : Nat}
    (hc : (c, tag) ∈ [(CompTag.dxt3, 0x33545844), (CompTag.dxt5, 0x35545844)]) (hdims : w = tag ∨ h = tag) :
    DimsSpellTag w h (if h = tag then 12 else 16) (.comp c) ∧ 4 * w * h = nblocks w h * compBlockBytes c := by
  obtain ⟨-, -, hw1, hh1⟩ := dims_bound hw hh hsize
  have htag : tag = tagWord (.comp c) ∧ compBlockBytes c = 16 ∧ tag % 4 = 0 ∧ 2 ^ 29 ≤ tag := by
    simp only [List.mem_cons, List.not_mem_nil, or_false, Prod.mk.injEq] at hc
    obtain ⟨rfl, rfl⟩ | ⟨rfl, rfl⟩ := hc <;> decide
  obtain ⟨hword, hbytes, hmod, hlarge⟩ := htag
  rw [hbytes, nblocks, ceil4, ceil4]
  by_cases hheight : h = tag
  · obtain rfl : w = 1 := by omega
    rw [if_pos hheight]
    exact ⟨.inl ⟨rfl, hheight.trans hword⟩, by omega⟩
  · obtain rfl : h = 1 := by omega
    rw [if_neg hheight]
    exact ⟨.inr (.inl ⟨rfl, (hdims.resolve_right hheight).trans hword⟩), by omega⟩

end Dims

/-- Settles O58: the resolver finds nothing, so the decode copies the payload, which is the image. -/
theorem losslessRoundTrip : Obligations.LosslessRoundTrip := by
  intro s hw hh hlen hin hout hws hnone
  have hsize : 4 * s.width * s.height < 2 ^ 32 := hlen ▸ s.inlen_lt
  have himage : (s.inBytes 0 s.inlen).length = 4 * s.width * s.height := by rw [s.length_inBytes, hlen]
  obtain ⟨t, u, ht, hmove, hinst, hu⟩ := lossless_then_move hw hh hlen hin hout hws
  obtain ⟨v, hv, hdone⟩ := lossless_decodes hu hw hh hsize himage hnone (by rw [hinst]; omega)
  have hregs : v.x = { DecodedRegs u none 3 0 with outlen := BitVec.ofNat 32 s.inlen } := by
    rw [hdone.regs, s.length_inBytes]
  refine ⟨t, u, v, ht, hmove, hv, hdone.status, ?_, ?_, ?_, fun k hk => hdone.written k _ ?_⟩
  · rw [hregs, DecodedRegs, lossless_width hu hw hh hsize, s.ofNat_width]
  · rw [hregs, DecodedRegs, lossless_height hu hw hh hsize, s.ofNat_height]
  · rw [hregs]
    exact Nat.mod_eq_of_lt s.inlen_lt
  · rw [List.getElem?_eq_getElem (by rwa [s.length_inBytes]), s.getElem_inBytes, Nat.zero_add]

/-- Settles O59: each clause names the tag its dimensions spell; the size checks alone bound the other dimension, so the
table's own bounds are not needed. -/
theorem losslessRoundTripExceptionsAreNotRepaired : Obligations.LosslessRoundTripExceptionsAreNotRepaired := by
  intro s hw hh hlen hin hout hws _
  have hsize : 4 * s.width * s.height < 2 ^ 32 := hlen ▸ s.inlen_lt
  have himage : (s.inBytes 0 s.inlen).length = 4 * s.width * s.height := by rw [s.length_inBytes, hlen]
  obtain ⟨t, u, ht, hmove, hinst, hu⟩ := lossless_then_move hw hh hlen hin hout hws
  refine ⟨t, u, ht, hmove, fun hdims => ?_, fun hdims => ?_, fun c tag hc hdims => ?_⟩
  · obtain ⟨o, hspell⟩ := dimsSpellTag_dx10 hdims
    exact lossless_raises_dx10 hu hw hh hsize hspell
  · obtain ⟨o, c, hspell, hne⟩ := dimsSpellTag_other_length hw hh hsize hdims
    exact lossless_raises_size hu hw hh hsize himage hspell hne
  · obtain ⟨hspell, heq⟩ := dimsSpellTag_same_length hw hh hsize hc hdims
    have hend := lossless_endsAsDecompAnswers hu hw hh hsize himage hspell heq (by rw [hinst]; omega)
    rw [← hlen] at hend
    exact hend

end Sys2Proof.Machine
end

section
/-!
PROOFS. The header codec: what HDR_BUILD writes and refuses, what HDR_PARSE and FCC_RESOLVE report, and that a built
header parses back (40_header.md).
-/

namespace Sys2Proof.Machine

/-! ## The commands of HDR_BUILD (R102) -/

section Build

variable {s : State} {i : Instr} {f : Fmt}

/-- The command that builds the header of each format. -/
inductive BuildCommand : Instr → Fmt → Prop where
  | rgba : BuildCommand .hdrBuildRgba .rgba
  | dxt1 : BuildCommand .hdrBuildDxt1 .dxt1
  | dxt5 : BuildCommand .hdrBuildDxt5 .dxt5

theorem BuildCommand.command (hi : BuildCommand i f) : command i s = hdrBuild f s := by
  cases hi <;> rfl

/-- A build has no input. -/
theorem BuildCommand.reads (hi : BuildCommand i f) : commandReads i s = [] := by
  cases hi <;> rfl

theorem BuildCommand.completes (hi : BuildCommand i f) (hw : 1 ≤ s.width) (hh : 1 ≤ s.height)
    (hsize : pitchOrLinearSize s.width s.height f < 2 ^ 32) :
    ∃ t, exec i s = .next t ∧ Completes s t s.x (buildHeader s.width s.height f) :=
  exec_completes (hi.command.trans (hdrBuild_ok hw hh hsize)) (by simp [hi.reads])

/-- Both checks of R106 raise the same error. -/
theorem hdrBuild_encode (h : s.width = 0 ∨ s.height = 0 ∨ 2 ^ 32 ≤ pitchOrLinearSize s.width s.height f) :
    hdrBuild f s = .error .encode := by
  unfold hdrBuild
  split_ifs with hzero hsize
  · rfl
  · rfl
  · exact absurd (or_assoc.2 h) (not_or.2 ⟨hzero, hsize⟩)

theorem BuildCommand.raises (hi : BuildCommand i f)
    (h : s.width = 0 ∨ s.height = 0 ∨ 2 ^ 32 ≤ pitchOrLinearSize s.width s.height f) :
    exec i s = .next { s with status := statusErr .encode } :=
  exec_raises (hi.command.trans (hdrBuild_encode h)) (by simp [hi.reads])

end Build

/-- Settles O22: the obligation's size is the value of `pitchOrLinearSize` in each format. -/
theorem hdrBuildEncodeErrors : Obligations.HdrBuildEncodeErrors := by
  intro s i size hformat herror
  obtain ⟨rfl, rfl⟩ | ⟨rfl, rfl⟩ | ⟨rfl, rfl⟩ := hformat
  · exact BuildCommand.rgba.raises herror
  · exact BuildCommand.dxt1.raises herror
  · exact BuildCommand.dxt5.raises herror

/-! ## The fields of a built header (R103 to R105) -/

/-- The integer fields outside the pixel-format block. -/
theorem buildHeader_words {w h : Nat} {f : Fmt} (hw : w < 2 ^ 32) (hh : h < 2 ^ 32)
    (hsize : pitchOrLinearSize w h f < 2 ^ 32) :
    le (slice (buildHeader w h f) 4 4) = 124 ∧ le (slice (buildHeader w h f) 8 4) = headerFlags f ∧
      le (slice (buildHeader w h f) 12 4) = h ∧ le (slice (buildHeader w h f) 16 4) = w ∧
      le (slice (buildHeader w h f) 20 4) = pitchOrLinearSize w h f ∧
      le (slice (buildHeader w h f) 108 4) = 0x1000 := by
  obtain ⟨-, h4, h8, h12, h16, h20, -, -, h108, -⟩ := buildHeader_fields w h f
  have hflags : headerFlags f < 2 ^ 32 := by cases f <;> decide
  rw [h4, h8, h12, h16, h20, h108]
  exact ⟨le_bytesLE_four (by decide), le_bytesLE_four hflags, le_bytesLE_four hh, le_bytesLE_four hw,
    le_bytesLE_four hsize, le_bytesLE_four (by decide)⟩

theorem getElem?_of_slice_eq_zeros {bs : List Byte} {a n k : Nat} (h : slice bs a n = List.replicate n 0)
    (ha : a ≤ k) (hn : k < a + n) : bs[k]? = some 0 := by
  obtain ⟨j, rfl⟩ := Nat.exists_eq_add_of_le ha
  have hj : j < n := by omega
  rw [← getElem?_slice bs hj, h, List.getElem?_replicate, if_pos hj]

/-- The reserved fields. -/
theorem buildHeader_zero (w h : Nat) (f : Fmt) {k : Nat} (hk : (24 ≤ k ∧ k < 76) ∨ (112 ≤ k ∧ k < 128)) :
    (buildHeader w h f)[k]? = some 0 := by
  obtain ⟨-, -, -, -, -, -, h24, -, -, h112⟩ := buildHeader_fields w h f
  obtain ⟨hlo, hhi⟩ | ⟨hlo, hhi⟩ := hk
  · exact getElem?_of_slice_eq_zeros h24 hlo hhi
  · exact getElem?_of_slice_eq_zeros h112 hlo hhi

/-- The pixel-format block of the lossless format (R103). -/
theorem buildHeader_rgba_pixelFormat (w h : Nat) :
    le (slice (buildHeader w h .rgba) 76 4) = 32 ∧ le (slice (buildHeader w h .rgba) 80 4) = 0x41 ∧
      slice (buildHeader w h .rgba) 84 4 = [0, 0, 0, 0] ∧ le (slice (buildHeader w h .rgba) 88 4) = 32 ∧
      le (slice (buildHeader w h .rgba) 92 4) = 0x000000FF ∧ le (slice (buildHeader w h .rgba) 96 4) = 0x0000FF00 ∧
      le (slice (buildHeader w h .rgba) 100 4) = 0x00FF0000 ∧
      le (slice (buildHeader w h .rgba) 104 4) = 0xFF000000 := by
  have hfield := fun o (ho : o + 4 ≤ 32) => slice_pixelFormat w h .rgba ho
  rw [hfield 0 (by decide), hfield 4 (by decide), hfield 8 (by decide), hfield 12 (by decide), hfield 16 (by decide),
    hfield 20 (by decide), hfield 24 (by decide), hfield 28 (by decide)]
  decide

/-- The pixel-format block of a compressed format, but for the FourCC (R104). -/
theorem buildHeader_compressed_pixelFormat (w h : Nat) {f : Fmt} (hf : f = .dxt1 ∨ f = .dxt5) :
    le (slice (buildHeader w h f) 76 4) = 32 ∧ le (slice (buildHeader w h f) 80 4) = 0x4 ∧
      slice (buildHeader w h f) 88 20 = List.replicate 20 0 := by
  obtain ⟨-, -, -, -, -, -, -, hblock, -, -⟩ := buildHeader_fields w h f
  have hmasks : slice (buildHeader w h f) 88 20 = slice (pixelFormat f) 12 20 := by
    rw [← hblock, slice_slice _ (by decide)]
  rw [slice_pixelFormat w h f (o := 0) (by decide), slice_pixelFormat w h f (o := 4) (by decide), hmasks]
  obtain rfl | rfl := hf <;> decide

/-- Settles O20: the output is `buildHeader`, whose fields are read off one by one. -/
theorem hdrBuildRgbaFields : Obligations.HdrBuildRgbaFields := by
  intro s hw hh hpitch
  obtain ⟨t, ht, hdone⟩ := BuildCommand.rgba.completes hw hh hpitch
  obtain ⟨hmagic, -⟩ := buildHeader_fields s.width s.height .rgba
  obtain ⟨h4, h8, h12, h16, h20, h108⟩ := buildHeader_words (f := .rgba) s.width_lt s.height_lt hpitch
  obtain ⟨h76, h80, h84, h88, h92, h96, h100, h104⟩ := buildHeader_rgba_pixelFormat s.width s.height
  exact ⟨t, _, ht, hdone, length_buildHeader _ _ _, hmagic, h4, h8, h12, h16, h20, h76, h80, h84, h88, h92, h96, h100,
    h104, h108, fun k hk => buildHeader_zero _ _ _ hk⟩

/-- Settles O21: the two compressed formats differ in the block size and the FourCC only. -/
theorem hdrBuildCompressedFields : Obligations.HdrBuildCompressedFields := by
  intro s i blockSize fourCC hw hh hformat hsize
  obtain ⟨f, hi, hf, hflags, hlinear, hfourCC⟩ : ∃ f, BuildCommand i f ∧ (f = .dxt1 ∨ f = .dxt5) ∧
      headerFlags f = 0x00081007 ∧
      pitchOrLinearSize s.width s.height f = (s.width + 3) / 4 * ((s.height + 3) / 4) * blockSize ∧
      slice (pixelFormat f) 8 4 = fourCC := by
    obtain ⟨rfl, rfl, rfl⟩ | ⟨rfl, rfl, rfl⟩ := hformat
    · exact ⟨_, .dxt1, .inl rfl, by decide, rfl, by decide⟩
    · exact ⟨_, .dxt5, .inr rfl, by decide, rfl, by decide⟩
  rw [← hlinear] at hsize ⊢
  obtain ⟨t, ht, hdone⟩ := hi.completes hw hh hsize
  obtain ⟨hmagic, -⟩ := buildHeader_fields s.width s.height f
  obtain ⟨h4, h8, h12, h16, h20, h108⟩ := buildHeader_words s.width_lt s.height_lt hsize
  obtain ⟨h76, h80, h88⟩ := buildHeader_compressed_pixelFormat s.width s.height hf
  have h84 := (slice_pixelFormat s.width s.height f (o := 8) (by decide)).trans hfourCC
  refine ⟨t, _, ht, hdone, length_buildHeader _ _ _, hmagic, h4, h8.trans hflags, h12, h16, h20, h76, h80, h84, h108,
    fun k hk => ?_⟩
  obtain hk | ⟨hlo, hhi⟩ | hk := hk
  · exact buildHeader_zero _ _ _ (.inl hk)
  · exact getElem?_of_slice_eq_zeros h88 hlo hhi
  · exact buildHeader_zero _ _ _ (.inr hk)

/-! ## A built header, read again (R112, R126) -/

theorem parseHeader_buildHeader {w h : Nat} (f : Fmt) (hw : w < 2 ^ 32) (hh : h < 2 ^ 32) :
    parseHeader (buildHeader w h f) = .ok
      { width := w, height := h, fourCC := le (slice (pixelFormat f) 8 4), bitCount := le (slice (pixelFormat f) 12 4)
        pf := pixelFormat f } := by
  obtain ⟨hmagic, -, -, h12, h16, -, -, hblock, -, -⟩ := buildHeader_fields w h f
  rw [parseHeader, if_neg (by simp), if_neg (not_not.2 hmagic), h12, h16, hblock, le_bytesLE_four hw,
    le_bytesLE_four hh, slice_pixelFormat w h f (o := 8) (by decide), slice_pixelFormat w h f (o := 12) (by decide)]

/-- Settles O25: the FourCC and the bit count are those of each format's pixel-format block. -/
theorem headerRoundTrip : Obligations.HeaderRoundTrip := by
  intro w h f _ _ hw hh _
  refine ⟨_, parseHeader_buildHeader f hw hh, rfl, rfl, ?_, ?_, ?_⟩
  all_goals
    rintro rfl
    exact ⟨rfl, rfl⟩

/-- Settles O28: the first probe finds the tag, so the alternate offset plays no part. -/
theorem builtCompressedHeaderResolvesAtStageZero : Obligations.BuiltCompressedHeaderResolvesAtStageZero :=
  fun w h alt => ⟨(CompressedFormat.dxt1.resolves alt.off w h).eq, (CompressedFormat.dxt5.resolves alt.off w h).eq⟩

/-! ## The commands that read a header (R110, R124, R251) -/

theorem headerCommand_error {i : Instr} {s : State} {e : Err} (hi : i ∈ [.hdrParse, .fccResolve, .decFrame])
    (h : inputHeader s = .error e) : command i s = .error e := by
  simp only [List.mem_cons, List.not_mem_nil, or_false] at hi
  obtain rfl | rfl | rfl := hi
  · rw [command, hdrParse, h]
  · rw [command, fccResolve, h]
  · rw [command, decFrame, h]

/-- They read the magic of an input that is long enough, and the rest only behind the right magic (R344). -/
theorem headerCommand_reads {i : Instr} (s : State) (hi : i ∈ [.hdrParse, .fccResolve, .decFrame]) :
    ∃ after, commandReads i s = headerReads after s := by
  simp only [List.mem_cons, List.not_mem_nil, or_false] at hi
  obtain rfl | rfl | rfl := hi <;> exact ⟨_, rfl⟩

/-- Settles O24: a short input is refused unread, and a wrong magic once its four bytes are read. -/
theorem headerFormatErrors : Obligations.HeaderFormatErrors := by
  intro s i hi hfits
  obtain ⟨after, hreads⟩ := headerCommand_reads s hi
  refine ⟨fun h => ?_, fun hlong ⟨k, hk, hunwritten⟩ => ?_⟩
  · by_cases hshort : s.inlen < 128
    · refine exec_raises (headerCommand_error hi (inputHeader_short hfits hshort)) fun k hk => ?_
      obtain ⟨-, hlong, -⟩ := mem_headerReads.1 (hreads ▸ hk)
      exact absurd hshort hlong.not_gt
    · obtain ⟨hwritten, hmagic⟩ := h.resolve_left hshort
      have hlong := Nat.not_lt.1 hshort
      refine exec_raises (headerCommand_error hi (inputHeader_magic hfits hlong hmagic)) fun k hk => hwritten k ?_
      obtain ⟨-, -, hk⟩ := mem_headerReads.1 (hreads ▸ hk)
      exact hk.resolve_right fun h => hmagic h.1
  · exact exec_stops (hreads ▸ mem_headerReads.2 ⟨hfits, hlong, .inl hk⟩) hunwritten

/-- On an accepted header, what such a command reads. -/
theorem HeaderAccepted.mem_headerReads {s : State} (h : HeaderAccepted s) {after : Header → List Nat} {k : Nat} :
    k ∈ headerReads after s ↔ k < 4 ∨ k ∈ after s.header := by
  have hmagic : s.inBytes 0 4 = Machine.magic := h.magic
  simp [Machine.mem_headerReads, h.fits, h.long, hmagic]

/-! ## HDR_PARSE (R110) -/

theorem mem_hdrParseReads {s : State} (h : HeaderAccepted s) {k : Nat} :
    k ∈ commandReads .hdrParse s ↔ k < 4 ∨ (12 ≤ k ∧ k < 20) ∨ (76 ≤ k ∧ k < 108) := by
  rw [commandReads, hdrParseReads, h.mem_headerReads, List.mem_append, List.mem_range'_1, List.mem_range'_1]

/-- Settles O23: the entry reports `State.header`, and the bytes it is made of are those that are read. -/
theorem hdrParseReportsFields : Obligations.HdrParseReportsFields := by
  intro s h
  refine ⟨fun hwritten => ?_, fun ⟨k, hk, hunwritten⟩ => exec_stops ((mem_hdrParseReads h).2 (.inr hk)) hunwritten⟩
  have hresult : command .hdrParse s = .ok
      { x := { s.x with
          width := reg (s.memRead 16 4), height := reg (s.memRead 12 4), fourcc := reg (s.memRead 84 4)
          bitcount := reg (s.memRead 88 4), probe := 0 }
        out := s.inBytes 76 32 } := by
    rw [command, hdrParse, h.inputHeader]
    rfl
  exact exec_completes hresult fun k hk => ((mem_hdrParseReads h).1 hk).elim (h.written k) (hwritten k)

/-! ## FCC_RESOLVE (R124) -/

theorem mem_fccResolveReads {s : State} (h : HeaderAccepted s) {k : Nat} :
    k ∈ commandReads .fccResolve s ↔ k < 128 := by
  rw [commandReads, fccResolveReads, h.mem_headerReads, List.mem_range]
  omega

theorem fccResolve_ok {s : State} {hdr : Header} (h : inputHeader s = .ok hdr) :
    fccResolve s = .ok
      { x := { s.x with
          fourcc := reg (inputProbe s).fourCC, bitcount := reg hdr.bitCount, probe := reg (inputProbe s).word }
        out := [] } := by
  rw [fccResolve, h]

/-- Settles O26: the resolver computes an outcome of the three probes, and there is no second one. -/
theorem fccResolveRunsOrderedProbes : Obligations.FccResolveRunsOrderedProbes := by
  intro s h
  refine ⟨⟨_, _, _, resolveFourCC_resolves _ _⟩,
    fun ⟨k, hk, hunwritten⟩ => exec_stops ((mem_fccResolveReads h).2 hk) hunwritten,
    fun tag stage off hresolves hwritten => ?_⟩
  have hresult : command .fccResolve s = _ := fccResolve_ok h.inputHeader
  rw [h.inputProbe, hresolves.eq, Probe.fourCC_eq, hresolves.word] at hresult
  exact exec_completes hresult fun k hk => hwritten k ((mem_fccResolveReads h).1 hk)

/-- Settles O29: both commands report `inputProbe` and the bit count of the one header, which a decode that succeeds has
accepted. -/
theorem decodeAndResolveReportSameProbe : Obligations.DecodeAndResolveReportSameProbe := by
  intro s t u ht hu hok
  obtain rfl := exec_inv ht
  obtain rfl := exec_inv hu
  obtain ⟨r, hdecode⟩ := finish_ok_of_status hok
  obtain ⟨hfits, hlong, hmagic, -, -, -, hregs⟩ := decFrame_inv hdecode
  have hresolve : command .fccResolve s = _ := fccResolve_ok (inputHeader_ok hfits hlong hmagic)
  rw [hdecode, hresolve]
  simp only [State.finish_ok, State.done_x, State.done_status, hregs]
  exact ⟨statusOk_eq, rfl, rfl, rfl⟩

end Sys2Proof.Machine
end

section
/-!
PROOFS. The BC1 colour block once its line fit is given: expansion, palette, indices and the stored fields (41_bc1.md
R149 to R157); the length check of every block operation (R155, 43_bitpack.md R202 to R205); and unpacking a compressed
block (R207).
-/

namespace Sys2Proof.Machine

/-! ## The length of the input -/

/-- Settles O39: the check on the length fails before anything is read. -/
theorem blockLengthErrors : Obligations.BlockLengthErrors := by
  intro s i need hi hfits hlen
  obtain ⟨hheader, f, hcommand⟩ :
      i ∉ [.hdrParse, .fccResolve, .decFrame] ∧ ∃ f, command i s = blockOp need f s := by
    simp only [List.mem_cons, Prod.mk.injEq, List.not_mem_nil, or_false] at hi
    obtain ⟨rfl, rfl⟩ | ⟨rfl, rfl⟩ | ⟨rfl, rfl⟩ | ⟨rfl, rfl⟩ | ⟨rfl, rfl⟩ | ⟨rfl, rfl⟩ := hi <;>
      exact ⟨by decide, _, by rw [command]⟩
  exact exec_raises_unread hheader (hcommand.trans (blockOp_length hfits hlen))

/-! ## Expansion (R151) -/

/-- Joining bits below a shifted field adds them. -/
theorem shiftLeft_or_of_lt {a b k : Nat} (h : b < 2 ^ k) : a <<< k ||| b = 2 ^ k * a + b := by
  rw [Nat.shiftLeft_eq, Nat.mul_comm, Nat.two_pow_add_eq_or_of_lt h]

/-- The expanded colour, channel by channel (R142, R151). -/
theorem expand565_eq {c : Nat} (hc : c < 2 ^ 16) :
    expand565 c = ⟨8 * (c / 2048) + c / 2048 / 4, 4 * (c / 32 % 64) + c / 32 % 64 / 16, 8 * (c % 32) + c % 32 / 4⟩ := by
  have h5 : ∀ n, n &&& 0x1F = n % 32 := fun n => Nat.and_two_pow_sub_one_eq_mod n 5
  have h6 : ∀ n, n &&& 0x3F = n % 64 := fun n => Nat.and_two_pow_sub_one_eq_mod n 6
  simp only [expand565, h5, h6, Nat.shiftRight_eq_div_pow]
  rw [shiftLeft_or_of_lt (k := 3) (by omega), shiftLeft_or_of_lt (k := 2) (by omega),
    shiftLeft_or_of_lt (k := 3) (by omega), Nat.mod_eq_of_lt (show c / 2 ^ 11 < 32 by omega)]
  rfl

theorem pack565_expand565 {c : Nat} (hc : c < 2 ^ 16) : pack565 (expand565 c) = c := by
  obtain ⟨hr, hg, hb⟩ : (expand565 c).r / 8 = c / 2048 ∧ (expand565 c).g / 4 = c / 32 % 64 ∧
      (expand565 c).b / 8 = c % 32 := by
    rw [expand565_eq hc]
    refine ⟨?_, ?_, ?_⟩ <;> dsimp only <;> omega
  rw [pack565_eq (by omega) (by omega), hr, hg, hb]
  omega

/-- Settles O34: the fields are read off the expanded colour, and quantising it drops the bits that were replicated. -/
theorem expansionReplicatesHighBits : Obligations.ExpansionReplicatesHighBits := by
  intro c hc
  have hexpand := expand565_eq hc
  exact ⟨congrArg V3.r hexpand, congrArg V3.g hexpand, congrArg V3.b hexpand, pack565_expand565 hc⟩

/-! ## Equal endpoints (R156) -/

theorem rdiv_three_mul (a : Nat) : rdiv (3 * a) 3 = a := by
  unfold rdiv
  omega

/-- Two equal endpoints give a palette of one colour. -/
theorem bc1Palette_self (c : Nat) : bc1Palette c c = List.replicate 4 (expand565 c) := by
  have hmix : ∀ a, rdiv (2 * a + a) 3 = a ∧ rdiv (a + 2 * a) 3 = a := fun a => by
    rw [show 2 * a + a = 3 * a by omega, show a + 2 * a = 3 * a by omega]
    exact ⟨rdiv_three_mul a, rdiv_three_mul a⟩
  simp [bc1Palette, V3.zip, hmix, List.replicate]

/-- In a palette of one colour every entry is nearest, so the lowest index is taken (R153). -/
theorem bc1Index_self (c : Nat) (p : Rgb) : bc1Index (bc1Palette c c) p = 0 := by
  rw [bc1Index, bc1Palette_self, List.map_replicate]
  simp [argmin, minNat, List.replicate]

theorem packFields_replicate_zero (w n : Nat) : packFields w (List.replicate n 0) = 0 := by
  induction n with
  | zero => rfl
  | succ n ih => simp [List.replicate_succ, packFields_cons, ih]

/-- The index word of a block with equal endpoints. -/
theorem packFields_bc1Indices_of_eq {fit : Fit} {ps : List Rgb}
    (h : (bc1Endpoints fit ps).2 = (bc1Endpoints fit ps).1) : packFields 2 (bc1Indices fit ps) = 0 := by
  have hzero : bc1Indices fit ps = List.replicate ps.length 0 := by
    rw [bc1Indices, h, List.eq_replicate_iff]
    refine ⟨List.length_map _, fun k hk => ?_⟩
    obtain ⟨p, -, rfl⟩ := List.mem_map.1 hk
    exact bc1Index_self _ p
  rw [hzero, packFields_replicate_zero]

/-- Settles O36: the stored endpoints are a maximum and a minimum, and equal ones leave one colour to choose from. -/
theorem bc1EndpointOrderInvariant : Obligations.Bc1EndpointOrderInvariant := by
  intro fit ps hlen
  obtain ⟨hfirst, hsecond, hword⟩ := bc1With_fields fit hlen
  rw [hfirst, hsecond, hword]
  refine ⟨?_, packFields_bc1Indices_of_eq⟩
  rw [bc1Endpoints_eq]
  exact min_le_max

/-! ## Unpacking a block (R207) -/

/-- Unpacking gives back sixteen packed fields (R200, R201). -/
theorem unpackFields_packFields {w : Nat} {vs : List Nat} (hlen : vs.length = 16) (h : ∀ v ∈ vs, v < 2 ^ w) :
    unpackFields w (packFields w vs) = vs := by
  apply List.ext_getElem
  · simp [unpackFields, hlen]
  · intro i _ hi
    simp only [unpackFields, List.getElem_map, List.getElem_range, Nat.and_two_pow_sub_one_eq_mod]
    exact packFields_field h hi

theorem length_bc1Indices (fit : Fit) (ps : List Rgb) : (bc1Indices fit ps).length = ps.length := by
  simp [bc1Indices]

theorem length_alphaIndices (als : List Nat) : (alphaIndices als).length = als.length := by
  simp [alphaIndices]

/-- The index field of a stored alpha block, whatever the samples are (R185, R186). -/
theorem bc3a_indexField {als : List Nat} (hlen : als.length = 16) :
    le (slice (bc3a als) 2 6) = packFields 3 (alphaIndices als) := by
  have hlt := packFields_lt (alphaIndices_lt als)
  rw [length_alphaIndices, hlen] at hlt
  have hslice : slice (bc3a als) 2 6 = bytesLE (packFields 3 (alphaIndices als)) 6 := by
    rw [bc3a, slice_append_right (by simp)]
    exact slice_all (by simp)
  rw [hslice, le_bytesLE_of_lt (by simpa using hlt)]

/-- Settles O45: the index field of either block is its indices packed, and they fit their fields. -/
theorem unpackUndoesTheCompressors : Obligations.UnpackUndoesTheCompressors := by
  refine ⟨fun fit ps hlen => ?_, fun als hlen => ?_⟩
  · obtain ⟨-, -, hword⟩ := bc1With_fields fit hlen
    rw [hword]
    exact unpackFields_packFields ((length_bc1Indices fit ps).trans hlen) (bc1Indices_lt fit ps)
  · rw [bc3a_indexField hlen]
    exact unpackFields_packFields ((length_alphaIndices als).trans hlen) (alphaIndices_lt als)

/-! ## BC1_ENC (R155) -/

/-- The samples depend on the colour bytes only (R157). -/
theorem bc1Samples_congr {s u : State} (h : ∀ k < 64, k % 4 ≠ 3 → u.inByte k = s.inByte k) :
    u.bc1Samples = s.bc1Samples := by
  refine List.map_congr_left fun i hi => ?_
  have hi := List.mem_range.1 hi
  simp only [State.rgbAt, h (4 * i) (by omega) (by omega), h (4 * i + 1) (by omega) (by omega),
    h (4 * i + 2) (by omega) (by omega)]

theorem command_bc1Enc {s : State} (hlen : s.inlen = 64) :
    command .bc1Enc s = .ok { x := s.x, out := bc1 s.inst.fit s.bc1Samples } :=
  blockOp_ok (f := fun s => bc1 s.inst.fit s.bc1Samples) (by have := s.inst.ibuf.lower; omega) hlen

/-- Settles O38: both runs store the block of the same samples. -/
theorem bc1IgnoresAlpha : Obligations.Bc1IgnoresAlpha := by
  intro s u t v hs hu hfit hbytes ht hv
  obtain rfl := exec_inv ht
  obtain rfl := exec_inv hv
  rw [command_bc1Enc hs, command_bc1Enc hu, hfit, bc1Samples_congr hbytes]
  exact ⟨rfl, rfl⟩

theorem length_bc1Samples (s : State) : s.bc1Samples.length = 16 := by
  simp [State.bc1Samples]

/-- The index stored for a sample is its nearest palette entry, the lowest on a tie (R153, R154). -/
theorem bc1Index_field {fit : Fit} {ps : List Rgb} {i : Nat} {p : Rgb} (hp : ps[i]? = some p) :
    NearestLowest (dist2 p) (bc1Palette (bc1Endpoints fit ps).1 (bc1Endpoints fit ps).2)
      (packFields 2 (bc1Indices fit ps) / 4 ^ i % 4) := by
  obtain ⟨hi, rfl⟩ := List.getElem?_eq_some_iff.1 hp
  have hfield := packFields_field (bc1Indices_lt fit ps) (i := i) (by rwa [length_bc1Indices])
  rw [Nat.shiftRight_eq_div_pow, Nat.pow_mul] at hfield
  rw [show packFields 2 (bc1Indices fit ps) / 4 ^ i % 4 = _ from hfield]
  simp only [bc1Indices, List.getElem_map, bc1Index]
  exact argmin_nearestLowest _ (by simp [bc1Palette])

/-- Settles O35: the output is the block of the samples, whose three fields are the ordered quantised ends and the packed
indices. -/
theorem bc1EncStoresEndpointsAndNearestIndices : Obligations.Bc1EncStoresEndpointsAndNearestIndices := by
  intro s hlen
  obtain ⟨hcompletes, hstops⟩ := exec_block (i := .bc1Enc) (offs := bc1Reads)
    (f := fun s => bc1 s.inst.fit s.bc1Samples) rfl rfl hlen (by decide)
  refine ⟨fun ⟨k, hk, hcolour, hunwritten⟩ => hstops ⟨k, mem_bc1Reads.2 ⟨hk, hcolour⟩, hunwritten⟩, fun hwritten => ?_⟩
  obtain ⟨t, ht, hdone⟩ := hcompletes fun k hk => by
    obtain ⟨hk, hcolour⟩ := mem_bc1Reads.1 hk
    exact hwritten k hk hcolour
  refine ⟨t, _, ht, hdone, length_bc1 _ _, ?_⟩
  intro sample fit quantise distance c0 c1
  have hends : bc1Endpoints (fitOf s.inst.fit) s.bc1Samples = (c0, c1) := by
    rw [bc1Endpoints_eq, q565_eq, q565_eq]
    rfl
  obtain ⟨hfirst, hsecond, hword⟩ := bc1With_fields (fitOf s.inst.fit) (length_bc1Samples s)
  rw [hends] at hfirst hsecond
  refine ⟨hfirst, hsecond, fun i hi => ?_⟩
  have hsample : s.bc1Samples[i]? = some (sample i) := by
    rw [State.bc1Samples, List.getElem?_map, List.getElem?_range hi]
    rfl
  have hnearest := bc1Index_field (fit := fitOf s.inst.fit) hsample
  have hdistance : dist2 (sample i) = distance (sample i) := funext (dist2_eq (sample i))
  rw [hends, hdistance, ← hword] at hnearest
  exact hnearest

end Sys2Proof.Machine
end

section
/-!
PROOFS. The exact line fit in integers: the scatter matrix is symmetric, so its iterates vanish together, and a flat block
is its own mean (41_bc1.md R143 to R148, R156).
-/

namespace Sys2Proof.Machine

/-! ## Triples of integers -/

theorem V3.sum_eq (vs : List (V3 Int)) :
    V3.sum vs = ⟨(vs.map V3.r).sum, (vs.map V3.g).sum, (vs.map V3.b).sum⟩ := by
  induction vs with
  | nil => rfl
  | cons v vs ih => rw [show V3.sum (v :: vs) = V3.zip (· + ·) v (V3.sum vs) from rfl, ih]; rfl

theorem V3.dot_self_nonneg (v : V3 Int) : 0 ≤ v.dot v :=
  add_nonneg (add_nonneg (mul_self_nonneg _) (mul_self_nonneg _)) (mul_self_nonneg _)

theorem V3.dot_self_eq_zero {v : V3 Int} : v.dot v = 0 ↔ v = ⟨0, 0, 0⟩ := by
  obtain ⟨r, g, b⟩ := v
  simp only [V3.dot, V3.mk.injEq]
  constructor
  · intro h
    have hr := mul_self_nonneg r
    have hg := mul_self_nonneg g
    have hb := mul_self_nonneg b
    exact ⟨mul_self_eq_zero.1 (by linarith), mul_self_eq_zero.1 (by linarith), mul_self_eq_zero.1 (by linarith)⟩
  · rintro ⟨rfl, rfl, rfl⟩
    rfl

/-! ## The scatter matrix (R143) -/

/-- `16 * p - S`, the centred sample of `p` (R143). -/
def deviation (ps : List Rgb) (p : Rgb) : V3 Int :=
  V3.zip (fun a s => 16 * a - s) (p.map Int.ofNat) (sampleSum ps)

theorem centred_eq (ps : List Rgb) : centred ps = ps.map (deviation ps) := by
  rw [centred, intSamples, List.map_map]
  rfl

/-- `M * v` is the sum of the centred samples, each scaled by its dot product with `v`. -/
theorem mulVec_scatter (ds : List (V3 Int)) (v : V3 Int) :
    mulVec (scatter ds) v =
      ⟨(ds.map fun d => d.r * d.dot v).sum, (ds.map fun d => d.g * d.dot v).sum, (ds.map fun d => d.b * d.dot v).sum⟩ := by
  have hrow : ∀ c : V3 Int → Int,
      (V3.sum (ds.map fun d => d.map (c d * ·))).dot v = (ds.map fun d => c d * d.dot v).sum := fun c => by
    simp only [V3.sum_eq, List.map_map, V3.dot, ← List.sum_map_mul_right, ← List.sum_map_add]
    refine congrArg List.sum (List.map_congr_left fun d _ => ?_)
    simp only [Function.comp, V3.map]
    ring
  simp only [mulVec, V3.map, scatter, V3.mk.injEq]
  exact ⟨hrow V3.r, hrow V3.g, hrow V3.b⟩

/-- `(M * u) . v`, symmetric in `u` and `v`. -/
theorem dot_mulVec_scatter (ds : List (V3 Int)) (u v : V3 Int) :
    (mulVec (scatter ds) u).dot v = (ds.map fun d => d.dot u * d.dot v).sum := by
  simp only [mulVec_scatter, V3.dot, ← List.sum_map_mul_right, ← List.sum_map_add]
  refine congrArg List.sum (List.map_congr_left fun d _ => ?_)
  ring

theorem dot_mulVec_scatter_comm (ds : List (V3 Int)) (u v : V3 Int) :
    (mulVec (scatter ds) u).dot v = (mulVec (scatter ds) v).dot u := by
  simp only [dot_mulVec_scatter, mul_comm]

/-! ## The iterates (R144, R147) -/

theorem mulVec_zero (m : V3 (V3 Int)) : mulVec m ⟨0, 0, 0⟩ = ⟨0, 0, 0⟩ := by
  simp [mulVec, V3.map, V3.dot]

/-- R147: `M * (M * v) = 0` gives `(M * v) . (M * v) = v . (M * (M * v)) = 0`. -/
theorem mulVec_mulVec_scatter_eq_zero {ds : List (V3 Int)} {v : V3 Int} :
    mulVec (scatter ds) (mulVec (scatter ds) v) = ⟨0, 0, 0⟩ ↔ mulVec (scatter ds) v = ⟨0, 0, 0⟩ := by
  constructor
  · intro h
    rw [← V3.dot_self_eq_zero, dot_mulVec_scatter_comm, h]
    simp [V3.dot]
  · intro h
    rw [h, mulVec_zero]

theorem powerIterate_scatter_eq_zero {ds : List (V3 Int)} (n : Nat) {v : V3 Int} :
    powerIterate (scatter ds) (n + 1) v = ⟨0, 0, 0⟩ ↔ mulVec (scatter ds) v = ⟨0, 0, 0⟩ := by
  induction n generalizing v with
  | zero => rfl
  | succ n ih => exact ih.trans mulVec_mulVec_scatter_eq_zero

theorem axis_eq_zero_iff {ps : List Rgb} :
    axis ps = ⟨0, 0, 0⟩ ↔ mulVec (scatter (centred ps)) ⟨1, 1, 1⟩ = ⟨0, 0, 0⟩ :=
  powerIterate_scatter_eq_zero 4

theorem bc1Fit_of_axis_zero {ps : List Rgb} (h : axis ps = ⟨0, 0, 0⟩) :
    bc1Fit ps = (meanEndpoint ps, meanEndpoint ps) := if_pos h

theorem bc1Fit_of_axis_ne_zero {ps : List Rgb} (h : axis ps ≠ ⟨0, 0, 0⟩) :
    bc1Fit ps = (lineEndpoint ps (maxInt ((centred ps).map (axis ps).dot)),
      lineEndpoint ps (minInt ((centred ps).map (axis ps).dot))) := if_neg h

/-- Settles O33: no iterate of a symmetric matrix vanishes before the first does. -/
theorem zeroAxisGivesTheMean : Obligations.ZeroAxisGivesTheMean := by
  intro ps
  refine ⟨axis_eq_zero_iff, fun h => ?_⟩
  rw [fitOf, bc1Fit_of_axis_zero (axis_eq_zero_iff.2 h), meanEndpoint, sampleSum_eq]
  rfl

/-! ## A block of one colour (R156) -/

theorem sampleSum_replicate (n : Nat) (p : Rgb) :
    sampleSum (List.replicate n p) = p.map fun c : Nat => (n * c : Int) := by
  simp [sampleSum_eq, V3.map]

theorem deviation_flat (p : Rgb) : deviation (List.replicate 16 p) p = ⟨0, 0, 0⟩ := by
  rw [deviation, sampleSum_replicate]
  simp [V3.zip, V3.map]

theorem axis_flat (p : Rgb) : axis (List.replicate 16 p) = ⟨0, 0, 0⟩ := by
  have hcentred : centred (List.replicate 16 p) = List.replicate 16 ⟨0, 0, 0⟩ := by
    rw [centred_eq, List.map_replicate, deviation_flat]
  rw [axis_eq_zero_iff, hcentred]
  decide

/-- An integer byte is its own rounding (R149). -/
theorem Ratio.toByte_of_byte {c : Nat} (hc : c ≤ 255) : (⟨16 * c, 16⟩ : Ratio).toByte = c := by
  have h := Ratio.toByte_of_num_mem (q := ⟨16 * c, 16⟩) (by dsimp only; omega) (by dsimp only; omega)
  dsimp only at h
  omega

theorem meanEndpoint_flat (p : Rgb) : meanEndpoint (List.replicate 16 p) = p.map fun c => ⟨16 * c, 16⟩ := by
  rw [meanEndpoint, sampleSum_replicate]
  rfl

theorem q565_meanEndpoint_flat {p : Rgb} (hr : p.r ≤ 255) (hg : p.g ≤ 255) (hb : p.b ≤ 255) :
    q565 (meanEndpoint (List.replicate 16 p)) = 2048 * (p.r / 8) + 32 * (p.g / 4) + p.b / 8 := by
  rw [q565_eq, meanEndpoint_flat]
  simp only [V3.map, Ratio.toByte_of_byte hr, Ratio.toByte_of_byte hg, Ratio.toByte_of_byte hb]

/-- Settles O37: the axis is zero, both ends are the mean, which is the colour, and equal ends give index word 0. -/
theorem bc1FlatBlock : Obligations.Bc1FlatBlock := by
  intro p hr hg hb c
  have hends : bc1Endpoints bc1Fit (List.replicate 16 p) = (c, c) := by
    rw [bc1Endpoints_eq, bc1Fit_of_axis_zero (axis_flat p), q565_meanEndpoint_flat hr hg hb, max_self, min_self]
  rw [bc1, fitOf, bc1With, packFields_bc1Indices_of_eq (by rw [hends]), hends]
  rfl

end Sys2Proof.Machine
end

section
/-!
PROOFS. The exact line fit over the reals: it is the normalised power iteration, since normalising only divides by a
positive number and the scatter matrix is a positive multiple of the covariance (41_bc1.md R143 to R146, R148).
-/

namespace Sys2Proof.Machine

/-! ## Triples of reals -/

/-- An integer triple over the reals. -/
def V3.ofInt (v : V3 Int) : V3 ℝ := v.map fun c : Int => (c : ℝ)

/-- A sample over the reals. -/
def V3.ofSample (p : Rgb) : V3 ℝ := p.map fun c : Nat => (c : ℝ)

/-- The endpoint a triple of exact rationals stands for. -/
noncomputable def V3.ofRatio (e : V3 Ratio) : V3 ℝ := e.map fun q => (q.num : ℝ) / q.den

/-- A multiple of a real triple. -/
def V3.scale (c : ℝ) (v : V3 ℝ) : V3 ℝ := v.map (c * ·)

/-- The dot product of two real triples. -/
def V3.realDot (p q : V3 ℝ) : ℝ := p.r * q.r + p.g * q.g + p.b * q.b

/-- The Euclidean norm (R144, decision D19). -/
noncomputable def V3.norm (p : V3 ℝ) : ℝ := Real.sqrt (p.realDot p)

theorem V3.realDot_scale (c : ℝ) (p q : V3 ℝ) : p.realDot (q.scale c) = c * p.realDot q := by
  simp only [V3.realDot, V3.scale, V3.map]
  ring

theorem V3.scale_realDot (c : ℝ) (p q : V3 ℝ) : (p.scale c).realDot q = c * p.realDot q := by
  simp only [V3.realDot, V3.scale, V3.map]
  ring

theorem V3.scale_scale (c d : ℝ) (v : V3 ℝ) : (v.scale d).scale c = v.scale (c * d) := by
  simp only [V3.scale, V3.map, mul_assoc]

theorem V3.ofInt_realDot (u v : V3 Int) : u.ofInt.realDot v.ofInt = (u.dot v : ℝ) := by
  simp only [V3.realDot, V3.ofInt, V3.map, V3.dot]
  push_cast
  rfl

/-- A vector divided by its norm. -/
noncomputable def V3.normalise (v : V3 ℝ) : V3 ℝ := v.map fun c => c / v.norm

theorem V3.normalise_eq_scale (v : V3 ℝ) : v.normalise = v.scale v.norm⁻¹ := by
  simp only [V3.normalise, V3.scale, V3.map, div_eq_inv_mul]

theorem V3.norm_mul_self (v : V3 ℝ) : v.norm * v.norm = v.realDot v :=
  Real.mul_self_sqrt (add_nonneg (add_nonneg (mul_self_nonneg _) (mul_self_nonneg _)) (mul_self_nonneg _))

theorem V3.normalise_realDot_self {v : V3 ℝ} (h : v.norm ≠ 0) : v.normalise.realDot v.normalise = 1 := by
  rw [V3.normalise_eq_scale, V3.realDot_scale, V3.scale_realDot, ← V3.norm_mul_self, inv_mul_cancel_left₀ h,
    inv_mul_cancel₀ h]

/-! ## Mean and covariance (R143) -/

/-- The mean of a block (R143). -/
noncomputable def realMean (ps : List Rgb) : V3 ℝ :=
  ⟨(ps.map fun p => (p.r : ℝ)).sum / 16, (ps.map fun p => (p.g : ℝ)).sum / 16, (ps.map fun p => (p.b : ℝ)).sum / 16⟩

/-- A sample less the mean (R143). -/
noncomputable def realDeviation (ps : List Rgb) (p : Rgb) : V3 ℝ :=
  V3.zip (fun c m => c - m) (V3.ofSample p) (realMean ps)

/-- The covariance matrix, up to a positive factor, times a vector (R143, R144). -/
noncomputable def realCov (ps : List Rgb) (v : V3 ℝ) : V3 ℝ :=
  ⟨(ps.map fun p => (realDeviation ps p).r * (realDeviation ps p).realDot v).sum,
    (ps.map fun p => (realDeviation ps p).g * (realDeviation ps p).realDot v).sum,
    (ps.map fun p => (realDeviation ps p).b * (realDeviation ps p).realDot v).sum⟩

theorem realMean_eq (ps : List Rgb) : realMean ps = (sampleSum ps).ofInt.scale (1 / 16) := by
  simp only [realMean, sampleSum_eq, V3.ofInt, V3.scale, V3.map, Int.cast_list_sum, List.map_map, V3.mk.injEq]
  refine ⟨?_, ?_, ?_⟩ <;> rw [div_eq_inv_mul, one_div] <;> rfl

theorem realDeviation_eq (ps : List Rgb) (p : Rgb) :
    realDeviation ps p = (deviation ps p).ofInt.scale (1 / 16) := by
  simp only [realDeviation, realMean_eq, deviation, V3.ofSample, V3.ofInt, V3.scale, V3.zip, V3.map,
    Int.ofNat_eq_natCast, V3.mk.injEq]
  push_cast
  refine ⟨?_, ?_, ?_⟩ <;> ring

/-- The covariance is the scatter matrix over `16 * 16`. -/
theorem realCov_scale_ofInt (ps : List Rgb) (c : ℝ) (v : V3 Int) :
    realCov ps (v.ofInt.scale c) = (mulVec (scatter (centred ps)) v).ofInt.scale (c / 256) := by
  have hchannel : ∀ f : V3 Int → Int,
      (ps.map fun p => 1 / 16 * (f (deviation ps p) : ℝ) * (c * (1 / 16 * ((deviation ps p).dot v : ℝ)))).sum =
        c / 256 * (((centred ps).map fun d => f d * d.dot v).sum : Int) := fun f => by
    rw [Int.cast_list_sum, centred_eq, List.map_map, List.map_map, ← List.sum_map_mul_left]
    refine congrArg List.sum (List.map_congr_left fun p _ => ?_)
    simp only [Function.comp]
    push_cast
    ring
  simp only [realCov, realDeviation_eq, V3.realDot_scale, V3.scale_realDot, V3.ofInt_realDot, mulVec_scatter]
  exact (V3.mk.injEq ..).mpr ⟨hchannel V3.r, hchannel V3.g, hchannel V3.b⟩

/-! ## The iterates (R144) -/

theorem powerIterate_succ (m : V3 (V3 Int)) (n : Nat) (v : V3 Int) :
    powerIterate m (n + 1) v = mulVec m (powerIterate m n v) := by
  induction n generalizing v with
  | zero => rfl
  | succ n ih => exact ih (mulVec m v)

/-- The axis vectors of R144: the normalised (1,1,1), and five covariance steps, each normalised. -/
structure AxisSteps (ps : List Rgb) (a : Nat → V3 ℝ) : Prop where
  /-- The seed. -/
  seed : a 0 = ⟨1 / Real.sqrt 3, 1 / Real.sqrt 3, 1 / Real.sqrt 3⟩
  /-- No step is the zero vector, and each is normalised. -/
  step : ∀ k < 5, (realCov ps (a k)).norm ≠ 0 ∧ a (k + 1) = (realCov ps (a k)).normalise

/-- Each normalised iterate is a positive multiple of the integer one (R148). -/
theorem AxisSteps.eq_scale {ps : List Rgb} {a : Nat → V3 ℝ} (h : AxisSteps ps a) {k : Nat} (hk : k ≤ 5) :
    ∃ c > 0, a k = (powerIterate (scatter (centred ps)) k ⟨1, 1, 1⟩).ofInt.scale c := by
  induction k with
  | zero =>
    refine ⟨1 / Real.sqrt 3, by positivity, ?_⟩
    rw [h.seed]
    simp [powerIterate, V3.ofInt, V3.scale, V3.map]
  | succ k ih =>
    obtain ⟨c, hc, hak⟩ := ih (by omega)
    obtain ⟨hnorm, hnext⟩ := h.step k (by omega)
    have hpos : 0 < (realCov ps (a k)).norm := lt_of_le_of_ne (Real.sqrt_nonneg _) hnorm.symm
    refine ⟨(realCov ps (a k)).norm⁻¹ * (c / 256), by positivity, ?_⟩
    rw [hnext, V3.normalise_eq_scale, powerIterate_succ, ← V3.scale_scale, ← realCov_scale_ofInt, ← hak]

/-- The axis of R144 is the integer axis, normalised. -/
theorem AxisSteps.axis {ps : List Rgb} {a : Nat → V3 ℝ} (h : AxisSteps ps a) :
    ∃ c > 0, a 5 = (axis ps).ofInt.scale c ∧ c * c * ((axis ps).dot (axis ps) : ℝ) = 1 := by
  obtain ⟨c, hc, hac⟩ := h.eq_scale le_rfl
  obtain ⟨hnorm, hnext⟩ := h.step 4 (by decide)
  have hunit := V3.normalise_realDot_self hnorm
  rw [← hnext, hac, V3.realDot_scale, V3.scale_realDot, V3.ofInt_realDot, ← mul_assoc] at hunit
  exact ⟨c, hc, hac, hunit⟩

/-! ## Projections and endpoints (R145, R146) -/

theorem maxInt_isGreatest {ts : List Int} (h : ts ≠ []) : IsGreatest {t | t ∈ ts} (maxInt ts) := by
  cases ts with
  | nil => exact absurd rfl h
  | cons t ts => exact List.max?_eq_some_iff.1 (List.max?_cons' (x := t) (xs := ts))

theorem minInt_isLeast {ts : List Int} (h : ts ≠ []) : IsLeast {t | t ∈ ts} (minInt ts) := by
  cases ts with
  | nil => exact absurd rfl h
  | cons t ts => exact List.min?_eq_some_iff.1 (List.min?_cons' (x := t) (xs := ts))

/-- The projections of a block on a vector (R145). -/
def projections (ps : List Rgb) (v : V3 ℝ) : Set ℝ := {t | ∃ p ∈ ps, t = (V3.ofSample p).realDot v}

/-- The projection on a multiple of an integer vector, from the integer projection of the centred sample (R148). -/
noncomputable def realProjection (ps : List Rgb) (c : ℝ) (v : V3 Int) (t : Int) : ℝ :=
  (realMean ps).realDot (v.ofInt.scale c) + c / 16 * t

theorem realProjection_mono (ps : List Rgb) {c : ℝ} (hc : 0 < c) (v : V3 Int) : Monotone (realProjection ps c v) := by
  intro t u htu
  have : (t : ℝ) ≤ u := by exact_mod_cast htu
  unfold realProjection
  gcongr

theorem ofSample_realDot (ps : List Rgb) (c : ℝ) (v : V3 Int) (p : Rgb) :
    (V3.ofSample p).realDot (v.ofInt.scale c) = realProjection ps c v (v.dot (deviation ps p)) := by
  have hsub : (realDeviation ps p).realDot (v.ofInt.scale c) =
      (V3.ofSample p).realDot (v.ofInt.scale c) - (realMean ps).realDot (v.ofInt.scale c) := by
    simp only [realDeviation, V3.zip, V3.realDot]
    ring
  rw [realDeviation_eq, V3.realDot_scale, V3.scale_realDot, V3.ofInt_realDot] at hsub
  have hcomm : (deviation ps p).dot v = v.dot (deviation ps p) := by
    simp only [V3.dot, mul_comm]
  rw [hcomm] at hsub
  unfold realProjection
  linarith

theorem projections_eq_image (ps : List Rgb) (c : ℝ) (v : V3 Int) :
    projections ps (v.ofInt.scale c) = realProjection ps c v '' {t | t ∈ (centred ps).map v.dot} := by
  rw [centred_eq, List.map_map]
  ext x
  constructor
  · rintro ⟨p, hp, rfl⟩
    exact ⟨_, List.mem_map_of_mem hp, (ofSample_realDot ps c v p).symm⟩
  · rintro ⟨t, ht, rfl⟩
    obtain ⟨p, hp, rfl⟩ := List.mem_map.1 ht
    exact ⟨p, hp, (ofSample_realDot ps c v p).symm⟩

/-- An endpoint of the fit is the mean, offset along the normalised axis by the projection less the mean's. -/
theorem ofRatio_lineEndpoint {ps : List Rgb} {c : ℝ} (hunit : c * c * ((axis ps).dot (axis ps) : ℝ) = 1) (t : Int) :
    (lineEndpoint ps t).ofRatio =
      V3.zip (fun m x => m + x * (realProjection ps c (axis ps) t - (realMean ps).realDot ((axis ps).ofInt.scale c)))
        (realMean ps) ((axis ps).ofInt.scale c) := by
  have hcast : (((16 * (axis ps).dot (axis ps)).toNat : Nat) : ℝ) = 16 * ((axis ps).dot (axis ps) : ℝ) := by
    exact_mod_cast congrArg (Int.cast (R := ℝ)) (Int.toNat_of_nonneg (mul_nonneg (by decide) (V3.dot_self_nonneg _)))
  have hq : ((axis ps).dot (axis ps) : ℝ) ≠ 0 := right_ne_zero_of_mul_eq_one hunit
  have hchannel : ∀ s x : Int,
      ((s * (axis ps).dot (axis ps) + x * t : Int) : ℝ) / ((16 * (axis ps).dot (axis ps)).toNat : Nat) =
        1 / 16 * s + c * x * (c / 16 * t) := fun s x => by
    rw [hcast, div_eq_iff (mul_ne_zero (by norm_num) hq)]
    push_cast
    linear_combination (-(x * t : ℝ)) * hunit
  rw [realProjection, add_sub_cancel_left, realMean_eq]
  exact (V3.mk.injEq ..).mpr ⟨hchannel _ _, hchannel _ _, hchannel _ _⟩

/-- R148: with the axis of R144, the reference fit is the mean offset by the extreme projections (R146). -/
theorem AxisSteps.bc1Fit_eq {ps : List Rgb} {a : Nat → V3 ℝ} (h : AxisSteps ps a) (hne : ps ≠ []) {tmax tmin : ℝ}
    (hmax : IsGreatest (projections ps (a 5)) tmax) (hmin : IsLeast (projections ps (a 5)) tmin) :
    (bc1Fit ps).1.ofRatio =
        V3.zip (fun m x => m + x * (tmax - (realMean ps).realDot (a 5))) (realMean ps) (a 5) ∧
      (bc1Fit ps).2.ofRatio =
        V3.zip (fun m x => m + x * (tmin - (realMean ps).realDot (a 5))) (realMean ps) (a 5) := by
  obtain ⟨c, hc, hac, hunit⟩ := h.axis
  have haxis : Machine.axis ps ≠ ⟨0, 0, 0⟩ := fun hzero => by
    simp [hzero, V3.dot] at hunit
  have hts : (centred ps).map (Machine.axis ps).dot ≠ [] := by
    simpa [centred_eq] using hne
  have hmono := realProjection_mono ps hc (Machine.axis ps)
  rw [hac, projections_eq_image] at hmax hmin
  rw [hac, bc1Fit_of_axis_ne_zero haxis, hmax.unique (hmono.map_isGreatest (maxInt_isGreatest hts)),
    hmin.unique (hmono.map_isLeast (minInt_isLeast hts))]
  exact ⟨ofRatio_lineEndpoint hunit _, ofRatio_lineEndpoint hunit _⟩

/-- Settles O32: the square roots cancel, since the real axis is the integer axis over its norm. -/
theorem exactFitIsTheRealLineFit : Obligations.ExactFitIsTheRealLineFit := by
  intro ps a hlen mu dot norm pt dev cov hseed hstep tmax tmin hmaxMem hmaxLe hminMem hminLe
  have hne : ps ≠ [] := by
    rintro rfl
    cases hlen
  have hsteps : AxisSteps ps a := ⟨hseed, hstep⟩
  exact hsteps.bc1Fit_eq hne ⟨hmaxMem, by rintro _ ⟨p, hp, rfl⟩; exact hmaxLe p hp⟩
    ⟨hminMem, by rintro _ ⟨p, hp, rfl⟩; exact hminLe p hp⟩

end Sys2Proof.Machine
end

section
/-!
PROOFS. The BC3 alpha block: its two ramps, its extremes, and the index of a sample (42_bc3_alpha.md R180 to R187); and the
block of a tile with a sample outside the image (44_frame_encode.md R225).
-/

namespace Sys2Proof.Machine

/-! ## The ramps (R183, R184) -/

theorem rdiv_five_mul (a : Nat) : rdiv (5 * a) 5 = a := by
  unfold rdiv
  omega

/-- Two equal endpoints give that value and the fixed extremes. -/
theorem alphaPalette_self (a : Nat) : alphaPalette a a = [a, a, a, a, a, a, 0, 255] := by
  have hmix : ((List.range' 1 4).map fun i => rdiv ((5 - i) * a + i * a) 5) = List.replicate 4 a := by
    refine List.eq_replicate_iff.2 ⟨rfl, fun v hv => ?_⟩
    obtain ⟨i, hi, rfl⟩ := List.mem_map.1 hv
    have hle : i ≤ 5 := by have := List.mem_range'_1.1 hi; omega
    rw [← Nat.add_mul, Nat.sub_add_cancel hle, rdiv_five_mul]
  rw [alphaPalette, if_neg (lt_irrefl a), rampFixed, hmix]
  rfl

/-- The order of a greatest and a least sample selects the ramp; equal ones give that value and the fixed extremes. -/
theorem alphaPalette_of_le {a0 a1 : Nat} (h : a1 ≤ a0) :
    alphaPalette a0 a1 =
      if a1 < a0 then
        [a0, a1, rdiv (6 * a0 + a1) 7, rdiv (5 * a0 + 2 * a1) 7, rdiv (4 * a0 + 3 * a1) 7, rdiv (3 * a0 + 4 * a1) 7,
          rdiv (2 * a0 + 5 * a1) 7, rdiv (a0 + 6 * a1) 7]
      else [a0, a0, a0, a0, a0, a0, 0, 255] := by
  split_ifs with hlt
  · rw [alphaPalette, if_pos hlt]
    simp [ramp8, List.range']
  · rw [le_antisymm h (not_lt.1 hlt), alphaPalette_self]

/-! ## Indices (R185) -/

/-- The first entry of either ramp is the first endpoint. -/
theorem alphaPalette_eq_cons (a0 a1 : Nat) : ∃ ps, alphaPalette a0 a1 = a0 :: ps := by
  unfold alphaPalette
  split_ifs
  · exact ⟨_, rfl⟩
  · exact ⟨_, rfl⟩

/-- A cost of 0 is the least. -/
theorem argmin_zero_cons (costs : List Nat) : argmin (0 :: costs) = 0 := by
  have hmin : minNat (0 :: costs) = 0 := Nat.le_zero.1 (minNat_le List.mem_cons_self)
  rw [argmin, hmin, List.idxOf_cons_self]

/-- A sample equal to the first endpoint has the index 0. -/
theorem alphaIndex_first (a0 a1 : Nat) : alphaIndex (alphaPalette a0 a1) a0 = 0 := by
  obtain ⟨ps, hps⟩ := alphaPalette_eq_cons a0 a1
  rw [alphaIndex, hps, List.map_cons, sub_self, Int.natAbs_zero, argmin_zero_cons]

/-- The index stored for a sample is its nearest palette entry, the lowest on a tie. -/
theorem alphaIndex_field {als : List Nat} {i a : Nat} (ha : als[i]? = some a) :
    NearestLowest (fun p : Nat => ((a : Int) - (p : Int)).natAbs) (alphaPalette (maxNat als) (minNat als))
      (packFields 3 (alphaIndices als) / 8 ^ i % 8) := by
  obtain ⟨hi, rfl⟩ := List.getElem?_eq_some_iff.1 ha
  have hfield := packFields_field (alphaIndices_lt als) (i := i) (by rwa [length_alphaIndices])
  rw [Nat.shiftRight_eq_div_pow, Nat.pow_mul] at hfield
  rw [show packFields 3 (alphaIndices als) / 8 ^ i % 8 = _ from hfield]
  simp only [alphaIndices, List.getElem_map, alphaIndex]
  exact argmin_nearestLowest _ (alphaPalette_ne_nil _ _)

/-! ## The extremes (R182) -/

theorem minNat_le_maxNat {as : List Nat} (h : as ≠ []) : minNat as ≤ maxNat as :=
  minNat_le (maxNat_mem h)

/-- The extremes differ exactly when two samples do. -/
theorem minNat_lt_maxNat_iff {as : List Nat} (h : as ≠ []) :
    minNat as < maxNat as ↔ ∃ a ∈ as, ∃ b ∈ as, a ≠ b := by
  constructor
  · exact fun hlt => ⟨_, minNat_mem h, _, maxNat_mem h, hlt.ne⟩
  · rintro ⟨a, ha, b, hb, hne⟩
    have hmin_a := minNat_le ha
    have hmin_b := minNat_le hb
    have hmax_a := le_maxNat ha
    have hmax_b := le_maxNat hb
    omega

/-- In a flat block every sample is the first endpoint, so the index field is 0. -/
theorem packFields_alphaIndices_flat {als : List Nat} (h : ∀ a ∈ als, ∀ b ∈ als, a = b) :
    packFields 3 (alphaIndices als) = 0 := by
  have hzero : alphaIndices als = List.replicate als.length 0 := by
    rw [alphaIndices, List.eq_replicate_iff]
    refine ⟨List.length_map _, fun k hk => ?_⟩
    obtain ⟨a, ha, rfl⟩ := List.mem_map.1 hk
    rw [h a ha _ (maxNat_mem (List.ne_nil_of_mem ha)), alphaIndex_first]
  rw [hzero, packFields_replicate_zero]

/-- Settles O41: the endpoints are the extremes, which differ exactly when two samples do, and a sample equal to the
first endpoint has the index 0. -/
theorem bc3aFlatExactlyWhenEndpointsEqual : Obligations.Bc3aFlatExactlyWhenEndpointsEqual := by
  intro als hlen hbyte
  obtain ⟨hfirst, hsecond, hword⟩ := bc3a_fields hlen hbyte
  have hne : als ≠ [] := List.ne_nil_of_length_pos (by omega)
  rw [hfirst, hsecond, hword]
  exact ⟨minNat_lt_maxNat_iff hne, packFields_alphaIndices_flat⟩

/-! ## BC3A_ENC (R180, R186) -/

theorem length_alphaSamples (s : State) : s.alphaSamples.length = 16 := by
  simp [State.alphaSamples]

theorem getElem?_alphaSamples (s : State) {i : Nat} (hi : i < 16) :
    s.alphaSamples[i]? = some (s.inByte i).toNat := by
  simp [State.alphaSamples, State.inBytes, hi]

theorem mem_alphaSamples {s : State} {a : Nat} : a ∈ s.alphaSamples ↔ ∃ i < 16, (s.inByte i).toNat = a := by
  simp [State.alphaSamples, State.inBytes]

/-- Settles O40: the output is the block of the samples, whose three fields are their extremes and the packed indices. -/
theorem bc3aEncStoresExtremesAndNearestIndices : Obligations.Bc3aEncStoresExtremesAndNearestIndices := by
  intro s hlen
  obtain ⟨hcompletes, hstops⟩ := exec_block (i := .bc3aEnc) (offs := List.range 16)
    (f := fun s => bc3a s.alphaSamples) rfl rfl hlen (by decide)
  refine ⟨fun ⟨k, hk, hunwritten⟩ => hstops ⟨k, List.mem_range.2 hk, hunwritten⟩, fun hwritten => ?_⟩
  obtain ⟨t, ht, hdone⟩ := hcompletes fun k hk => hwritten k (List.mem_range.1 hk)
  have hsample : ∀ i < 16, (s.inByte i).toNat ∈ s.alphaSamples := fun i hi => mem_alphaSamples.2 ⟨i, hi, rfl⟩
  have hne : s.alphaSamples ≠ [] := List.ne_nil_of_mem (hsample 0 (by decide))
  have hbyte : ∀ a ∈ s.alphaSamples, a ≤ 255 := fun a ha => by
    obtain ⟨i, -, rfl⟩ := mem_alphaSamples.1 ha
    exact Nat.le_of_lt_succ (s.inByte i).isLt
  obtain ⟨hfirst, hsecond, hword⟩ := bc3a_fields (length_alphaSamples s) hbyte
  refine ⟨t, _, maxNat s.alphaSamples, minNat s.alphaSamples, ht, hdone, length_bc3a _, hfirst, hsecond,
    mem_alphaSamples.1 (maxNat_mem hne), mem_alphaSamples.1 (minNat_mem hne),
    fun i hi => ⟨minNat_le (hsample i hi), le_maxNat (hsample i hi)⟩, fun i hi => ?_⟩
  have hnearest := alphaIndex_field (getElem?_alphaSamples s hi)
  rwa [← hword, alphaPalette_of_le (minNat_le_maxNat hne)] at hnearest

/-! ## A partly covered tile (R225) -/

theorem samplePixel_outside {w h bx y k : Nat} (hout : w ≤ 4 * bx + k % 4 ∨ h ≤ 4 * y + k / 4) :
    samplePixel w h bx y k = none :=
  if_neg (by omega)

theorem length_gatherAlpha (s : State) (bx y : Nat) : (gatherAlpha s bx y).length = 16 := by
  simp [gatherAlpha]

theorem gatherAlpha_le (s : State) (bx y : Nat) : ∀ a ∈ gatherAlpha s bx y, a ≤ 255 := by
  intro a ha
  obtain ⟨k, -, rfl⟩ := List.mem_map.1 ha
  split
  · exact Nat.le_of_lt_succ (BitVec.isLt _)
  · exact Nat.zero_le _

/-- A sample outside the image is 0. -/
theorem zero_mem_gatherAlpha {s : State} {bx y k : Nat} (hk : k < 16)
    (hout : s.width ≤ 4 * bx + k % 4 ∨ s.height ≤ 4 * y + k / 4) : 0 ∈ gatherAlpha s bx y :=
  List.mem_map.2 ⟨k, List.mem_range.2 hk, by rw [samplePixel_outside hout]⟩

/-- Settles O51: a sample outside the image is 0, which is then the least. -/
theorem partlyCoveredBlockHasZeroAlpha : Obligations.PartlyCoveredBlockHasZeroAlpha := by
  intro s bx y k hk hout
  obtain ⟨-, hsecond, -⟩ := bc3a_fields (length_gatherAlpha s bx y) (gatherAlpha_le s bx y)
  rw [hsecond]
  exact Nat.le_zero.1 (minNat_le (zero_mem_gatherAlpha hk hout))

end Sys2Proof.Machine
end

section
/-!
PROOFS. The packers and unpackers: the fields of a word, the bytes they are read from and written to, and the commands
(43_bitpack.md R200 to R206).
-/

namespace Sys2Proof.Machine

/-! ## Fields of a word (R200, R201) -/

/-- The fields of a word are its digits to the base `2^w`. -/
theorem unpackFields_eq (w word : Nat) :
    unpackFields w word = (List.range 16).map fun i => word / (2 ^ w) ^ i % 2 ^ w := by
  simp only [unpackFields, Nat.and_two_pow_sub_one_eq_mod, Nat.shiftRight_eq_div_pow, Nat.pow_mul]

/-- Packing the `n` lowest fields of a word keeps what lies in them. -/
theorem packFields_digits (w n word : Nat) :
    packFields w ((List.range n).map fun i => word / (2 ^ w) ^ i % 2 ^ w) = word % (2 ^ w) ^ n := by
  induction n generalizing word with
  | zero => simp [packFields_nil, Nat.mod_one]
  | succ n ih =>
    have htail : (List.range n).map ((fun i => word / (2 ^ w) ^ i % 2 ^ w) ∘ Nat.succ) =
        (List.range n).map fun i => word / 2 ^ w / (2 ^ w) ^ i % 2 ^ w :=
      List.map_congr_left fun i _ => by
        rw [Function.comp_apply, Nat.succ_eq_add_one, Nat.pow_succ', Nat.div_div_eq_div_mul]
    rw [List.range_succ_eq_map, List.map_cons, List.map_map, packFields_cons, htail, ih, Nat.pow_succ', Nat.mod_mul,
      Nat.pow_zero, Nat.div_one]

theorem packFields_unpackFields {w word : Nat} (h : word < 2 ^ (16 * w)) :
    packFields w (unpackFields w word) = word := by
  rw [unpackFields_eq, packFields_digits, ← Nat.pow_mul, Nat.mul_comm, Nat.mod_eq_of_lt h]

/-- Settles O44: a field is a digit to the base `2^w`, so either direction holds for every width. -/
theorem packAndUnpackAreInverse : Obligations.PackAndUnpackAreInverse :=
  fun _ _ => ⟨fun _ hlen hfits => unpackFields_packFields hlen hfits, fun _ hword => packFields_unpackFields hword⟩

/-! ## A block operation that reads all of its input (R343) -/

/-- A block operation that reads every input byte stops on one that is not written, and else completes with the output it
computes. -/
theorem exec_wholeBlock {i : Instr} {need : Nat} {f : State → List Byte} {s : State} {P : List Byte → Prop}
    (hc : command i s = blockOp need f s)
    (hr : commandReads i s = readsAfterChecks (blockOp need f s) (List.range need))
    (hn : s.inlen = need) (h128 : need ≤ 128) (hP : P (f s)) :
    ((∃ k < need, s.written k = false) → exec i s = .fault .unwrittenInput) ∧
      ((∀ k < need, s.written k) → ∃ t out, exec i s = .next t ∧ Completes s t s.x out ∧ P out) := by
  obtain ⟨hcompletes, hstops⟩ := exec_block hc hr hn h128
  refine ⟨fun ⟨k, hk, hunwritten⟩ => hstops ⟨k, List.mem_range.2 hk, hunwritten⟩, fun hwritten => ?_⟩
  obtain ⟨t, ht, hdone⟩ := hcompletes fun k hk => hwritten k (List.mem_range.1 hk)
  exact ⟨t, f s, ht, hdone, hP⟩

/-! ## PACK2 and PACK3 (R202, R203, R206) -/

@[simp] theorem length_packBytes (w : Nat) (s : State) : (packBytes w s).length = 2 * w :=
  length_bytesLE _ _

theorem maskedInputs_eq (w : Nat) (s : State) :
    maskedInputs w s = (s.inBytes 0 16).map fun b => b.toNat % 2 ^ w := by
  simp only [maskedInputs, Nat.and_two_pow_sub_one_eq_mod]

@[simp] theorem length_maskedInputs (w : Nat) (s : State) : (maskedInputs w s).length = 16 := by
  simp [maskedInputs]

theorem maskedInputs_lt {w : Nat} {s : State} : ∀ v ∈ maskedInputs w s, v < 2 ^ w := by
  intro v hv
  rw [maskedInputs_eq] at hv
  obtain ⟨b, -, rfl⟩ := List.mem_map.1 hv
  exact Nat.mod_lt _ (by positivity)

/-- The output bytes hold all of the packed word. -/
theorem le_packBytes (w : Nat) (s : State) : le (packBytes w s) = packFields w (maskedInputs w s) := by
  have hlt := packFields_lt (maskedInputs_lt (w := w) (s := s))
  have hsize : 2 ^ (w * 16) = 256 ^ (2 * w) := by
    rw [show 256 = 2 ^ 8 from rfl, ← Nat.pow_mul]
    congr 1
    omega
  rw [length_maskedInputs, hsize] at hlt
  exact le_bytesLE_of_lt hlt

/-- Field `i` of the output is input byte `i`, masked. -/
theorem packBytes_field (w : Nat) (s : State) {i : Nat} (hi : i < 16) :
    le (packBytes w s) / (2 ^ w) ^ i % 2 ^ w = (s.inByte i).toNat % 2 ^ w := by
  have hfield := packFields_field (maskedInputs_lt (w := w) (s := s)) (i := i) (by rwa [length_maskedInputs])
  rw [Nat.shiftRight_eq_div_pow, Nat.pow_mul] at hfield
  rw [le_packBytes, hfield]
  simp [maskedInputs_eq, State.getElem_inBytes]

/-- Settles O42: the output is the packed word, whose fields are the masked input bytes. -/
theorem packPutsMaskedFields : Obligations.PackPutsMaskedFields := by
  intro s hlen
  obtain ⟨hstops2, hcompletes2⟩ := exec_wholeBlock (i := .pack2) (f := packBytes 2)
    (P := fun out => out.length = 4 ∧ ∀ i < 16, le out / 4 ^ i % 4 = (s.inByte i).toNat % 4)
    rfl rfl hlen (by decide) ⟨length_packBytes 2 s, fun _ hi => packBytes_field 2 s hi⟩
  obtain ⟨hstops3, hcompletes3⟩ := exec_wholeBlock (i := .pack3) (f := packBytes 3)
    (P := fun out => out.length = 6 ∧ ∀ i < 16, le out / 8 ^ i % 8 = (s.inByte i).toNat % 8)
    rfl rfl hlen (by decide) ⟨length_packBytes 3 s, fun _ hi => packBytes_field 3 s hi⟩
  exact ⟨fun h => ⟨hstops2 h, hstops3 h⟩, fun h => ⟨hcompletes2 h, hcompletes3 h⟩⟩

/-! ## UNPACK2 and UNPACK3 (R204, R205) -/

@[simp] theorem length_unpackBytes (w : Nat) (s : State) : (unpackBytes w s).length = 16 := by
  simp [unpackBytes, unpackFields]

/-- Output byte `i` is field `i` of the input word. -/
theorem getElem?_unpackBytes (w : Nat) (s : State) {i : Nat} (hi : i < 16) :
    (unpackBytes w s)[i]? = some (BitVec.ofNat 8 (s.memRead 0 (2 * w) / (2 ^ w) ^ i % 2 ^ w)) := by
  simp [unpackBytes, unpackFields_eq, hi]

/-- A little-endian read is that of its first bytes and, above them, that of the rest (R8). -/
theorem State.memRead_add (s : State) (o m n : Nat) :
    s.memRead o (m + n) = s.memRead o m + 256 ^ m * s.memRead (o + m) n := by
  have happend : s.inBytes o (m + n) = s.inBytes o m ++ s.inBytes (o + m) n := by
    simp only [State.inBytes, ← List.map_append, List.range'_append_1]
  rw [State.memRead, happend, le_append, State.length_inBytes]
  rfl

/-- Settles O43: the output bytes are the fields of the input word, which UNPACK3 reads as 32 and 16 bits. -/
theorem unpackGivesFields : Obligations.UnpackGivesFields := by
  refine ⟨fun s hlen => ?_, fun s hlen => ?_⟩
  · exact exec_wholeBlock (f := unpackBytes 2) rfl rfl hlen (by decide)
      ⟨length_unpackBytes 2 s, fun _ hi => getElem?_unpackBytes 2 s hi⟩
  · have hword : s.memRead 0 4 + 2 ^ 32 * s.memRead 4 2 = s.memRead 0 6 := (s.memRead_add 0 4 2).symm
    rw [hword]
    exact exec_wholeBlock (f := unpackBytes 3) rfl rfl hlen (by decide)
      ⟨length_unpackBytes 3 s, fun _ hi => getElem?_unpackBytes 3 s hi⟩

end Sys2Proof.Machine
end

section
/-!
PROOFS. Frame encode: its errors, its header beside that of HDR_BUILD, and the frame it writes for each format
(44_frame_encode.md R220 to R228).
-/

namespace Sys2Proof.Machine

/-! ## The commands of ENC_FRAME (R221) -/

section Encode

variable {s : State} {i : Instr} {f : Fmt}

/-- The command that encodes a frame of each format. -/
inductive EncodeCommand : Instr → Fmt → Prop where
  | rgba : EncodeCommand .encFrameRgba .rgba
  | dxt1 : EncodeCommand .encFrameDxt1 .dxt1
  | dxt5 : EncodeCommand .encFrameDxt5 .dxt5

theorem EncodeCommand.command (hi : EncodeCommand i f) : command i s = encFrame f s := by
  cases hi <;> rfl

theorem EncodeCommand.reads (hi : EncodeCommand i f) : commandReads i s = encFrameReads f s := by
  cases hi <;> rfl

/-- An error of ENC_FRAME is raised whether or not the image is written: every check comes before the first read (R344). -/
theorem EncodeCommand.raises {e : Err} (hi : EncodeCommand i f) (h : encFrame f s = .error e) :
    exec i s = .next { s with status := statusErr e } :=
  exec_raises_unread (by cases hi <;> decide) (hi.command.trans h)

/-- An encode whose checks pass stops on a byte of the image that it reads and the host has not written, and else
completes with the header and the payload (R220, R343). -/
theorem EncodeCommand.stops_or_completes (hi : EncodeCommand i f) (hw : 1 ≤ s.width) (hh : 1 ≤ s.height)
    (hlen : s.inlen = 4 * s.width * s.height) (hfits : s.inlen ≤ s.inst.ibuf.bytes)
    (hlinear : linearSizeFits s.width s.height f = true)
    (hout : 128 + payloadLength s.width s.height f ≤ s.inst.obuf.bytes) :
    ((∃ k < s.inlen, (f = .dxt1 → k % 4 ≠ 3) ∧ s.written k = false) → exec i s = .fault .unwrittenInput) ∧
      ((∀ k < s.inlen, (f = .dxt1 → k % 4 ≠ 3) → s.written k) →
        ∃ t, exec i s = .next t ∧ Completes s t s.x (buildHeader s.width s.height f ++ framePayload f s)) := by
  have hr := encFrame_ok hfits (by omega) (by omega) (hlen ▸ s.inlen_lt) hlen hlinear hout
  refine ⟨fun ⟨k, hk, h3, hunwritten⟩ => ?_, fun hwritten => ?_⟩
  · exact exec_stops (hi.reads ▸ mem_encFrameReads_ok hr hk h3) hunwritten
  · refine exec_completes (hi.command.trans hr) fun k hk => ?_
    obtain ⟨hlt, h3⟩ := mem_encFrameReads (hi.reads ▸ hk)
    exact hwritten k hlt h3

end Encode

/-! ## `EncodeError` (R222) -/

/-- The `LINEARSIZE` check in one form for the three formats: a lossless frame has linear size 0. -/
theorem linearSizeFits_iff {w h : Nat} {f : Fmt} : linearSizeFits w h f = true ↔ linearSize w h f < 2 ^ 32 := by
  cases f with
  | rgba => simp [linearSizeFits, linearSize, blockBytes]
  | dxt1 => exact decide_eq_true_iff
  | dxt5 => exact decide_eq_true_iff

/-- Once the input capacity is met, the four checks of R222 raise one error. -/
theorem encFrame_encode {f : Fmt} {s : State} (hfits : s.inlen ≤ s.inst.ibuf.bytes)
    (h : s.width = 0 ∨ s.height = 0 ∨ 2 ^ 32 ≤ 4 * s.width * s.height ∨ s.inlen ≠ 4 * s.width * s.height ∨
      2 ^ 32 ≤ linearSize s.width s.height f) : encFrame f s = .error .encode := by
  simp only [encFrame]
  rw [if_neg hfits.not_gt]
  split_ifs with hzero hsize hlen hlinear hout
  · rfl
  · rfl
  · rfl
  · rfl
  all_goals
    have hlinear32 := linearSizeFits_iff.1 (by simpa using hlinear)
    omega

/-- Settles O48: the obligation's last case is the linear size, with the format's bytes for each block. -/
theorem encFrameEncodeErrors : Obligations.EncFrameEncodeErrors := by
  intro s i blockSize hformat hfits herror
  obtain ⟨f, hi, rfl⟩ : ∃ f, EncodeCommand i f ∧ blockSize = blockBytes f := by
    simp only [List.mem_cons, Prod.mk.injEq, List.not_mem_nil, or_false] at hformat
    obtain ⟨rfl, rfl⟩ | ⟨rfl, rfl⟩ | ⟨rfl, rfl⟩ := hformat
    · exact ⟨_, .rgba, rfl⟩
    · exact ⟨_, .dxt1, rfl⟩
    · exact ⟨_, .dxt5, rfl⟩
  exact hi.raises (encFrame_encode hfits herror)

/-! ## The header of a frame (R222) -/

/-- The checks of ENC_FRAME imply those of HDR_BUILD: the pitch of a lossless image is at most its size. -/
theorem hdrBuild_ok_of_encFrame {f : Fmt} {s : State} {r : Result} (h : encFrame f s = .ok r) :
    hdrBuild f s = .ok { x := s.x, out := buildHeader s.width s.height f } := by
  obtain ⟨-, hw, hh, hsize, -, hlinear, -⟩ := encFrame_inv h
  refine hdrBuild_ok (by omega) (by omega) ?_
  cases f with
  | rgba => exact (Nat.le_mul_of_pos_right _ (by omega)).trans_lt hsize
  | dxt1 => exact linearSizeFits_iff.1 hlinear
  | dxt5 => exact linearSizeFits_iff.1 hlinear

/-- Settles O50: the frame begins with the bytes that are all of the build's output. -/
theorem encFrameHeaderIsHdrBuilds : Obligations.EncFrameHeaderIsHdrBuilds := by
  intro s t u i j hformat ht hu hok
  obtain ⟨f, hi, hj⟩ : ∃ f, EncodeCommand i f ∧ BuildCommand j f := by
    simp only [List.mem_cons, Prod.mk.injEq, List.not_mem_nil, or_false] at hformat
    obtain ⟨rfl, rfl⟩ | ⟨rfl, rfl⟩ | ⟨rfl, rfl⟩ := hformat
    · exact ⟨_, .rgba, .rgba⟩
    · exact ⟨_, .dxt1, .dxt1⟩
    · exact ⟨_, .dxt5, .dxt5⟩
  obtain rfl := exec_inv ht
  obtain rfl := exec_inv hu
  rw [hi.command] at hok ⊢
  obtain ⟨r, hr⟩ := finish_ok_of_status hok
  obtain ⟨-, -, -, -, -, -, -, rfl⟩ := encFrame_inv hr
  rw [hr, hj.command, hdrBuild_ok_of_encFrame hr]
  refine ⟨statusOk_eq, fun k hk => ?_⟩
  simp only [State.finish_ok, State.done_obuf, Memory.get?_ofBytes_zero]
  exact List.getElem?_append_left (by rwa [length_buildHeader])

/-! ## The bytes of a frame (R220) -/

theorem slice_frame_header (w h : Nat) (f : Fmt) (payload : List Byte) :
    slice (buildHeader w h f ++ payload) 0 128 = buildHeader w h f := by
  rw [slice_append_left (by simp), slice_all (by simp)]

theorem slice_frame_payload (w h : Nat) (f : Fmt) (payload : List Byte) (o n : Nat) :
    slice (buildHeader w h f ++ payload) (128 + o) n = slice payload o n := by
  rw [slice_append_right (by simp), length_buildHeader, Nat.add_sub_cancel_left]

/-- Settles O46: the payload is the run of input bytes. -/
theorem encFrameRgbaCopiesTheImage : Obligations.EncFrameRgbaCopiesTheImage := by
  intro s hw hh hlen hfits hout
  obtain ⟨hstops, hcompletes⟩ := EncodeCommand.rgba.stops_or_completes hw hh hlen hfits rfl
    (hlen ▸ hout : 128 + 4 * s.width * s.height ≤ s.inst.obuf.bytes)
  refine ⟨fun ⟨k, hk, hunwritten⟩ => hstops ⟨k, hk, by simp, hunwritten⟩, fun hwritten => ?_⟩
  obtain ⟨t, ht, hdone⟩ := hcompletes fun k hk _ => hwritten k hk
  refine ⟨t, _, ht, hdone, by simp [payloadLength], slice_frame_header _ _ _ _, fun j hj => ?_⟩
  rw [List.getElem?_append_right (by simp), length_buildHeader, Nat.add_sub_cancel_left]
  simp [framePayload, State.inBytes, hj]

/-! ## The samples of a tile (R225) -/

/-- Channel `c` of sample `k` of tile `(bx, y)`: a byte of the image, 0 outside it (R53, R225). -/
def tileChannel (s : State) (bx y c k : Nat) : Nat :=
  if 4 * bx + k % 4 < s.width ∧ 4 * y + k / 4 < s.height then
    (s.inByte (4 * ((4 * y + k / 4) * s.width + (4 * bx + k % 4)) + c)).toNat
  else 0

theorem gatherRgb_eq (s : State) (bx y : Nat) : gatherRgb s bx y =
    (List.range 16).map fun k => ⟨tileChannel s bx y 0 k, tileChannel s bx y 1 k, tileChannel s bx y 2 k⟩ := by
  refine List.map_congr_left fun k _ => ?_
  by_cases hin : 4 * bx + k % 4 < s.width ∧ 4 * y + k / 4 < s.height
  · simp only [samplePixel, tileChannel, if_pos hin]
    rfl
  · simp only [samplePixel, tileChannel, if_neg hin]

theorem gatherAlpha_eq (s : State) (bx y : Nat) : gatherAlpha s bx y = (List.range 16).map (tileChannel s bx y 3) := by
  refine List.map_congr_left fun k _ => ?_
  by_cases hin : 4 * bx + k % 4 < s.width ∧ 4 * y + k / 4 < s.height
  · simp only [samplePixel, tileChannel, if_pos hin]
  · simp only [samplePixel, tileChannel, if_neg hin]

/-! ## The compressed payloads (R226 to R228) -/

section Compressed

variable {i : Instr} {f : Fmt} {c : CompTag} {size : Nat}

theorem CompressedFormat.encode (hf : CompressedFormat i f c size) : EncodeCommand i f := by
  cases hf
  · exact .dxt1
  · exact .dxt5

theorem CompressedFormat.blockBytes (hf : CompressedFormat i f c size) : blockBytes f = size := by
  cases hf <;> rfl

/-- Only DXT1 leaves the alpha bytes unread (R344). -/
theorem CompressedFormat.reads_iff (hf : CompressedFormat i f c size) {k : Nat} :
    (f = .dxt1 → k % 4 ≠ 3) ↔ f = .dxt5 ∨ k % 4 ≠ 3 := by
  cases hf <;> simp

/-- The block of a tile: for DXT5 the alpha block, then the colour block (R227, R228). -/
theorem CompressedFormat.blockOf (hf : CompressedFormat i f c size) (s : State) (bx y : Nat) :
    blockOf s bx y f =
      (if f = .dxt5 then bc3a (gatherAlpha s bx y) else []) ++ bc1 s.inst.fit (gatherRgb s bx y) := by
  cases hf <;> rfl

/-- Every tile's block stands at its offset in the payload (R226). -/
theorem CompressedFormat.slice_framePayload (hf : CompressedFormat i f c size) (s : State) {bx y : Nat}
    (hy : y < ceil4 s.height) (hx : bx < ceil4 s.width) :
    slice (framePayload f s) ((y * ceil4 s.width + bx) * size) size = Machine.blockOf s bx y f := by
  have hpayload : framePayload f s = blockPayload f s := by cases hf <;> rfl
  rw [hpayload, ← hf.blockBytes, slice_blockPayload s f hy hx]

end Compressed

/-- Settles O47: the obligation's `channel` is `tileChannel`, from which each tile's samples are gathered. -/
theorem encFrameCompressedBlocks : Obligations.EncFrameCompressedBlocks := by
  intro s i f size hformat hw hh hlen hfits bw bh hlinear hout channel
  obtain ⟨c, hf⟩ : ∃ c, CompressedFormat i f c size := by
    obtain ⟨rfl, rfl, rfl⟩ | ⟨rfl, rfl, rfl⟩ := hformat
    · exact ⟨_, .dxt1⟩
    · exact ⟨_, .dxt5⟩
  have hpayload : payloadLength s.width s.height f = bw * bh * size := hf.payloadLength _ _
  obtain ⟨hstops, hcompletes⟩ := hf.encode.stops_or_completes hw hh hlen hfits (hf.linearSizeFits hlinear)
    (by rwa [hpayload])
  simp only [hf.reads_iff] at hstops hcompletes
  refine ⟨hstops, fun hwritten => ?_⟩
  obtain ⟨t, ht, hdone⟩ := hcompletes hwritten
  refine ⟨t, _, ht, hdone, by simp [hpayload], slice_frame_header _ _ _ _, fun y hy bx hx => ?_⟩
  rw [slice_frame_payload]
  calc slice (framePayload f s) ((y * bw + bx) * size) size
      = blockOf s bx y f := hf.slice_framePayload s hy hx
    _ = _ := by rw [hf.blockOf, gatherAlpha_eq, gatherRgb_eq]; rfl

end Sys2Proof.Machine
end

section
/-!
PROOFS. Frame decode: what it reads before each check, its `FormatError` and `SizeError`, and the image it writes for each
kind of stream (45_frame_decode.md R251 to R268).
-/

namespace Sys2Proof.Machine

/-! ## What a decode reads (R344) -/

/-- Of an accepted header DEC_FRAME has read the magic, and reads on by `decodeReads`. -/
theorem mem_decFrameReads_accepted {s : State} {k : Nat} (h : HeaderAccepted s) :
    k ∈ commandReads .decFrame s ↔ k < 4 ∨ k ∈ decodeReads s s.header := by
  have hmagic : s.inBytes 0 4 = magic := h.magic
  rw [show commandReads .decFrame s = headerReads (decodeReads s) s from rfl, mem_headerReads]
  simp [h.fits, h.long, hmagic]

/-- A decode that no check stops before the payload stops on any input byte that is not written (R343). -/
theorem decFrame_stops {s : State} (h : HeaderAccepted s) (hw : s.memRead 16 4 ≠ 0) (hh : s.memRead 12 4 ≠ 0)
    (hcheck : payloadCheck s s.header = none) (hunwritten : ∃ k < s.inlen, s.written k = false) :
    exec .decFrame s = .fault .unwrittenInput := by
  obtain ⟨k, hk, hunwritten⟩ := hunwritten
  exact exec_stops ((mem_decFrameReads h hw hh).2 (by simp only [hcheck, true_and]; omega)) hunwritten

/-! ## `SizeError` of the payload (R261) -/

theorem uncompressedCheck_length {ob bits n w h : Nat} (hbits : bits = 24 ∨ bits = 32)
    (hn : n ≠ w * h * (bits / 8)) : uncompressedCheck ob bits n w h = some .size := by
  rw [uncompressedCheck, if_neg (by omega), if_pos hn]

/-- Settles O56: on either branch the payload's length is checked before anything that is not in the header. -/
theorem decFramePayloadLengthErrors : Obligations.DecFramePayloadLengthErrors := by
  intro s tag stage off need haccepted hresolves w h blocks hw hh hkind hlen hws
  refine decFrame_raises_payloadCheck (e := .size) haccepted hw hh ?_ hws
  rw [payloadCheck_eq haccepted hresolves]
  obtain ⟨rfl, rfl⟩ | ⟨rfl, rfl⟩ | ⟨rfl, rfl⟩ | ⟨rfl, hbits, rfl⟩ | ⟨rfl, hbits, rfl⟩ := hkind
  · exact compressedCheck_length hlen
  · exact compressedCheck_length hlen
  · exact compressedCheck_length hlen
  · exact uncompressedCheck_length (.inl hbits) (by rw [hbits]; exact hlen)
  · exact uncompressedCheck_length (.inr hbits) (by rw [hbits]; exact hlen)

/-! ## `FormatError` (R253, R254, R265) -/

/-- A zero dimension is refused once height, width and bit count are read (R253). -/
theorem decFrame_raises_zeroDimension {s : State} (h : HeaderAccepted s)
    (hzero : s.memRead 16 4 = 0 ∨ s.memRead 12 4 = 0)
    (hws : ∀ k, (12 ≤ k ∧ k < 20) ∨ (88 ≤ k ∧ k < 92) → s.written k) :
    exec .decFrame s = .next { s with status := 0x81#32 } := by
  have hzero : s.header.width = 0 ∨ s.header.height = 0 := hzero
  refine exec_raises (e := .format) ?_ fun k hk => ?_
  · rw [command, decFrame, h.inputHeader]
    exact if_pos hzero
  · rw [mem_decFrameReads_accepted h, mem_decodeReads] at hk
    obtain hmagic | hsize | hbits | ⟨hdims, -⟩ := hk
    · exact h.written k hmagic
    · exact hws k (.inl hsize)
    · exact hws k (.inr hbits)
    · exact absurd hzero (not_or.2 hdims)

theorem uncompressedCheck_bitCount {ob bits n w h : Nat} (h24 : bits ≠ 24) (h32 : bits ≠ 32) :
    uncompressedCheck ob bits n w h = some .format := if_pos ⟨h24, h32⟩

/-- The tag "DX10", and no tag with another bit count, fail the first check of their branch (R254, R265). -/
theorem payloadCheck_format {s : State} {tag : Option Tag} {stage off : Nat} (h : HeaderAccepted s)
    (hr : Resolves s.inst.alt.off (s.inBytes 0 128) tag stage off)
    (hkind : tag = some .dx10 ∨ (tag = none ∧ s.memRead 88 4 ≠ 24 ∧ s.memRead 88 4 ≠ 32)) :
    payloadCheck s s.header = some .format := by
  rw [payloadCheck_eq h hr]
  obtain rfl | ⟨rfl, h24, h32⟩ := hkind
  · rfl
  · exact uncompressedCheck_bitCount h24 h32

/-- Settles O55: the dimensions are checked before the resolver reads the header, and the branch's first check after. -/
theorem decFrameFormatErrors : Obligations.DecFrameFormatErrors := by
  intro s tag stage off haccepted hresolves
  refine ⟨fun ⟨k, hk, hunwritten⟩ => ?_, decFrame_raises_zeroDimension haccepted,
    fun hw hh ⟨k, hk, hunwritten⟩ => ?_, fun hkind hws => ?_⟩
  · refine exec_stops ((mem_decFrameReads_accepted haccepted).2 (.inr (mem_decodeReads.2 ?_))) hunwritten
    exact hk.imp_right .inl
  · exact exec_stops ((mem_decFrameReads haccepted hw hh).2 (.inl hk)) hunwritten
  · by_cases hzero : s.memRead 16 4 = 0 ∨ s.memRead 12 4 = 0
    · exact decFrame_raises_zeroDimension haccepted hzero fun k hk => hws k (by omega)
    · obtain ⟨hw, hh⟩ := not_or.1 hzero
      exact decFrame_raises_payloadCheck (e := .format) haccepted hw hh
        (payloadCheck_format haccepted hresolves hkind) hws

/-! ## The compressed branch (R260 to R264) -/

theorem compBlockBytes_eq (c : CompTag) : compBlockBytes c = if c = .dxt1 then 8 else 16 := by
  cases c <;> rfl

/-- Settles O54: with the checks passed the whole input is read, and what `DECOMP` answers decides. -/
theorem decFrameCompressedAsksDecomp : Obligations.DecFrameCompressedAsksDecomp := by
  intro s c stage off haccepted hresolves w h need hw hh hlen hcap
  have hplen : s.inlen - 128 = need := by omega
  have hneed : need = nblocks w h * compBlockBytes c := by rw [compBlockBytes_eq]; rfl
  refine ⟨decFrame_stops haccepted hw hh ?_, fun hws => ?_⟩
  · rw [payloadCheck_eq haccepted hresolves]
    exact compressedCheck_none.2 ⟨hplen.trans hneed, hcap⟩
  · have hend := decFrame_endsAsDecompAnswers haccepted hresolves hw hh (hplen.trans hneed) hcap hws
    rw [hplen] at hend
    exact hend

/-! ## The uncompressed branch (R265 to R268) -/

/-- A decode that has pixels stops on an input byte that is not written, and else completes with them. -/
theorem decFrame_stops_or_completes {s : State} {tag : Option Tag} {stage off : Nat} {px : List Byte}
    (haccepted : HeaderAccepted s) (hresolves : Resolves s.inst.alt.off (s.inBytes 0 128) tag stage off)
    (hw : s.memRead 16 4 ≠ 0) (hh : s.memRead 12 4 ≠ 0)
    (hpixels : decodePixels s s.header (s.inBytes 128 (s.inlen - 128)) = .ok px) :
    ((∃ k < s.inlen, s.written k = false) → exec .decFrame s = .fault .unwrittenInput) ∧
      ((∀ k < s.inlen, s.written k) →
        ∃ t, exec .decFrame s = .next t ∧ Completes s t (DecodedRegs s tag stage off) px) := by
  refine ⟨decFrame_stops haccepted hw hh ?_, decFrame_completes haccepted hresolves hw hh hpixels⟩
  refine Option.eq_none_iff_forall_ne_some.2 fun e hcheck => ?_
  rw [decodePixels_of_payloadCheck hcheck] at hpixels
  cases hpixels

theorem decodeUncompressed_24 {ob rmask w h : Nat} {p : List Byte} (hlen : p.length = 3 * (w * h))
    (hcap : 4 * w * h ≤ ob) : decodeUncompressed ob 24 rmask p w h = .ok (unpack24 p (w * h)) := by
  have hcheck := uncompressedCheck_none.2 ⟨.inl rfl, hlen.trans (Nat.mul_comm _ _), hcap⟩
  rw [decodeUncompressed, hcheck]
  rfl

theorem decodeUncompressed_32 {ob rmask w h : Nat} {p : List Byte} (hlen : p.length = 4 * (w * h))
    (hcap : 4 * w * h ≤ ob) : decodeUncompressed ob 32 rmask p w h = .ok (unpack32 p (w * h) rmask) := by
  have hcheck := uncompressedCheck_none.2 ⟨.inr rfl, hlen.trans (Nat.mul_comm _ _), hcap⟩
  rw [decodeUncompressed, hcheck]
  rfl

/-- Pixel `j` of an image written pixel by pixel. -/
theorem slice_pixels {pixel : Nat → List Byte} {n j : Nat} (hpixel : ∀ j, (pixel j).length = 4) (hj : j < n) :
    slice ((List.range n).flatMap pixel) (4 * j) 4 = pixel j := by
  rw [Nat.mul_comm, slice_flatMap_range hpixel hj]

/-- Pixel `j` of a 24-bit payload (R266). -/
theorem slice_unpack24 (s : State) {o n j : Nat} (hj : j < n) :
    slice (unpack24 (s.inBytes o (3 * n)) n) (4 * j) 4 =
      [s.inByte (o + 3 * j + 2), s.inByte (o + 3 * j + 1), s.inByte (o + 3 * j), 255] := by
  rw [unpack24, slice_pixels (fun _ => rfl) hj, byteAt_inBytes s (by omega : 3 * j + 2 < 3 * n),
    byteAt_inBytes s (by omega : 3 * j + 1 < 3 * n), byteAt_inBytes s (by omega : 3 * j < 3 * n)]
  rfl

/-- Pixel `j` of a 32-bit payload: red and blue are exchanged for one red mask only (R267, R268). -/
theorem slice_unpack32 (s : State) (rmask : Nat) {o n j : Nat} (hj : j < n) :
    slice (unpack32 (s.inBytes o (4 * n)) n rmask) (4 * j) 4 =
      if rmask = bgraRedMask then
        [s.inByte (o + 4 * j + 2), s.inByte (o + 4 * j + 1), s.inByte (o + 4 * j), s.inByte (o + 4 * j + 3)]
      else s.inBytes (o + 4 * j) 4 := by
  unfold unpack32
  split_ifs with hmask
  · rw [slice_pixels (fun _ => rfl) hj, byteAt_inBytes s (by omega : 4 * j + 2 < 4 * n),
      byteAt_inBytes s (by omega : 4 * j + 1 < 4 * n), byteAt_inBytes s (by omega : 4 * j < 4 * n),
      byteAt_inBytes s (by omega : 4 * j + 3 < 4 * n)]
    rfl
  · exact s.slice_inBytes (by omega)

/-- Settles O53: the output is the unpacked payload, pixel by pixel. -/
theorem decFrame24BitPixels : Obligations.DecFrame24BitPixels := by
  intro s stage off haccepted hresolves w h hw hh hbits hlen hcap
  have hplen : s.inlen - 128 = 3 * (w * h) := by omega
  have hpixels : decodePixels s s.header (s.inBytes 128 (s.inlen - 128)) =
      .ok (unpack24 (s.inBytes 128 (3 * (w * h))) (w * h)) := by
    rw [decodePixels_untagged haccepted hresolves, hbits, hplen]
    exact decodeUncompressed_24 (s.length_inBytes _ _) hcap
  obtain ⟨hstops, hcompletes⟩ := decFrame_stops_or_completes haccepted hresolves hw hh hpixels
  refine ⟨hstops, fun hws => ?_⟩
  obtain ⟨t, ht, hdone⟩ := hcompletes hws
  exact ⟨t, _, ht, hdone, (decodePixels_length hpixels).1, fun j hj => slice_unpack24 s hj⟩

/-- Settles O52: the output is the unpacked payload, pixel by pixel; the two orders are those of `slice_unpack32`. -/
theorem decFrame32BitPixels : Obligations.DecFrame32BitPixels := by
  intro s stage off haccepted hresolves w h hw hh hbits hlen hcap
  have hplen : s.inlen - 128 = 4 * (w * h) := by rw [← Nat.mul_assoc]; omega
  have hpixels : decodePixels s s.header (s.inBytes 128 (s.inlen - 128)) =
      .ok (unpack32 (s.inBytes 128 (4 * (w * h))) (w * h) (s.memRead 92 4)) := by
    rw [decodePixels_untagged haccepted hresolves, hbits, hplen]
    exact decodeUncompressed_32 (s.length_inBytes _ _) hcap
  obtain ⟨hstops, hcompletes⟩ := decFrame_stops_or_completes haccepted hresolves hw hh hpixels
  refine ⟨hstops, fun hws => ?_⟩
  obtain ⟨t, ht, hdone⟩ := hcompletes hws
  exact ⟨t, _, ht, hdone, (decodePixels_length hpixels).1, fun j hj => slice_unpack32 s _ hj⟩

end Sys2Proof.Machine
end

section
/-!
PROOFS. How a command ends: success, one of its own errors, or a stop on an unwritten input byte (60_exceptions.md R300 to
R304, 70_reset_and_hazards.md R343).
-/

namespace Sys2Proof.Machine

/-! ## The errors of each operation (R301, R302) -/

/-- R106. -/
theorem hdrBuild_error {f : Fmt} {s : State} {e : Err} (h : hdrBuild f s = .error e) : e = .encode := by
  unfold hdrBuild at h
  split_ifs at h <;> cases h <;> rfl

theorem inputHeader_error {s : State} {e : Err} (h : inputHeader s = .error e) : e = .capacity ∨ e = .format := by
  unfold inputHeader parseHeader at h
  split_ifs at h <;> cases h <;> simp

theorem blockOp_error {need : Nat} {f : State → List Byte} {s : State} {e : Err} (h : blockOp need f s = .error e) :
    e = .capacity ∨ e = .encode := by
  unfold blockOp at h
  split_ifs at h <;> cases h <;> simp

/-- R221, R222. -/
theorem encFrame_error {f : Fmt} {s : State} {e : Err} (h : encFrame f s = .error e) : e = .capacity ∨ e = .encode := by
  simp only [encFrame] at h
  split_ifs at h <;> cases h <;> simp

/-- R251 lines 10 to 14. -/
theorem decodeCompressed_error {ob : Nat} {c : CompTag} {p : List Byte} {w h : Nat} {e : Err}
    (he : decodeCompressed ob c p w h = .error e) : e = .format ∨ e = .size ∨ e = .capacity := by
  unfold decodeCompressed at he
  split at he
  · rename_i hcheck
    unfold compressedCheck at hcheck
    split_ifs at hcheck <;> cases hcheck <;> cases he <;> simp
  · split at he
    · cases he; simp
    · split_ifs at he; cases he; simp

/-- R251 lines 18 to 21. -/
theorem decodeUncompressed_error {ob bits rmask : Nat} {p : List Byte} {w h : Nat} {e : Err}
    (he : decodeUncompressed ob bits rmask p w h = .error e) : e = .format ∨ e = .size ∨ e = .capacity := by
  unfold decodeUncompressed at he
  split at he
  · rename_i hcheck
    unfold uncompressedCheck at hcheck
    split_ifs at hcheck <;> cases hcheck <;> cases he <;> simp
  · cases he

theorem decodePixels_error {s : State} {hdr : Header} {p : List Byte} {e : Err} (h : decodePixels s hdr p = .error e) :
    e = .format ∨ e = .size ∨ e = .capacity := by
  unfold decodePixels at h
  split at h
  · cases h; exact .inl rfl
  · exact decodeCompressed_error h
  · exact decodeUncompressed_error h

theorem hdrParse_error {s : State} {e : Err} (h : hdrParse s = .error e) : e = .capacity ∨ e = .format := by
  unfold hdrParse at h
  split at h <;> cases h
  exact inputHeader_error ‹_›

theorem fccResolve_error {s : State} {e : Err} (h : fccResolve s = .error e) : e = .capacity ∨ e = .format := by
  unfold fccResolve at h
  split at h <;> cases h
  exact inputHeader_error ‹_›

theorem decFrame_error {s : State} {e : Err} (h : decFrame s = .error e) : e = .format ∨ e = .size ∨ e = .capacity := by
  unfold decFrame at h
  split at h
  · cases h
    obtain rfl | rfl := inputHeader_error ‹_› <;> simp
  · split_ifs at h
    · cases h; exact .inl rfl
    · split at h <;> cases h
      exact decodePixels_error ‹_›

/-! ## Every command -/

/-- `IllegalCommand` belongs to words that decode to no command (R74, R75): no command raises it. -/
theorem command_ne_illegalCommand (i : Instr) (s : State) : command i s ≠ .error .illegalCommand := by
  intro h
  cases i <;> simp only [command] at h
  case hdrBuildRgba | hdrBuildDxt1 | hdrBuildDxt5 => cases hdrBuild_error h
  case hdrParse => have := hdrParse_error h; simp at this
  case fccResolve => have := fccResolve_error h; simp at this
  case bc1Enc | bc3aEnc | pack2 | pack3 | unpack2 | unpack3 => have := blockOp_error h; simp at this
  case encFrameRgba | encFrameDxt1 | encFrameDxt5 => have := encFrame_error h; simp at this
  case decFrame => have := decFrame_error h; simp at this

/-- The codes of `STATUS` for the errors a command can raise (R301, R304). -/
theorem statusErr_mem {e : Err} (h : e ≠ .illegalCommand) :
    statusErr e ∈ [0x81#32, 0x82#32, 0x83#32, 0x85#32] := by
  cases e
  case illegalCommand => exact absurd rfl h
  all_goals decide

/-- The end of a command reports success, or one of its errors and changes only `STATUS` (R300, R303, R304). -/
theorem State.finish_reports (s : State) {c : Except Err Result} (h : c ≠ .error .illegalCommand) :
    (s.finish c).status = 0x80#32 ∨
      ∃ code ∈ [0x81#32, 0x82#32, 0x83#32, 0x85#32], s.finish c = { s with status := code } := by
  cases c with
  | ok r => exact .inl statusOk_eq
  | error e => exact .inr ⟨statusErr e, statusErr_mem fun he => h (he ▸ rfl), rfl⟩

/-- HDR_BUILD has no input to read. -/
theorem not_build_of_mem_reads {i : Instr} {s : State} {k : Nat} (hk : k ∈ commandReads i s) :
    i ∉ [.hdrBuildRgba, .hdrBuildDxt1, .hdrBuildDxt5] := by
  intro hi
  simp only [List.mem_cons, List.not_mem_nil, or_false] at hi
  obtain rfl | rfl | rfl := hi <;> exact absurd hk List.not_mem_nil

/-- Settles O6: a command that goes on ends in `finish` of its result, and one that stops has read an unwritten byte, which
lies below `x[2]`. -/
theorem everyCommandSucceedsOrOnlyReports : Obligations.EveryCommandSucceedsOrOnlyReports := by
  intro i s
  obtain hnext | ⟨hstop, k, hk, hunwritten⟩ := exec_cases i s
  · exact .inl ⟨_, hnext, s.finish_reports (command_ne_illegalCommand i s)⟩
  · exact .inr ⟨hstop, not_build_of_mem_reads hk, k, commandReads_lt hk, hunwritten⟩

end Sys2Proof.Machine
end
